-- ==== Sys2Proof/Word.lean ====
section
/-! DEFINITION. The two widths that ever meet in the block (R53): one-byte opcodes and register payloads, and 16-bit
fields. All numbers of the block are unsigned (00_scope section 7). -/

namespace Sys2Proof

/-- One byte on the bus: an opcode, or one byte of a payload. -/
abbrev Byte := BitVec 8

/-- A 16-bit field: a coordinate, the scroll offset, a panel dimension (`COORD_W`, `OFFSET_W`, `DIM_W`; R52, D10). -/
abbrev Half := BitVec 16

/-- One colour value, opaque inside the block (`COLOR_W`; R5 passes it through unchanged). -/
abbrev Color := BitVec 16

end Sys2Proof
end

