-- ==== Sys2Proof/Config.lean ====
section
/-! DEFINITION. The configuration record `CFG` (R6): every OPEN parameter of 00_scope section 4, as plain data, and the
free values of the model. `CFG` is a field of `State` that no step writes, so a claim about every state is a claim about
every `CFG`. The default instance `CFG0` of 95_test_vectors stands in Decode.lean. -/

namespace Sys2Proof

/-- The value a pin failure carries (`PinErr`, U14): an opaque token that the block only passes on. -/
abbrev PinErr := Nat

/-- The transport's answer to one bus transaction (R10). -/
inductive BusAnswer where
  | ok
  | fail
deriving DecidableEq, Repr, Inhabited

/-- The pin's answer to one set (R11). -/
inductive PinAnswer where
  | ok
  | fail (e : PinErr)
deriving DecidableEq, Repr, Inhabited

/-- `OPC` for the names that are no tuning step (R88); the opcodes of the tuning steps stand in their own lists. -/
structure OpcTable where
  swreset  : Byte
  slpout   : Byte
  dispon   : Byte
  caset    : Byte
  raset    : Byte
  ramwr    : Byte
  teoff    : Byte
  teon     : Byte
  madctl   : Byte
  vscad    : Byte
  colmod   : Byte
  gammaPos : Byte
  gammaNeg : Byte
deriving DecidableEq, Repr

/-- `MADCTL_PAT` (R161): one byte for each orientation. -/
structure PatTable where
  portrait         : Byte
  landscape        : Byte
  portraitSwapped  : Byte
  landscapeSwapped : Byte
deriving DecidableEq, Repr

/-- One step of `INIT_TUNE_A` or `INIT_TUNE_B`: its opcode and its payload, which may be empty (R148 b). -/
structure TuneStep where
  opcode  : Byte
  payload : List Byte
deriving DecidableEq, Repr

/-- How one payload format is cut into DATA transactions: the sizes of the first chunks, then the size of every later
one (0: all the rest is one chunk); for a payload that `special` lists, its own first sizes instead. So every function from
payloads to chunks is some `Cut` on the finitely many payloads of a run. Log entry 5. -/
structure Cut where
  first   : List Nat
  rep     : Nat
  special : List (List Byte × List Nat)
deriving DecidableEq, Repr

/-- `DATA_SPLIT` (R82, D11): one cutting for each payload format of R81. -/
structure DataSplit where
  w1 : Cut
  w2 : Cut
  w4 : Cut
  ws : Cut
  wt : Cut
deriving DecidableEq, Repr

/-- `PANEL_RANGE` (R61): the exclusive bounds for each orientation; `none` is the default `(WIDTH, HEIGHT)`. -/
structure RangeTable where
  portrait         : Option (Nat × Nat)
  landscape        : Option (Nat × Nat)
  portraitSwapped  : Option (Nat × Nat)
  landscapeSwapped : Option (Nat × Nat)
deriving DecidableEq, Repr

/-- The two treatments U3 offers for colours past the end of a window. -/
inductive Overrun where
  /-- R66: the pointer wraps to the window's first pixel. -/
  | wrapToFirst
  /-- U3, the safe direction: every pixel of the window becomes unknown. -/
  | windowUnknown
deriving DecidableEq, Repr

/-- The configuration record of R6. -/
structure Cfg where
  opcodes    : OpcTable
  patterns   : PatTable
  initMadctl : Byte
  initColmod : Byte
  /-- The COLMOD bytes that select a 16-bit format (R148 e); the spec gives the byte no layout (N6). Log entry 1. -/
  colmod16   : List Byte
  tuneA      : List TuneStep
  tuneB      : List TuneStep
  gammaPos   : List Byte
  gammaNeg   : List Byte
  tRst1      : Nat
  tRst2      : Nat
  tRst3      : Nat
  split      : DataSplit
  range      : RangeTable
  overrun    : Overrun
deriving DecidableEq, Repr

/-- FREE VALUE (log entry 3): the transport's answer to the bus transaction number `n`, where the environment's script
says nothing. The environment decides it, never the block (R10, R201). -/
opaque Config.busAnswer : Nat → BusAnswer

/-- FREE VALUE (log entry 3): the pin's answer to the pin set number `n`, where the script says nothing (R11, R202). -/
opaque Config.pinAnswer : Nat → PinAnswer

end Sys2Proof
end

