-- ==== Sys2Proof/Syntax.lean ====
section
/-! DEFINITION. The whole syntax: one constructor of `Instr` for every row of spec/opcode_table.json (15 wire
instructions, 10 host operations, 1 internal step), and the operand types they carry. -/

namespace Sys2Proof

/-- The four orientations (R21, R161). -/
inductive Orientation where
  | portrait
  | landscape
  | portraitSwapped
  | landscapeSwapped
deriving DecidableEq, Repr

/-- The three tearing-effect modes (R187). -/
inductive TeMode where
  | off
  | vertical
  | horizontalAndVertical
deriving DecidableEq, Repr

/-- The two payloads TEON can carry (R120). -/
inductive TeonMode where
  | vertical
  | horizontalAndVertical
deriving DecidableEq, Repr

/-- The bus handle: an opaque token of ownership (R20, R25). -/
structure BusHandle where
  token : Nat
deriving DecidableEq, Repr

/-- The reset-pin handle: an opaque token of ownership (R20, R25). -/
structure PinHandle where
  token : Nat
deriving DecidableEq, Repr

/-- The delay provider: supplied per call, never stored (R12). -/
structure DelayProvider where
  token : Nat
deriving DecidableEq, Repr

/-- The members of the Instruction Set (R110): the names `OPC` maps to bytes. -/
inductive WireName where
  | swreset
  | slpout
  | dispon
  | caset
  | raset
  | ramwr
  | teoff
  | teon
  | madctl
  | vscad
  | colmod
  | tuneA (k : Nat)
  | tuneB (k : Nat)
  | gammaPos
  | gammaNeg
deriving DecidableEq, Repr

/-- Every row of the opcode table. -/
inductive Instr where
  /-- R111 -/
  | swreset
  /-- R112 -/
  | slpout
  /-- R113 -/
  | dispon
  /-- R114: column start and end -/
  | caset (sx ex : Half)
  /-- R115: row start and end -/
  | raset (sy ey : Half)
  /-- R116: the colour stream -/
  | ramwr (colors : List Color)
  /-- R119 -/
  | teoff
  /-- R120 -/
  | teon (m : TeonMode)
  /-- R117: the one-byte pattern -/
  | madctl (p : Byte)
  /-- R121: the scroll offset -/
  | vscad (offset : Half)
  /-- R118: the colour-mode byte -/
  | colmod (c : Byte)
  /-- R122: step `k` of `INIT_TUNE_A` -/
  | tuneA (k : Nat)
  /-- R123: step `k` of `INIT_TUNE_B` -/
  | tuneB (k : Nat)
  /-- R124 -/
  | gammaPos
  /-- R125 -/
  | gammaNeg
  /-- R140 -/
  | new (bus : BusHandle) (pin : Option PinHandle) (width height : Half)
  /-- R143 to R145 -/
  | hardReset (delay : DelayProvider)
  /-- R146 to R151 -/
  | init (delay : DelayProvider)
  /-- R160 -/
  | orientation
  /-- R162 to R164 -/
  | setOrientation (o : Orientation)
  /-- R172 -/
  | setPixel (x y : Half) (color : Color)
  /-- R174: start x, start y, end x, end y, then the colours -/
  | setPixels (sx sy ex ey : Half) (colors : List Color)
  /-- R185 -/
  | setScrollOffset (offset : Half)
  /-- R187 -/
  | setTearingEffect (m : TeMode)
  /-- R189 -/
  | release
  /-- R170, internal: start x, start y, end x, end y -/
  | setAddressWindow (sx sy ex ey : Half)
deriving DecidableEq, Repr

end Sys2Proof
end

