-- ==== Sys2Proof/WellFormed.lean ====
section
/-! DEFINITION. What a configuration and an instruction must meet. The checks of an instruction are those of the closed
Instruction Set (R110, R92): a tuning step exists, and a one-byte register payload takes only the values of its
parameter. Everything else an operand can hold is allowed: the block validates nothing (R54, R55, D17). -/

namespace Sys2Proof

/-- The opcodes of all members of the Instruction Set, one for each name of R110. -/
def Cfg.opcodeList (c : Cfg) : List Byte :=
  [c.opcodes.swreset, c.opcodes.slpout, c.opcodes.dispon, c.opcodes.caset, c.opcodes.raset, c.opcodes.ramwr,
    c.opcodes.teoff, c.opcodes.teon, c.opcodes.madctl, c.opcodes.vscad, c.opcodes.colmod]
    ++ c.tuneA.map TuneStep.opcode ++ c.tuneB.map TuneStep.opcode ++ [c.opcodes.gammaPos, c.opcodes.gammaNeg]

/-- The four patterns of R161. -/
def Cfg.patternList (c : Cfg) : List Byte :=
  [c.patterns.portrait, c.patterns.landscape, c.patterns.portraitSwapped, c.patterns.landscapeSwapped]

/-- The constraints the spec puts on every `CFG`: `OPC` injective (R88), `MADCTL_PAT` injective (R161), the tuning
groups not empty (R148 d), the gamma tables not empty (R148 b), and `INIT_COLMOD` one of the bytes that select a 16-bit
format (R148 e). Clauses (c) and (f) of R148 follow from the first. -/
def Cfg.wf (c : Cfg) : Bool :=
  decide c.opcodeList.Nodup && decide c.patternList.Nodup && !c.tuneA.isEmpty && !c.tuneB.isEmpty
    && !c.gammaPos.isEmpty && !c.gammaNeg.isEmpty && c.colmod16.contains c.initColmod

/-- The instruction belongs to the block's closed set under the configuration (R92, R110, R122, R123). -/
def Instr.wf (c : Cfg) : Instr → Bool
  | .madctl p => (c.initMadctl :: c.patternList).contains p
  | .colmod p => p == c.initColmod
  | .tuneA k => decide (k < c.tuneA.length)
  | .tuneB k => decide (k < c.tuneB.length)
  | .swreset | .slpout | .dispon | .caset _ _ | .raset _ _ | .ramwr _ | .teoff | .teon _ | .vscad _
  | .gammaPos | .gammaNeg | .new _ _ _ _ | .hardReset _ | .init _ | .orientation | .setOrientation _
  | .setPixel _ _ _ | .setPixels _ _ _ _ _ | .setScrollOffset _ | .setTearingEffect _ | .release
  | .setAddressWindow _ _ _ _ => true

end Sys2Proof
end

