-- ==== Sys2Proof/Decode.lean ====
section
/-! DEFINITION. Encodings (30_encoding.md): byte order, `OPC`, the wire formats W0 to WT, the request port, a total
decoder that rejects by name, the encoder, and the default configuration `CFG0` with the default opcode bytes. -/

namespace Sys2Proof

/-! ## Byte order (R52, R87) -/

/-- `be16(v) = [v[15:8], v[7:0]]`: most significant byte first. -/
def be16 (v : Half) : List Byte :=
  [v.extractLsb' 8 8, v.extractLsb' 0 8]

/-- The receiver's reassembly: `first*256 + second` (R87). -/
def ofBe (h l : Byte) : Half :=
  h ++ l

/-- `be16(c0) ++ be16(c1) ++ …` (R174). -/
def beStream (cs : List Color) : List Byte :=
  cs.flatMap be16

/-- A byte stream read as 16-bit values; `none` for an odd number of bytes. -/
def ofBeStream : List Byte → Option (List Color)
  | [] => some []
  | [_] => none
  | h :: l :: rest => (ofBeStream rest).map (ofBe h l :: ·)

/-! ## The configuration's tables -/

/-- `OPC` (R88). A tuning name past its list is no member of the set (R110); its byte is never asked for. -/
def Cfg.opc (c : Cfg) : WireName → Byte
  | .swreset => c.opcodes.swreset
  | .slpout => c.opcodes.slpout
  | .dispon => c.opcodes.dispon
  | .caset => c.opcodes.caset
  | .raset => c.opcodes.raset
  | .ramwr => c.opcodes.ramwr
  | .teoff => c.opcodes.teoff
  | .teon => c.opcodes.teon
  | .madctl => c.opcodes.madctl
  | .vscad => c.opcodes.vscad
  | .colmod => c.opcodes.colmod
  | .tuneA k => (c.tuneA[k]?.map TuneStep.opcode).getD 0
  | .tuneB k => (c.tuneB[k]?.map TuneStep.opcode).getD 0
  | .gammaPos => c.opcodes.gammaPos
  | .gammaNeg => c.opcodes.gammaNeg

/-- The members of the Instruction Set under the configuration (R110). -/
def Cfg.names (c : Cfg) : List WireName :=
  [.swreset, .slpout, .dispon, .caset, .raset, .ramwr, .teoff, .teon, .madctl, .vscad, .colmod]
    ++ (List.range c.tuneA.length).map .tuneA ++ (List.range c.tuneB.length).map .tuneB ++ [.gammaPos, .gammaNeg]

/-- The name whose opcode is the byte, if any (R80: the receiver reads the command byte alone). -/
def Cfg.nameOf (c : Cfg) (b : Byte) : Option WireName :=
  c.names.find? fun n => c.opc n == b

/-- `MADCTL_PAT` (R161). -/
def Cfg.pattern (c : Cfg) : Orientation → Byte
  | .portrait => c.patterns.portrait
  | .landscape => c.patterns.landscape
  | .portraitSwapped => c.patterns.portraitSwapped
  | .landscapeSwapped => c.patterns.landscapeSwapped

/-- The payload of step `k` of `INIT_TUNE_A` (R122). -/
def Cfg.tuneAPayload (c : Cfg) (k : Nat) : List Byte :=
  (c.tuneA[k]?.map TuneStep.payload).getD []

/-- The payload of step `k` of `INIT_TUNE_B` (R123). -/
def Cfg.tuneBPayload (c : Cfg) (k : Nat) : List Byte :=
  (c.tuneB[k]?.map TuneStep.payload).getD []

/-- `TE_V` and `TE_HV`: "(0 and 1 respectively)" (R120). -/
def teByte : TeonMode → Byte
  | .vertical => 0x00
  | .horizontalAndVertical => 0x01

/-! ## The default configuration -/

/-- The default bytes of R88 (PRESUMED, log entry 1) and, for the gamma tables, those of the illustrative instance. -/
def OpcTable.standard : OpcTable :=
  { swreset := 0x01, slpout := 0x11, dispon := 0x29, caset := 0x2A, raset := 0x2B, ramwr := 0x2C, teoff := 0x34
    teon := 0x35, madctl := 0x36, vscad := 0x37, colmod := 0x3A, gammaPos := 0xE0, gammaNeg := 0xE1 }

/-- The default patterns of R161 (PRESUMED, log entry 1). -/
def PatTable.standard : PatTable :=
  { portrait := 0x00, landscape := 0x60, portraitSwapped := 0xC0, landscapeSwapped := 0xA0 }

/-- The default cutting of R82: one transaction for each payload field. -/
def DataSplit.standard : DataSplit :=
  { w1 := ⟨[], 0, []⟩, w2 := ⟨[], 0, []⟩, w4 := ⟨[2], 0, []⟩, ws := ⟨[], 0, []⟩, wt := ⟨[], 0, []⟩ }

/-- `CFG0` of 95_test_vectors: the defaults, and the illustrative instance of 41_construction_reset_init section 5 for
the parameters without a default (PRESUMED, log entry 1). No statement about a machine run may rest on these bytes. -/
def Cfg.cfg0 : Cfg :=
  { opcodes := OpcTable.standard
    patterns := PatTable.standard
    initMadctl := 0x00
    initColmod := 0x55
    colmod16 := [0x55, 0x05]
    tuneA := [⟨0xB2, [0x0C, 0x0C, 0x00, 0x33, 0x33]⟩]
    tuneB := [⟨0xB7, [0x35]⟩, ⟨0xBB, [0x19]⟩, ⟨0xC0, [0x2C]⟩, ⟨0xC2, [0x01]⟩, ⟨0xC3, [0x12]⟩, ⟨0xC4, [0x20]⟩,
      ⟨0xC6, [0x0F]⟩, ⟨0xD0, [0xA4, 0xA1]⟩]
    gammaPos := [0xD0, 0x04, 0x0D, 0x11, 0x13, 0x2B, 0x3F, 0x54, 0x4C, 0x18, 0x0D, 0x0B, 0x1F, 0x23]
    gammaNeg := [0xD0, 0x04, 0x0C, 0x11, 0x13, 0x2C, 0x3F, 0x44, 0x51, 0x2F, 0x1F, 0x1F, 0x20, 0x23]
    tRst1 := 10
    tRst2 := 10
    tRst3 := 10
    split := DataSplit.standard
    range := ⟨none, none, none, none⟩
    overrun := .windowUnknown }

/-! ## Frames -/

/-- One byte on the bus with its transaction kind (R10, R80): the kind, not the byte, tells a command. -/
inductive WireByte where
  | c (b : Byte)
  | d (b : Byte)
deriving DecidableEq, Repr

/-- The operands of a request that the table calls "not bit-encoded": handles, delay provider, colour stream (R95). -/
structure Side where
  bus    : BusHandle
  pin    : Option PinHandle
  delay  : DelayProvider
  colors : List Color
deriving DecidableEq, Repr

/-- What an operand line that an operation does not read holds. -/
def Side.idle : Side :=
  ⟨⟨0⟩, none, ⟨0⟩, []⟩

/-- What the host offers at its port: bits in the order of the table's pattern, and beside them the operands that have no
bits (R95). There is no other way in, so the host can pass no raw byte through the block (R90). -/
structure Request where
  bits : List Bool
  side : Side
deriving DecidableEq, Repr

/-- What the decoder reads: a host request (R95), or the tagged bytes of protocol steps (R80), so that a wire instruction
or the window step can be run on its own, as vectors V10 to V27 do. The second kind never stands at the host port (R90;
log entry 4). -/
inductive Frame where
  | host (bits : List Bool) (side : Side)
  | wire (bytes : List WireByte)
deriving DecidableEq, Repr

/-- Why the decoder rejects a frame. -/
inductive Reject where
  /-- The wire frame does not begin with a command byte (R80). -/
  | dataWithoutCommand
  /-- The command byte is outside the image of `OPC` (R90). -/
  | unknownOpcode
  /-- The payload has not the length of the instruction's format (R81). -/
  | wrongPayloadLength
  /-- An odd number of data bytes after RAMWR (R81, format WS). -/
  | oddStream
  /-- A TEON payload other than 0 and 1 (R92, R120). -/
  | badTearingPayload
  /-- A MADCTL or COLMOD payload that is no value of its parameter (R92). -/
  | payloadOutsideParameter
  /-- The payload is not the constant table of the step (R81, format WT). -/
  | wrongTable
  /-- The wire frame holds no protocol step, or several that are not one row of the table. -/
  | notOneStep
  /-- The request has fewer than the four bits of `OPSEL` (R95). -/
  | truncatedRequest
  /-- `OPSEL` 0xA to 0xF (R96). -/
  | reservedOpsel
  /-- The operand bits have not the operation's length (R95). -/
  | wrongOperandBits
  /-- Tearing-mode code 3 (R96). -/
  | reservedTearingMode
deriving DecidableEq, Repr

/-! ## Wire decoder, one reader for each format of R81 -/

/-- Format W0: no payload. -/
def readW0 (i : Instr) : List Byte → Except Reject Instr
  | [] => .ok i
  | _ :: _ => .error .wrongPayloadLength

/-- Format W1: one data byte. -/
def readW1 (f : Byte → Except Reject Instr) : List Byte → Except Reject Instr
  | [p] => f p
  | _ => .error .wrongPayloadLength

/-- Format W2: one 16-bit field. -/
def readW2 (f : Half → Instr) : List Byte → Except Reject Instr
  | [h, l] => .ok (f (ofBe h l))
  | _ => .error .wrongPayloadLength

/-- Format W4: two 16-bit fields, start then end. -/
def readW4 (f : Half → Half → Instr) : List Byte → Except Reject Instr
  | [a, b, c, d] => .ok (f (ofBe a b) (ofBe c d))
  | _ => .error .wrongPayloadLength

/-- Format WS: a stream of 16-bit values. -/
def readWS (f : List Color → Instr) (ds : List Byte) : Except Reject Instr :=
  match ofBeStream ds with
  | some cs => .ok (f cs)
  | none => .error .oddStream

/-- Format WT: the constant table of the step. -/
def readWT (i : Instr) (table ds : List Byte) : Except Reject Instr :=
  if ds = table then .ok i else .error .wrongTable

/-- The TEON payload (R120). -/
def readTeon (p : Byte) : Except Reject Instr :=
  if p = teByte .vertical then .ok (.teon .vertical)
  else if p = teByte .horizontalAndVertical then .ok (.teon .horizontalAndVertical)
  else .error .badTearingPayload

/-- A one-byte register payload that must be a value of its parameter (R92). -/
def readParameter (c : Cfg) (f : Byte → Instr) (p : Byte) : Except Reject Instr :=
  if (f p).wf c = true then .ok (f p) else .error .payloadOutsideParameter

/-- The payload of one protocol step, read in the format of its name (R81). -/
def decodeNamed (c : Cfg) (n : WireName) (ds : List Byte) : Except Reject Instr :=
  match n with
  | .swreset => readW0 .swreset ds
  | .slpout => readW0 .slpout ds
  | .dispon => readW0 .dispon ds
  | .caset => readW4 .caset ds
  | .raset => readW4 .raset ds
  | .ramwr => readWS .ramwr ds
  | .teoff => readW0 .teoff ds
  | .teon => readW1 readTeon ds
  | .madctl => readW1 (readParameter c .madctl) ds
  | .vscad => readW2 .vscad ds
  | .colmod => readW1 (readParameter c .colmod) ds
  | .tuneA k => readWT (.tuneA k) (c.tuneAPayload k) ds
  | .tuneB k => readWT (.tuneB k) (c.tuneBPayload k) ds
  | .gammaPos => readWT .gammaPos c.gammaPos ds
  | .gammaNeg => readWT .gammaNeg c.gammaNeg ds

/-- One protocol step: a command byte and the data bytes up to the next command (R80). -/
def decodeStep (c : Cfg) (b : Byte) (ds : List Byte) : Except Reject Instr :=
  match c.nameOf b with
  | some n => decodeNamed c n ds
  | none => .error .unknownOpcode

/-- The data bytes at the front of a stream. -/
def takeData : List WireByte → List Byte
  | .d b :: rest => b :: takeData rest
  | _ => []

/-- The stream from its next command byte on. -/
def dropData : List WireByte → List WireByte
  | .d _ :: rest => dropData rest
  | bs => bs

/-- The protocol steps of a stream, at most `fuel` of them: each ends where the next command begins (R80, R97). -/
def decodeSteps (c : Cfg) : Nat → List WireByte → Except Reject (List Instr)
  | _, [] => .ok []
  | _, .d _ :: _ => .error .dataWithoutCommand
  | 0, .c _ :: _ => .error .notOneStep
  | fuel + 1, .c b :: rest =>
    match decodeStep c b (takeData rest) with
    | .error r => .error r
    | .ok i =>
      match decodeSteps c fuel (dropData rest) with
      | .error r => .error r
      | .ok is => .ok (i :: is)

/-- All protocol steps of a wire view. -/
def decodeStream (c : Cfg) (bs : List WireByte) : Except Reject (List Instr) :=
  decodeSteps c bs.length bs

/-- The row of the table that a frame's protocol steps are: one wire instruction, or CASET and RASET for the window
step (R170). -/
def oneRow : List Instr → Except Reject Instr
  | [i] => .ok i
  | [.caset sx ex, .raset sy ey] => .ok (.setAddressWindow sx sy ex ey)
  | _ => .error .notOneStep

/-! ## The request port (R95) -/

/-- The low `n` bits of a value, most significant first. -/
def msbBits : Nat → Nat → List Bool
  | 0, _ => []
  | n + 1, v => v.testBit n :: msbBits n v

/-- The value of a bit string, most significant first. -/
def ofMsbBits (bits : List Bool) : Nat :=
  bits.foldl (fun a b => 2 * a + b.toNat) 0

/-- Reads fields of the given widths; the string must be exactly that long. -/
def readFields : List Nat → List Bool → Option (List Nat)
  | [], [] => some []
  | [], _ :: _ => none
  | n :: ns, bits =>
    if bits.length < n then none
    else (readFields ns (bits.drop n)).map (ofMsbBits (bits.take n) :: ·)

/-- The operand fields on the request port for each `OPSEL`; `none` for the reserved codes (R95). -/
def requestFields : Nat → Option (List Nat)
  | 0x0 => some [16, 16]
  | 0x1 => some []
  | 0x2 => some []
  | 0x3 => some []
  | 0x4 => some [2]
  | 0x5 => some [16, 16, 16]
  | 0x6 => some [16, 16, 16, 16]
  | 0x7 => some [16]
  | 0x8 => some [2]
  | 0x9 => some []
  | _ => none

/-- The orientation codes of R95. -/
def Orientation.code : Orientation → Nat
  | .portrait => 0
  | .landscape => 1
  | .portraitSwapped => 2
  | .landscapeSwapped => 3

/-- The orientation of a 2-bit code (R95). -/
def Orientation.ofCode : Nat → Orientation
  | 0 => .portrait
  | 1 => .landscape
  | 2 => .portraitSwapped
  | _ => .landscapeSwapped

/-- The tearing-mode codes of R95. -/
def TeMode.code : TeMode → Nat
  | .off => 0
  | .vertical => 1
  | .horizontalAndVertical => 2

/-- The tearing mode of a 2-bit code; code 3 is reserved (R95, R96). -/
def TeMode.ofCode : Nat → Option TeMode
  | 0 => some .off
  | 1 => some .vertical
  | 2 => some .horizontalAndVertical
  | _ => none

/-- A field value as a 16-bit operand. -/
def half (n : Nat) : Half :=
  BitVec.ofNat 16 n

/-- A request from its selector, its operand fields and its side operands (R95). -/
def requestOf (op : Nat) (args : List Nat) (side : Side) : Except Reject Instr :=
  match op, args with
  | 0x0, [w, h] => .ok (.new side.bus side.pin (half w) (half h))
  | 0x1, [] => .ok (.hardReset side.delay)
  | 0x2, [] => .ok (.init side.delay)
  | 0x3, [] => .ok .orientation
  | 0x4, [o] => .ok (.setOrientation (Orientation.ofCode o))
  | 0x5, [x, y, c] => .ok (.setPixel (half x) (half y) (half c))
  | 0x6, [sx, sy, ex, ey] => .ok (.setPixels (half sx) (half sy) (half ex) (half ey) side.colors)
  | 0x7, [v] => .ok (.setScrollOffset (half v))
  | 0x8, [m] =>
    match TeMode.ofCode m with
    | some m => .ok (.setTearingEffect m)
    | none => .error .reservedTearingMode
  | 0x9, [] => .ok .release
  | _, _ => .error .wrongOperandBits

/-- A host request: four bits of `OPSEL`, then the operand fields (R95, R96). -/
def decodeRequest (bits : List Bool) (side : Side) : Except Reject Instr :=
  if bits.length < 4 then .error .truncatedRequest
  else
    let op := ofMsbBits (bits.take 4)
    match requestFields op with
    | none => .error .reservedOpsel
    | some widths =>
      match readFields widths (bits.drop 4) with
      | none => .error .wrongOperandBits
      | some args => requestOf op args side

/-- The decoder: total on every frame, rejecting by name. -/
def decode (c : Cfg) : Frame → Except Reject Instr
  | .host bits side => decodeRequest bits side
  | .wire bytes =>
    match decodeStream c bytes with
    | .error r => .error r
    | .ok is => oneRow is

/-! ## The encoder -/

/-- The tagged bytes of one protocol step (R80). -/
def stepBytes (c : Cfg) (n : WireName) (payload : List Byte) : List WireByte :=
  .c (c.opc n) :: payload.map .d

/-- The bits of a request (R95): `OPSEL`, then 16-bit operands. -/
def requestBits (op : Nat) (operands : List Half) : List Bool :=
  msbBits 4 op ++ operands.flatMap fun v => msbBits 16 v.toNat

/-- The frame of an instruction, from the formats of R81 and the request table of R95. -/
def encode (c : Cfg) : Instr → Frame
  | .swreset => .wire (stepBytes c .swreset [])
  | .slpout => .wire (stepBytes c .slpout [])
  | .dispon => .wire (stepBytes c .dispon [])
  | .caset sx ex => .wire (stepBytes c .caset (be16 sx ++ be16 ex))
  | .raset sy ey => .wire (stepBytes c .raset (be16 sy ++ be16 ey))
  | .ramwr colors => .wire (stepBytes c .ramwr (beStream colors))
  | .teoff => .wire (stepBytes c .teoff [])
  | .teon m => .wire (stepBytes c .teon [teByte m])
  | .madctl p => .wire (stepBytes c .madctl [p])
  | .vscad offset => .wire (stepBytes c .vscad (be16 offset))
  | .colmod p => .wire (stepBytes c .colmod [p])
  | .tuneA k => .wire (stepBytes c (.tuneA k) (c.tuneAPayload k))
  | .tuneB k => .wire (stepBytes c (.tuneB k) (c.tuneBPayload k))
  | .gammaPos => .wire (stepBytes c .gammaPos c.gammaPos)
  | .gammaNeg => .wire (stepBytes c .gammaNeg c.gammaNeg)
  | .new bus pin width height => .host (requestBits 0x0 [width, height]) { Side.idle with bus := bus, pin := pin }
  | .hardReset delay => .host (requestBits 0x1 []) { Side.idle with delay := delay }
  | .init delay => .host (requestBits 0x2 []) { Side.idle with delay := delay }
  | .orientation => .host (requestBits 0x3 []) Side.idle
  | .setOrientation o => .host (msbBits 4 0x4 ++ msbBits 2 o.code) Side.idle
  | .setPixel x y color => .host (requestBits 0x5 [x, y, color]) Side.idle
  | .setPixels sx sy ex ey colors => .host (requestBits 0x6 [sx, sy, ex, ey]) { Side.idle with colors := colors }
  | .setScrollOffset offset => .host (requestBits 0x7 [offset]) Side.idle
  | .setTearingEffect m => .host (msbBits 4 0x8 ++ msbBits 2 m.code) Side.idle
  | .release => .host (requestBits 0x9 []) Side.idle
  | .setAddressWindow sx sy ex ey =>
    .wire (stepBytes c .caset (be16 sx ++ be16 ex) ++ stepBytes c .raset (be16 sy ++ be16 ey))

/-! ## Words numbered as the opcode table numbers them (log entry 6) -/

/-- The first `n` bytes of a table word: bit 0 is the least significant bit of the first byte. -/
def wordBytes : Nat → Nat → List Byte
  | 0, _ => []
  | n + 1, w => BitVec.ofNat 8 w :: wordBytes n (w / 256)

/-- The data bytes after an opcode, completed: zeros up to the length of a fixed format, and the constant table of a WT
step, whose payload the table gives no bits. -/
def completedData (c : Cfg) (n : WireName) (ds : List Byte) : List Byte :=
  let upTo (k : Nat) := ds ++ List.replicate (k - ds.length) 0
  let table (t : List Byte) := if ds = [] then t else ds
  match n with
  | .swreset | .slpout | .dispon | .teoff | .ramwr => ds
  | .teon | .madctl | .colmod => upTo 1
  | .vscad => upTo 2
  | .caset | .raset => upTo 4
  | .tuneA k => table (c.tuneAPayload k)
  | .tuneB k => table (c.tuneBPayload k)
  | .gammaPos => table c.gammaPos
  | .gammaNeg => table c.gammaNeg

/-- A table word's bytes as tagged wire bytes: the first is a command, and in the ten-byte window pattern of
SET_ADDRESS_WINDOW so is the sixth. -/
def wireOfBytes (c : Cfg) : List Byte → List WireByte
  | [] => []
  | [k1, a, b, d, e, k2, f, g, h, i] => .c k1 :: [a, b, d, e].map .d ++ .c k2 :: [f, g, h, i].map .d
  | b :: ds =>
    match c.nameOf b with
    | some n => .c b :: (completedData c n ds).map .d
    | none => .c b :: ds.map .d

/-- The fields of a table word from its low end, each written most significant bit first. -/
def fieldBits : List Nat → Nat → List Bool
  | [], _ => []
  | n :: ns, w => msbBits n w ++ fieldBits ns (w / 2 ^ n)

/-- A table word read as a request: `OPSEL` is its low four bits (the table's mask 0xF), the operand fields follow. -/
def requestOfWord (w : Nat) : Frame :=
  .host (msbBits 4 (w % 16) ++ fieldBits ((requestFields (w % 16)).getD []) (w / 16)) Side.idle

/-- The frame of a table word: wire bytes where they decode, else a host request. -/
def frameOfTableWord (c : Cfg) (nbits w : Nat) : Frame :=
  let onWire := Frame.wire (wireOfBytes c (wordBytes ((nbits + 7) / 8) w))
  match decode c onWire with
  | .ok _ => if nbits % 8 = 0 then onWire else requestOfWord w
  | .error _ => requestOfWord w

/-- The configuration with `INIT_MADCTL = p`, where `p` is no value of the parameter yet. -/
def Cfg.admitMadctl (c : Cfg) (p : Byte) : Cfg :=
  if (Instr.madctl p).wf c then c else { c with initMadctl := p }

/-- The configuration with `INIT_COLMOD = p`, a byte that then selects a 16-bit format (R148 e). -/
def Cfg.admitColmod (c : Cfg) (p : Byte) : Cfg :=
  if (Instr.colmod p).wf c then c else { c with initColmod := p, colmod16 := p :: c.colmod16 }

/-- The configuration under which a table word is read: the table's one-byte field of MADCTL and COLMOD stands for the
OPEN parameter itself, so a word that carries another byte is the row of a block whose `INIT_MADCTL` or `INIT_COLMOD` is
that byte (R92, R161, R148). Every other word leaves the configuration as it is. -/
def Cfg.forTableWord (c : Cfg) (nbits w : Nat) : Cfg :=
  match wordBytes ((nbits + 7) / 8) w with
  | [] => c
  | b :: ds =>
    match c.nameOf b, ds with
    | some .madctl, [] => c.admitMadctl 0
    | some .madctl, [p] => c.admitMadctl p
    | some .colmod, [] => c.admitColmod 0
    | some .colmod, [p] => c.admitColmod p
    | _, _ => c

/-- The instruction this decoder reads from a table word, under the default configuration with the word's own parameter. -/
def decodeTableWord (nbits w : Nat) : Option Instr :=
  let c := Cfg.cfg0.forTableWord nbits w
  match decode c (frameOfTableWord c nbits w) with
  | .ok i => some i
  | .error _ => none

end Sys2Proof
end

