-- ==== Sys2Proof/Machine/State.lean ====
section
/-! DEFINITION. The state as plain data: the block's registers (10_state.md section 1), the sequencer's position, the
response, the ghosts of the observation (R13, R35), the environment's answers, the host's requests, a protocol step placed
from outside, and the reference environment of the controller (20_memory.md section 6, 10_state.md section 5). -/

namespace Sys2Proof.Machine

/-- The level of the reset pin (R11). -/
inductive Level where
  | high
  | low
deriving DecidableEq, Repr

/-- The ghost `RSTLINE` (R35, D25, D27): the spec's own three values. -/
inductive RstLine where
  | high
  | low
  | unknown
deriving DecidableEq, Repr

/-- One port event of `TRACE` (R13). -/
inductive Event where
  | cmd (b : Byte) (r : BusAnswer)
  | data (bs : List Byte) (r : BusAnswer)
  | pin (l : Level) (r : PinAnswer)
  | delay (us : Nat)
deriving DecidableEq, Repr

/-- The two error kinds (R200). -/
inductive ErrKind where
  | transportError
  | pinError (e : PinErr)
deriving DecidableEq, Repr

/-- The value of an `Ok` response (R100). -/
inductive Value where
  | unit
  | orientation (o : Orientation)
  | handles (bus : BusHandle) (pin : Option PinHandle)
deriving DecidableEq, Repr

/-- What an operation ends with (R9). -/
inductive Response where
  | ok (v : Value)
  | err (e : ErrKind)
deriving DecidableEq, Repr

/-- The registers a constructed Driver holds (R20): `BUS`, `RST`, `WIDTH`, `HEIGHT`, `ORIENT`. `HAS_RST` is the
presence of `RST` and is computed (`Driver.hasRst`). -/
structure Driver where
  bus    : BusHandle
  rst    : Option PinHandle
  width  : Half
  height : Half
  orient : Orientation
deriving DecidableEq, Repr

/-- `LIFE` (R24) with the registers that exist only while it is Live: before NEW they have no value and the model "must
not pick one" (R230); after RELEASE "a model should make them unreadable, not kept" (R189). Log entry 2. -/
inductive Life where
  | absent
  | live (d : Driver)
  | released
deriving DecidableEq, Repr

/-- `SEQ = (op, step)` (R30): idle, or the operation that runs and the index of its next event. -/
inductive Seq where
  | idle
  | running (op : Instr) (step : Nat)
deriving DecidableEq, Repr

/-- The environment's oracle (00_scope section 8): the answers scripted for the next bus transactions and pin sets, and
how many of each were consulted (the oracle position of R35). Past the script an answer is a free value, `Config.busAnswer`
or `Config.pinAnswer` at the position (log entry 3). -/
structure Env where
  bus    : List BusAnswer
  busPos : Nat
  pin    : List PinAnswer
  pinPos : Nat
deriving DecidableEq, Repr

/-- Whether the controller is initialised (R35, R236, U7). Only in `ready` can anything of it be known. -/
inductive Bringup where
  /-- No INIT has returned Ok since NEW or since a failed INIT. -/
  | uninit
  /-- An INIT has returned Ok, and the reset line may be holding the controller since. -/
  | held
  /-- An INIT has returned Ok, and the controller takes commands. -/
  | ready
deriving DecidableEq, Repr

/-- The reference environment of the controller (R62) and the controller registers of 10_state section 5. `none` is the
spec's "unknown": any value (R32, R62); no instruction reads any of these fields. -/
structure Panel where
  bringup   : Bringup
  /-- The last command byte delivered; `WRITING` (R62) says that it is RAMWR's and is computed (`Panel.writing`). -/
  cmd       : Option Byte
  /-- The data bytes delivered since; after RAMWR, the first half of a pixel. -/
  args      : List Byte
  xs        : Option Half
  xe        : Option Half
  ys        : Option Half
  ye        : Option Half
  /-- `PTR` (R62), a pair over the mathematical integers (R104), or unknown. After a stream U4 has it any value; the model
  keeps R65's last position (DESIGN CHOICE, log entry 8). -/
  ptr       : Option (Nat × Nat)
  /-- `FM` (R62), the known pixels by key (`pixelKey`), keys strictly rising; a pixel not listed is unknown. -/
  fm        : List (Nat × Color)
  madctl    : Option Byte
  colmod    : Option Byte
  scroll    : Option Half
  tearing   : Option TeMode
  asleep    : Option Bool
  displayOn : Option Bool
  /-- The tuning and gamma registers, by opcode: the payload bytes delivered since their command. -/
  tables    : List (Nat × List Byte)
deriving DecidableEq, Repr

/-- Nothing of the controller is known (R62 "Initial values: all unknown", R231). -/
def Panel.unknown : Panel :=
  { bringup := .uninit, cmd := none, args := [], xs := none, xe := none, ys := none, ye := none, ptr := none, fm := []
    madctl := none, colmod := none, scroll := none, tearing := none, asleep := none, displayOn := none, tables := [] }

/-- The whole state. `cfg` is the configuration (R6); `life` and `seq` are the block; `resp` is the last response (R13 b);
`trace` and `rstLine` are ghosts (R13, R35); `env` and `port` are the environment: its answers and the requests the host
will offer, in order (R9; no queue of the block, R5), all of them bit strings of the request port (R90, R95); `placed` is
the model's own: the tagged bytes of a protocol step put beside the port from outside, which no step ever fills, so that a
row of the wire space can be run on its own (log entries 4, 6); `panel` is the controller. -/
structure State where
  cfg     : Cfg
  life    : Life
  seq     : Seq
  resp    : Option Response
  trace   : List Event
  rstLine : RstLine
  env     : Env
  port    : List Request
  placed  : Option (List WireByte)
  panel   : Panel
deriving DecidableEq, Repr

/-- What stops the machine. The block itself has no faults: its errors are responses (R200, R203). -/
inductive Fault where
  /-- Raised by `step` alone: `SEQ` says that an operation runs, and no Driver is Live to run it or the operation has no
  events. No run reaches such a state (R24, R30); the spec gives it no behaviour. Safe: it stops. -/
  | sequencerAdrift
deriving DecidableEq, Repr

/-- Why a request has no meaning. A refused request has no trace, no response and no effect (R215). -/
inductive Refusal where
  /-- An instruction without a meaning in this model; no arm of `exec` uses it. Safe. -/
  | notModelled (mnemonic : String)
  /-- Raised by every meaning: the request is not admitted in this value of `LIFE` (R24, R215). Safe: the spec's own
  refusal. -/
  | notAdmitted
  /-- Raised by every meaning: a request while another runs (R9, R222, D28). Safe: the spec's own refusal. -/
  | busy
  /-- Raised by the meanings of TUNE_A and TUNE_B: the parameter list has no such step, so the name is no member of the
  Instruction Set (R110). Safe: the decoder never yields it. -/
  | noSuchStep
  /-- Raised by the meanings of MADCTL and COLMOD: the payload is no value of its parameter, so the block never emits it
  (R92). Safe: the decoder never yields it. -/
  | payloadOutsideParameter
  /-- Raised by `step`: the frame decodes to no instruction, a reserved `OPSEL` or tearing-mode code among them (R96).
  Safe: the spec's own refusal. -/
  | badRequest (r : Reject)
deriving DecidableEq, Repr

/-- Block reset (R230, R232 a): `LIFE` is Absent, no operation runs, nothing was observed, everything outside is unknown
(R231). The configuration is `CFG0` (log entry 1); no request is offered and no answer is scripted. -/
def State.reset : State :=
  { cfg := Cfg.cfg0
    life := .absent
    seq := .idle
    resp := none
    trace := []
    rstLine := .unknown
    env := { bus := [], busPos := 0, pin := [], pinPos := 0 }
    port := []
    placed := none
    panel := Panel.unknown }

end Sys2Proof.Machine
end

