-- ==== Sys2Proof/Machine/Flags.lean ====
section
/-! DEFINITION. The block has no flags and no condition codes; "the only status an operation produces is its response"
(10_state.md section 4). Here: what a response says, and its nominal code. -/

namespace Sys2Proof.Machine

/-- The operation ended with `Err`. -/
def Response.isErr : Response → Bool
  | .ok _ => false
  | .err _ => true

/-- The nominal code of a response port (R200, D21): 0 ok, 1 TransportError, 2 PinError. No claim may depend on it. -/
def Response.code : Response → Nat
  | .ok _ => 0
  | .err .transportError => 1
  | .err (.pinError _) => 2

/-- The value a PinError carries, passed through unchanged (R200). -/
def Response.pinErr : Response → Option PinErr
  | .err (.pinError e) => some e
  | .err .transportError => none
  | .ok _ => none

end Sys2Proof.Machine
end

