-- ==== Sys2Proof/Machine/Cells.lean ====
section
/-! DEFINITION. Sparse data by key, in one canonical form: keys strictly rising, nothing listed for a key that is unknown.
The controller's frame memory and its table registers are such lists. What an unlisted key reads as is `none`: unknown
(R62, log entry 7). -/

namespace Sys2Proof.Machine

/-- The canonical form. -/
def cellsWf {β : Type} (m : List (Nat × β)) : Prop :=
  m.Pairwise fun a b => a.1 < b.1

/-- The value at a key; `none` is unknown. -/
def getCell {β : Type} (k : Nat) : List (Nat × β) → Option β
  | [] => none
  | (j, w) :: rest => if j = k then some w else getCell k rest

/-- Writes a value at a key. -/
def setCell {β : Type} (k : Nat) (v : β) : List (Nat × β) → List (Nat × β)
  | [] => [(k, v)]
  | (j, w) :: rest =>
    if k < j then (k, v) :: (j, w) :: rest
    else if k = j then (k, v) :: rest
    else (j, w) :: setCell k v rest

/-- Forgets every key the predicate selects. -/
def forgetCells {β : Type} (p : Nat → Bool) (m : List (Nat × β)) : List (Nat × β) :=
  m.filter fun c => !p c.1

/-- The key of the pixel at (col, row): both coordinates are below 65536 (R50 b). -/
def pixelKey (col row : Nat) : Nat :=
  row * 65536 + col

end Sys2Proof.Machine
end

