-- ==== Sys2Proof/Machine/Panel.lean ====
section
/-! DEFINITION. The reference environment: what the controller does with each byte delivered (R62 to R68, log entry 8).
It is no part of the block, and no meaning reads it. -/

namespace Sys2Proof.Machine

/-- An inclusive window `[x0,x1] × [y0,y1]` (R63). -/
structure Window where
  x0 : Nat
  x1 : Nat
  y0 : Nat
  y1 : Nat
deriving DecidableEq, Repr

/-- The four orientations. -/
def orientations : List Orientation :=
  [.portrait, .landscape, .portraitSwapped, .landscapeSwapped]

/-- `PANEL_RANGE(o)` (R61); `dims` is `(WIDTH, HEIGHT)`. -/
def rangeOf (c : Cfg) (dims : Nat × Nat) : Orientation → Nat × Nat
  | .portrait => c.range.portrait.getD dims
  | .landscape => c.range.landscape.getD dims
  | .portraitSwapped => c.range.portraitSwapped.getD dims
  | .landscapeSwapped => c.range.landscapeSwapped.getD dims

/-- The orientations that may be in force: those whose pattern the memory-access-control register holds; all four when
it is unknown or holds no pattern. -/
def Panel.inForce (c : Cfg) (p : Panel) : List Orientation :=
  match p.madctl with
  | none => orientations
  | some m =>
    let os := orientations.filter fun o => c.pattern o == m
    if os.isEmpty then orientations else os

/-- The window, when its four registers are known. -/
def Panel.window (p : Panel) : Option Window :=
  match p.xs, p.xe, p.ys, p.ye with
  | some x0, some x1, some y0, some y1 => some ⟨x0.toNat, x1.toNat, y0.toNat, y1.toNat⟩
  | _, _, _, _ => none

/-- The column bounds are well formed and inside `PANEL_RANGE` of every orientation that may be in force (R65, R68). -/
def Panel.columnsFit (c : Cfg) (dims : Nat × Nat) (p : Panel) (x0 x1 : Nat) : Bool :=
  decide (x0 ≤ x1) && (p.inForce c).all fun o => decide (x1 < (rangeOf c dims o).1)

/-- The row bounds likewise. -/
def Panel.rowsFit (c : Cfg) (dims : Nat × Nat) (p : Panel) (y0 y1 : Nat) : Bool :=
  decide (y0 ≤ y1) && (p.inForce c).all fun o => decide (y1 < (rangeOf c dims o).2)

/-- The whole window is well formed and in range (R65, R68). -/
def Panel.accepts (c : Cfg) (dims : Nat × Nat) (p : Panel) (w : Window) : Bool :=
  p.columnsFit c dims w.x0 w.x1 && p.rowsFit c dims w.y0 w.y1

/-- `WRITING` (R62): the last command byte was RAMWR; unknown when no command byte is known. -/
def Panel.writing (c : Cfg) (p : Panel) : Option Bool :=
  p.cmd.map (· == c.opc .ramwr)

/-- The pixel of the frame memory at (col, row); `none` is unknown. -/
def Panel.pixelAt (p : Panel) (col row : Nat) : Option Color :=
  getCell (pixelKey col row) p.fm

/-- The pointer after a pixel (R65): the next column; past `XE`, back to `XS` in the next row. -/
def advancePtr (w : Window) (ptr : Nat × Nat) : Nat × Nat :=
  if ptr.1 < w.x1 then (ptr.1 + 1, ptr.2) else (w.x0, ptr.2 + 1)

/-- The key lies in the window. -/
def inWindow (w : Window) (k : Nat) : Bool :=
  decide (w.x0 ≤ k % 65536) && decide (k % 65536 ≤ w.x1) && decide (w.y0 ≤ k / 65536) && decide (k / 65536 ≤ w.y1)

/-- One pixel after RAMWR (R65 to R68). Past the window's last row the configuration chooses: wrap to the first pixel
(R66) or forget the window (U3). Where R65 does not apply, the whole frame memory becomes unknown (R68, U1, U7; DESIGN
CHOICE where R68 says 'where it is touched, or wholly', log entry 8). The pointer AFTER a stream is any value (U4);
DESIGN CHOICE (log entry 8): the model cannot see where a stream ends, keeps the last position R65 gave as known until the
next RAMWR sets it again (R64), under U3's treatment keeps the position past the window's last row, and through a window
that R65 does not admit does not move it. -/
def Panel.pixel (c : Cfg) (dims : Nat × Nat) (v : Color) (p : Panel) : Panel :=
  match p.bringup, p.window, p.ptr with
  | .ready, some w, some (col, row) =>
    if p.accepts c dims w then
      if row ≤ w.y1 then
        { p with fm := setCell (pixelKey col row) v p.fm, ptr := some (advancePtr w (col, row)) }
      else
        match c.overrun with
        | .wrapToFirst =>
          { p with fm := setCell (pixelKey w.x0 w.y0) v p.fm, ptr := some (advancePtr w (w.x0, w.y0)) }
        | .windowUnknown => { p with fm := forgetCells (inWindow w) p.fm }
    else { p with fm := [] }
  | _, _, _ => { p with fm := [] }

/-- Every controller register, the frame memory and the pointer become any value (R68, U5); what is remembered is
whether an INIT has returned Ok. -/
def Panel.forget (p : Panel) : Panel :=
  { Panel.unknown with bringup := p.bringup }

/-- A known controller's reaction to the command byte of a name. SWRESET makes everything unknown (R68, R111). -/
def Panel.onCommand (c : Cfg) (n : WireName) (p : Panel) : Panel :=
  match n with
  | .swreset => { p.forget with cmd := p.cmd }
  | .slpout => { p with asleep := some false }
  | .dispon => { p with displayOn := some true }
  | .caset => { p with xs := none, xe := none }
  | .raset => { p with ys := none, ye := none }
  | .ramwr =>
    { p with ptr := match p.xs, p.ys with
        | some x, some y => some (x.toNat, y.toNat)
        | _, _ => none }
  | .teoff => { p with tearing := some .off }
  | .teon => { p with tearing := none }
  | .madctl => p
  | .vscad => { p with scroll := none }
  | .colmod => { p with colmod := none }
  | .tuneA _ | .tuneB _ | .gammaPos | .gammaNeg => { p with tables := setCell (c.opc n).toNat [] p.tables }

/-- The controller receives a command byte. Where no INIT has returned Ok, or the reset line may hold the controller,
nothing is known after it (R236). -/
def Panel.recvCmd (c : Cfg) (b : Byte) (p : Panel) : Panel :=
  match c.nameOf b with
  | none => Panel.unknown
  | some n =>
    match p.bringup with
    | .ready => Panel.onCommand c n { p with cmd := some b, args := [] }
    | .uninit => p.forget
    | .held => p.forget

/-- A known controller's reaction to a data byte of a name's payload; `as` are the payload bytes so far, that one
included. Where R68 leaves 'where it is touched, or wholly' open, DESIGN CHOICE (log entry 8): the moment CASET or RASET
has delivered bounds that are reversed or out of range, the frame memory is unknown wholly, as U1 and U2 have it, before
any pixel and even when none follows. A COLMOD byte that selects no 16-bit format ends what is known (R68). -/
def Panel.onData (c : Cfg) (dims : Nat × Nat) (n : WireName) (as : List Byte) (p : Panel) : Panel :=
  match n with
  | .swreset | .slpout | .dispon | .teoff => p
  | .caset =>
    match as with
    | [h, l, h', l'] =>
      { p with
        xs := some (ofBe h l), xe := some (ofBe h' l')
        fm := if p.columnsFit c dims (ofBe h l).toNat (ofBe h' l').toNat then p.fm else [] }
    | _ => p
  | .raset =>
    match as with
    | [h, l, h', l'] =>
      { p with
        ys := some (ofBe h l), ye := some (ofBe h' l')
        fm := if p.rowsFit c dims (ofBe h l).toNat (ofBe h' l').toNat then p.fm else [] }
    | _ => p
  | .ramwr =>
    match as with
    | [h, l] => Panel.pixel c dims (ofBe h l) { p with args := [] }
    | _ => p
  | .teon =>
    match as with
    | [b] =>
      if b = teByte .vertical then { p with tearing := some .vertical }
      else if b = teByte .horizontalAndVertical then { p with tearing := some .horizontalAndVertical }
      else p
    | _ => p
  | .madctl =>
    match as with
    | [b] => if p.madctl = some b then p else { p with madctl := some b, fm := [] }
    | _ => p
  | .vscad =>
    match as with
    | [h, l] => { p with scroll := some (ofBe h l) }
    | _ => p
  | .colmod =>
    match as with
    | [b] => if c.colmod16.contains b then { p with colmod := some b } else Panel.unknown
    | _ => p
  | .tuneA _ | .tuneB _ | .gammaPos | .gammaNeg => { p with tables := setCell (c.opc n).toNat as p.tables }

/-- The controller receives a data byte. -/
def Panel.recvData (c : Cfg) (dims : Nat × Nat) (b : Byte) (p : Panel) : Panel :=
  match p.bringup with
  | .uninit => p
  | .held => p
  | .ready =>
    match p.cmd.bind c.nameOf with
    | none => Panel.unknown
    | some n => Panel.onData c dims n (p.args ++ [b]) { p with args := p.args ++ [b] }

/-- The controller receives one tagged byte. -/
def Panel.recv (c : Cfg) (dims : Nat × Nat) (p : Panel) : WireByte → Panel
  | .c b => p.recvCmd c b
  | .d b => p.recvData c dims b

/-- The controller receives tagged bytes in order. -/
def Panel.recvAll (c : Cfg) (dims : Nat × Nat) (bytes : List WireByte) (p : Panel) : Panel :=
  bytes.foldl (Panel.recv c dims) p

/-- A failed transaction: any prefix of its bytes may have arrived (R14), and everything becomes any value (R68, U5).
After a failure inside INIT the controller is not initialised (R236); after another, an initialised one still is, because
R177, R207 and R246 let the caller repeat the operation (DESIGN CHOICE, log entry 8). -/
def Panel.failed (inInit : Bool) (p : Panel) : Panel :=
  { Panel.unknown with bringup := if inInit then .uninit else p.bringup }

/-- The reset line was driven to a level: registers and frame memory are unknown (R68, R243). An initialised controller
is held while the line is low and takes commands again when it is high (log entry 8). -/
def Panel.pinMoved (l : Level) (p : Panel) : Panel :=
  { Panel.unknown with
    bringup := match p.bringup, l with
      | .uninit, _ => .uninit
      | .held, .high => .ready
      | .held, .low => .held
      | .ready, .high => .ready
      | .ready, .low => .held }

/-- A pin set failed: the level is unknown (R145), so an initialised controller may be held; inside INIT it is not
initialised any more (R236). -/
def Panel.pinLost (inInit : Bool) (p : Panel) : Panel :=
  { Panel.unknown with
    bringup := if inInit then .uninit else match p.bringup with
      | .uninit => .uninit
      | .held => .held
      | .ready => .held }

end Sys2Proof.Machine
end

