-- ==== Sys2Proof/Machine/Operands.lean ====
section
/-! DEFINITION. Operand forms and primitives: how payload fields become DATA transactions (R82, R87), the primitives of
00_scope section 8 as data, the constants the source fixes, and the constant table of INIT (R147). -/

namespace Sys2Proof.Machine

/-- `T_SWRESET` = 150 ms in microseconds (R146, R250). -/
def tSwreset : Nat := 150000

/-- `T_DISPON` = 10 ms in microseconds (R146, R250). -/
def tDispon : Nat := 10000

/-- One primitive of an operation's list (00_scope section 8). -/
inductive Action where
  /-- `BusCmd(i)` -/
  | cmd (n : WireName)
  /-- `BusData(bs)`, one transaction -/
  | data (bs : List Byte)
  /-- `PinSet(l)` -/
  | pin (l : Level)
  /-- `Delay(n)`, microseconds -/
  | delay (us : Nat)
deriving DecidableEq, Repr

/-- Chunks of `n` bytes each; the last may be shorter. `n = 0`: one chunk. `fuel` bounds their number. -/
def chunksOf (n : Nat) : Nat → List Byte → List (List Byte)
  | 0, bs => [bs]
  | fuel + 1, bs =>
    if n = 0 ∨ bs.length ≤ n then [bs] else bs.take n :: chunksOf n fuel (bs.drop n)

/-- The payload cut into transactions: chunks of the sizes given, then of `rep` bytes each; at least one chunk, so that
an empty stream still makes one transaction (R82, D16). -/
def cutInto (rep : Nat) : List Nat → List Byte → List (List Byte)
  | [], bs => chunksOf rep bs.length bs
  | n :: ns, bs => if bs.length ≤ n then [bs] else bs.take n :: cutInto rep ns (bs.drop n)

/-- The sizes of a payload's first chunks: its own where the cutting lists it, else the format's. -/
def firstSizes (k : Cut) (bs : List Byte) : List Nat :=
  match k.special.find? fun e => e.1 == bs with
  | some e => e.2
  | none => k.first

/-- The DATA transactions of a payload under a cutting (`DATA_SPLIT`, R82). -/
def dataActs (k : Cut) (bs : List Byte) : List Action :=
  (cutInto k.rep (firstSizes k bs) bs).map .data

/-- The DATA transactions of a table payload: none when it is empty (R146, C7). -/
def tableActs (k : Cut) (bs : List Byte) : List Action :=
  if bs = [] then [] else dataActs k bs

/-- One step of `INIT_TABLE`: its name, its payload, its cutting. -/
structure InitStep where
  name    : WireName
  payload : List Byte
  cut     : Cut
deriving DecidableEq, Repr

/-- The steps of `INIT_TUNE_A` (R147). -/
def tuneASteps (c : Cfg) : List InitStep :=
  (List.range c.tuneA.length).map fun k => ⟨.tuneA k, c.tuneAPayload k, c.split.wt⟩

/-- The steps of `INIT_TUNE_B` (R147). -/
def tuneBSteps (c : Cfg) : List InitStep :=
  (List.range c.tuneB.length).map fun k => ⟨.tuneB k, c.tuneBPayload k, c.split.wt⟩

/-- `INIT_TABLE` (R147): its five groups in the order of the source's sentence. -/
def initTable (c : Cfg) : List InitStep :=
  [⟨.madctl, [c.initMadctl], c.split.w1⟩] ++ tuneASteps c ++ [⟨.colmod, [c.initColmod], c.split.w1⟩] ++ tuneBSteps c
    ++ [⟨.gammaPos, c.gammaPos, c.split.wt⟩, ⟨.gammaNeg, c.gammaNeg, c.split.wt⟩]

/-- One step of INIT's phase 2 (R146). -/
def initStepActs (t : InitStep) : List Action :=
  .cmd t.name :: tableActs t.cut t.payload

end Sys2Proof.Machine
end

