-- ==== Sys2Proof/Machine/Ops.lean ====
section
/-! DEFINITION. The named operations over the state: registers, the environment's answers, the four primitives of
00_scope section 8, the end of an operation by `return` and by `raise` (the block's one kind of exception, R203), and
the run of an event list (R30, R69). -/

namespace Sys2Proof.Machine

/-! ## Registers -/

/-- `HAS_RST`: a reset-pin handle is present (R20). -/
def Driver.hasRst (d : Driver) : Bool :=
  d.rst.isSome

/-- `(WIDTH, HEIGHT)` of the live Driver; no Driver, no extent. Read by the reference environment alone (R23, R61). -/
def State.dims (s : State) : Nat × Nat :=
  match s.life with
  | .live d => (d.width.toNat, d.height.toNat)
  | .absent | .released => (0, 0)

/-! ## The environment's answers (00_scope section 8) -/

/-- `ENV.bus()`: the scripted answer, else the free value at the oracle position. -/
def Env.busAnswer (e : Env) : BusAnswer :=
  match e.bus with
  | r :: _ => r
  | [] => Config.busAnswer e.busPos

/-- The oracle after one bus transaction. -/
def Env.afterBus (e : Env) : Env :=
  { e with bus := e.bus.tail, busPos := e.busPos + 1 }

/-- `ENV.pin()`: the scripted answer, else the free value at the oracle position. -/
def Env.pinAnswer (e : Env) : PinAnswer :=
  match e.pin with
  | r :: _ => r
  | [] => Config.pinAnswer e.pinPos

/-- The oracle after one pin set. -/
def Env.afterPin (e : Env) : Env :=
  { e with pin := e.pin.tail, pinPos := e.pinPos + 1 }

/-! ## The primitives -/

/-- The operation that runs is INIT. -/
def Seq.inInit : Seq → Bool
  | .idle => false
  | .running op _ =>
    match op with
    | .init _ => true
    | .swreset | .slpout | .dispon | .caset _ _ | .raset _ _ | .ramwr _ | .teoff | .teon _ | .madctl _ | .vscad _
    | .colmod _ | .tuneA _ | .tuneB _ | .gammaPos | .gammaNeg | .new _ _ _ _ | .hardReset _ | .orientation
    | .setOrientation _ | .setPixel _ _ _ | .setPixels _ _ _ _ _ | .setScrollOffset _ | .setTearingEffect _ | .release
    | .setAddressWindow _ _ _ _ => false

/-- What `RSTLINE` is after a successful set (R35). -/
def RstLine.ofLevel : Level → RstLine
  | .high => .high
  | .low => .low

/-- `BusCmd(i)`: one COMMAND transaction with the byte `OPC(i)`. -/
def State.busCmd (n : WireName) (s : State) : State × Option ErrKind :=
  match s.env.busAnswer with
  | .ok =>
    ({ s with
        env := s.env.afterBus
        trace := s.trace ++ [.cmd (s.cfg.opc n) .ok]
        panel := s.panel.recvCmd s.cfg (s.cfg.opc n) }, none)
  | .fail =>
    ({ s with
        env := s.env.afterBus
        trace := s.trace ++ [.cmd (s.cfg.opc n) .fail]
        panel := s.panel.failed s.seq.inInit }, some .transportError)

/-- `BusData(bs)`: one DATA transaction. -/
def State.busData (bs : List Byte) (s : State) : State × Option ErrKind :=
  match s.env.busAnswer with
  | .ok =>
    ({ s with
        env := s.env.afterBus
        trace := s.trace ++ [.data bs .ok]
        panel := s.panel.recvAll s.cfg s.dims (bs.map .d) }, none)
  | .fail =>
    ({ s with
        env := s.env.afterBus
        trace := s.trace ++ [.data bs .fail]
        panel := s.panel.failed s.seq.inInit }, some .transportError)

/-- `PinSet(l)`. A set makes the controller's state unknown, whether it takes effect or fails (R68, R145, U5). -/
def State.pinSet (l : Level) (s : State) : State × Option ErrKind :=
  match s.env.pinAnswer with
  | .ok =>
    ({ s with
        env := s.env.afterPin
        trace := s.trace ++ [.pin l .ok]
        rstLine := RstLine.ofLevel l
        panel := s.panel.pinMoved l }, none)
  | .fail e =>
    ({ s with
        env := s.env.afterPin
        trace := s.trace ++ [.pin l (.fail e)]
        rstLine := .unknown
        panel := s.panel.pinLost s.seq.inInit }, some (.pinError e))

/-- `Delay(n)`: recorded and otherwise inert; it cannot fail (R12, R250). -/
def State.pause (us : Nat) (s : State) : State × Option ErrKind :=
  ({ s with trace := s.trace ++ [.delay us] }, none)

/-- One primitive: the state after its event, and the error it raises, if any. -/
def attempt : Action → State → State × Option ErrKind
  | .cmd n, s => s.busCmd n
  | .data bs, s => s.busData bs
  | .pin l, s => s.pinSet l
  | .delay us, s => s.pause us

/-! ## Begin, advance, return, raise -/

/-- An operation begins: `SEQ = (op, 0)`, no response yet (R30). -/
def State.start (op : Instr) (s : State) : State :=
  { s with seq := .running op 0, resp := none }

/-- `SEQ` advances by one after an event that did not fail (R30). -/
def State.advance (s : State) : State :=
  match s.seq with
  | .running op k => { s with seq := .running op (k + 1) }
  | .idle => s

/-- `return v`: the operation ends with `Ok(v)`. -/
def State.respond (v : Value) (s : State) : State :=
  { s with seq := .idle, resp := some (.ok v) }

/-- TAKING AN ERROR (R203): `raise E` abandons the rest of the operation, `SEQ` returns to idle and `Err(E)` goes to the
caller. Nothing is saved, no mode changes, no vector is taken; the registers stay as they are (R205). There is no return
from it: recovery is a new operation (R207). -/
def State.raise (e : ErrKind) (s : State) : State :=
  { s with seq := .idle, resp := some (.err e) }

/-- The events of a list in order, each begun after the previous one was answered (R69); the first that fails ends the
operation (R203), else `done` ends it. -/
def runActs (done : State → State) : List Action → State → State
  | [], s => done s
  | a :: rest, s =>
    match attempt a s with
    | (s', none) => runActs done rest s'.advance
    | (s', some e) => s'.raise e

/-- A request that needs a live Driver (R24): refused while another runs (R9) and when not Live (R215); else its events
run in order. `plan` and `done` are given the registers as they are when the operation begins. -/
def State.request (op : Instr) (plan : Driver → List Action) (done : Driver → State → State) (s : State) :
    Host.Outcome State Fault Refusal :=
  match s.seq, s.life with
  | .running _ _, _ => .refused .busy
  | .idle, .live d => .next (runActs (done d) (plan d) (s.start op))
  | .idle, .absent => .refused .notAdmitted
  | .idle, .released => .refused .notAdmitted

/-- The end of an operation that writes no register and returns unit. -/
def returnUnit (_ : Driver) (s : State) : State :=
  s.respond .unit

end Sys2Proof.Machine
end

