-- ==== Sys2Proof/Machine/Wire.lean ====
section
/-! DEFINITION. The Instruction Set (40_wire_instructions.md). Emitting a member is `BusCmd(i)` and, where its format has
a payload, `BusData(payload)` (R110). Each row has its event list (`plan…`), which the host operations include, and its
meaning (`exec…`): the same list run on its own on a live block, as vectors V10 to V27 do. The response it leaves is the
step's: Ok, or the TransportError it raised (log entry 4). -/

namespace Sys2Proof.Machine

/-- R111, format W0. -/
def planSwreset : List Action :=
  [.cmd .swreset]

/-- R112, format W0. -/
def planSlpout : List Action :=
  [.cmd .slpout]

/-- R113, format W0. -/
def planDispon : List Action :=
  [.cmd .dispon]

/-- R114, format W4: `BusCmd(CASET); BusData(be16(sx)); BusData(be16(ex))` under the default cutting. -/
def planCaset (c : Cfg) (sx ex : Half) : List Action :=
  .cmd .caset :: dataActs c.split.w4 (be16 sx ++ be16 ex)

/-- R115, format W4. -/
def planRaset (c : Cfg) (sy ey : Half) : List Action :=
  .cmd .raset :: dataActs c.split.w4 (be16 sy ++ be16 ey)

/-- R116, format WS: one streamed payload, attempted even when it is empty (R178 a). -/
def planRamwr (c : Cfg) (colors : List Color) : List Action :=
  .cmd .ramwr :: dataActs c.split.ws (beStream colors)

/-- R119, format W0. -/
def planTeoff : List Action :=
  [.cmd .teoff]

/-- R120, format W1. -/
def planTeon (c : Cfg) (m : TeonMode) : List Action :=
  .cmd .teon :: dataActs c.split.w1 [teByte m]

/-- R117, format W1. -/
def planMadctl (c : Cfg) (p : Byte) : List Action :=
  .cmd .madctl :: dataActs c.split.w1 [p]

/-- R121, format W2. -/
def planVscad (c : Cfg) (offset : Half) : List Action :=
  .cmd .vscad :: dataActs c.split.w2 (be16 offset)

/-- R118, format W1. -/
def planColmod (c : Cfg) (p : Byte) : List Action :=
  .cmd .colmod :: dataActs c.split.w1 [p]

/-- R122, format WT; an empty table makes no DATA transaction (R81). -/
def planTuneA (c : Cfg) (k : Nat) : List Action :=
  .cmd (.tuneA k) :: tableActs c.split.wt (c.tuneAPayload k)

/-- R123, format WT. -/
def planTuneB (c : Cfg) (k : Nat) : List Action :=
  .cmd (.tuneB k) :: tableActs c.split.wt (c.tuneBPayload k)

/-- R124, format WT. -/
def planGammaPos (c : Cfg) : List Action :=
  .cmd .gammaPos :: tableActs c.split.wt c.gammaPos

/-- R125, format WT. -/
def planGammaNeg (c : Cfg) : List Action :=
  .cmd .gammaNeg :: tableActs c.split.wt c.gammaNeg

/-- SWRESET (R111). -/
def execSwreset (s : State) : Host.Outcome State Fault Refusal :=
  s.request .swreset (fun _ => planSwreset) returnUnit

/-- SLPOUT (R112). -/
def execSlpout (s : State) : Host.Outcome State Fault Refusal :=
  s.request .slpout (fun _ => planSlpout) returnUnit

/-- DISPON (R113). -/
def execDispon (s : State) : Host.Outcome State Fault Refusal :=
  s.request .dispon (fun _ => planDispon) returnUnit

/-- CASET (R114). -/
def execCaset (sx ex : Half) (s : State) : Host.Outcome State Fault Refusal :=
  s.request (.caset sx ex) (fun _ => planCaset s.cfg sx ex) returnUnit

/-- RASET (R115). -/
def execRaset (sy ey : Half) (s : State) : Host.Outcome State Fault Refusal :=
  s.request (.raset sy ey) (fun _ => planRaset s.cfg sy ey) returnUnit

/-- RAMWR (R116). -/
def execRamwr (colors : List Color) (s : State) : Host.Outcome State Fault Refusal :=
  s.request (.ramwr colors) (fun _ => planRamwr s.cfg colors) returnUnit

/-- TEOFF (R119). -/
def execTeoff (s : State) : Host.Outcome State Fault Refusal :=
  s.request .teoff (fun _ => planTeoff) returnUnit

/-- TEON (R120). -/
def execTeon (m : TeonMode) (s : State) : Host.Outcome State Fault Refusal :=
  s.request (.teon m) (fun _ => planTeon s.cfg m) returnUnit

/-- MADCTL (R117); a payload that is no value of its parameter is never emitted (R92). `ORIENT` is written by
SET_ORIENTATION alone, not by the step. -/
def execMadctl (p : Byte) (s : State) : Host.Outcome State Fault Refusal :=
  if (Instr.madctl p).wf s.cfg = true then s.request (.madctl p) (fun _ => planMadctl s.cfg p) returnUnit
  else .refused .payloadOutsideParameter

/-- VSCAD (R121). -/
def execVscad (offset : Half) (s : State) : Host.Outcome State Fault Refusal :=
  s.request (.vscad offset) (fun _ => planVscad s.cfg offset) returnUnit

/-- COLMOD (R118); a payload that is no value of its parameter is never emitted (R92). -/
def execColmod (p : Byte) (s : State) : Host.Outcome State Fault Refusal :=
  if (Instr.colmod p).wf s.cfg = true then s.request (.colmod p) (fun _ => planColmod s.cfg p) returnUnit
  else .refused .payloadOutsideParameter

/-- TUNE_A[k] (R122); no such step, no such name (R110). -/
def execTuneA (k : Nat) (s : State) : Host.Outcome State Fault Refusal :=
  if k < s.cfg.tuneA.length then s.request (.tuneA k) (fun _ => planTuneA s.cfg k) returnUnit
  else .refused .noSuchStep

/-- TUNE_B[k] (R123); no such step, no such name (R110). -/
def execTuneB (k : Nat) (s : State) : Host.Outcome State Fault Refusal :=
  if k < s.cfg.tuneB.length then s.request (.tuneB k) (fun _ => planTuneB s.cfg k) returnUnit
  else .refused .noSuchStep

/-- GAMMA_POS (R124). -/
def execGammaPos (s : State) : Host.Outcome State Fault Refusal :=
  s.request .gammaPos (fun _ => planGammaPos s.cfg) returnUnit

/-- GAMMA_NEG (R125). -/
def execGammaNeg (s : State) : Host.Outcome State Fault Refusal :=
  s.request .gammaNeg (fun _ => planGammaNeg s.cfg) returnUnit

end Sys2Proof.Machine
end

