-- ==== Sys2Proof/Machine/Bringup.lean ====
section
/-! DEFINITION. Construction, hard reset, initialization (41_construction_reset_init.md). -/

namespace Sys2Proof.Machine

/-- NEW's registers (R140). What was known of the reset line and of the controller is not known of the new Driver's
(R231, D25; log entry 9). -/
def State.construct (bus : BusHandle) (pin : Option PinHandle) (width height : Half) (s : State) : State :=
  { s with
    life := .live { bus := bus, rst := pin, width := width, height := height, orient := .portrait }
    rstLine := .unknown
    panel := Panel.unknown }

/-- The pulse of R143; nothing at all without a reset pin (R144). -/
def planHardReset (c : Cfg) (d : Driver) : List Action :=
  if d.hasRst then
    [.pin .high, .delay c.tRst1, .pin .low, .delay c.tRst2, .pin .high, .delay c.tRst3]
  else []

/-- INIT's list (R146): the whole of HARD_RESET, SWRESET and its settle time, `INIT_TABLE`, SLPOUT, DISPON and the final
settle time. -/
def planInit (c : Cfg) (d : Driver) : List Action :=
  planHardReset c d ++ (planSwreset ++ [.delay tSwreset]) ++ (initTable c).flatMap initStepActs
    ++ (planSlpout ++ planDispon ++ [.delay tDispon])

/-- The tagged bytes of INIT from SWRESET to DISPON (R151 a). -/
def initBytes (c : Cfg) : List WireByte :=
  stepBytes c .swreset [] ++ (initTable c).flatMap (fun t => stepBytes c t.name t.payload)
    ++ (stepBytes c .slpout [] ++ stepBytes c .dispon [])

/-- What is known of the controller once INIT has returned Ok: nothing before that (R236), and from then on what INIT's
bytes, all delivered, have written (R231). -/
def Panel.initDone (c : Cfg) (dims : Nat × Nat) : Panel :=
  { Panel.unknown with bringup := .ready }.recvAll c dims (initBytes c)

/-- INIT ends: no register of the block is written (R146, D15); the controller is initialised from here on (R236). -/
def doneInit (_ : Driver) (s : State) : State :=
  { s with panel := Panel.initDone s.cfg s.dims }.respond .unit

/-- NEW (R140): admitted when Absent or Released (R24); no event, no failure. -/
def execNew (bus : BusHandle) (pin : Option PinHandle) (width height : Half) (s : State) :
    Host.Outcome State Fault Refusal :=
  match s.seq, s.life with
  | .running _ _, _ => .refused .busy
  | .idle, .live _ => .refused .notAdmitted
  | .idle, .absent => .next ((s.construct bus pin width height).respond .unit)
  | .idle, .released => .next ((s.construct bus pin width height).respond .unit)

/-- HARD_RESET (R143 to R145). The delay provider serves this call only (R12). -/
def execHardReset (delay : DelayProvider) (s : State) : Host.Outcome State Fault Refusal :=
  s.request (.hardReset delay) (planHardReset s.cfg) returnUnit

/-- INIT (R146 to R151). -/
def execInit (delay : DelayProvider) (s : State) : Host.Outcome State Fault Refusal :=
  s.request (.init delay) (planInit s.cfg) doneInit

end Sys2Proof.Machine
end

