-- ==== Sys2Proof/Machine/Orient.lean ====
section
/-! DEFINITION. The orientation state machine (42_orientation.md). -/

namespace Sys2Proof.Machine

/-- ORIENTATION returns the block's register (R160). -/
def doneOrientation (d : Driver) (s : State) : State :=
  s.respond (.orientation d.orient)

/-- SET_ORIENTATION's list: the memory-access-control command and the pattern of `o` (R162). -/
def planSetOrientation (c : Cfg) (o : Orientation) : List Action :=
  planMadctl c (c.pattern o)

/-- `ORIENT <- o`, reached only when every transaction was answered ok (R162). -/
def doneSetOrientation (o : Orientation) (d : Driver) (s : State) : State :=
  { s with life := .live { d with orient := o } }.respond .unit

/-- ORIENTATION (R160): no event. -/
def execOrientation (s : State) : Host.Outcome State Fault Refusal :=
  s.request .orientation (fun _ => []) doneOrientation

/-- SET_ORIENTATION (R162 to R164). -/
def execSetOrientation (o : Orientation) (s : State) : Host.Outcome State Fault Refusal :=
  s.request (.setOrientation o) (fun _ => planSetOrientation s.cfg o) (doneSetOrientation o)

end Sys2Proof.Machine
end

