-- ==== Sys2Proof/Machine/Pixels.lean ====
section
/-! DEFINITION. The memory-window address calculator and the pixel writes (43_pixel_write_and_window.md). -/

namespace Sys2Proof.Machine

/-- SET_ADDRESS_WINDOW's list: operands in the order (sx, sy, ex, ey), bytes in the order (sx, ex, sy, ey) (R170). -/
def planSetAddressWindow (c : Cfg) (sx sy ex ey : Half) : List Action :=
  planCaset c sx ex ++ planRaset c sy ey

/-- SET_PIXELS' list: the window, then RAMWR with the colours in input order (R174). -/
def planSetPixels (c : Cfg) (sx sy ex ey : Half) (colors : List Color) : List Action :=
  planSetAddressWindow c sx sy ex ey ++ planRamwr c colors

/-- SET_PIXEL's list: the window of one coordinate, then RAMWR with one colour (R172). -/
def planSetPixel (c : Cfg) (x y : Half) (color : Color) : List Action :=
  planSetAddressWindow c x y x y ++ (.cmd .ramwr :: dataActs c.split.ws (be16 color))

/-- SET_ADDRESS_WINDOW (R170), the internal step run on its own (log entry 4). -/
def execSetAddressWindow (sx sy ex ey : Half) (s : State) : Host.Outcome State Fault Refusal :=
  s.request (.setAddressWindow sx sy ex ey) (fun _ => planSetAddressWindow s.cfg sx sy ex ey) returnUnit

/-- SET_PIXEL (R172). -/
def execSetPixel (x y : Half) (color : Color) (s : State) : Host.Outcome State Fault Refusal :=
  s.request (.setPixel x y color) (fun _ => planSetPixel s.cfg x y color) returnUnit

/-- SET_PIXELS (R174 to R178). -/
def execSetPixels (sx sy ex ey : Half) (colors : List Color) (s : State) : Host.Outcome State Fault Refusal :=
  s.request (.setPixels sx sy ex ey colors) (fun _ => planSetPixels s.cfg sx sy ex ey colors) returnUnit

end Sys2Proof.Machine
end

