-- ==== Sys2Proof/Machine/Relay.lean ====
section
/-! DEFINITION. Scroll offset, tearing effect, release (44_scroll_tearing_release.md). -/

namespace Sys2Proof.Machine

/-- SET_SCROLL_OFFSET's list (R185). -/
def planSetScrollOffset (c : Cfg) (offset : Half) : List Action :=
  planVscad c offset

/-- SET_TEARING_EFFECT's list (R187). -/
def planSetTearingEffect (c : Cfg) : TeMode → List Action
  | .off => planTeoff
  | .vertical => planTeon c .vertical
  | .horizontalAndVertical => planTeon c .horizontalAndVertical

/-- `LIFE <- Released`; the handles go back to the caller and the registers are gone (R189). -/
def doneRelease (d : Driver) (s : State) : State :=
  { s with life := .released }.respond (.handles d.bus d.rst)

/-- SET_SCROLL_OFFSET (R185): the offset is not stored. -/
def execSetScrollOffset (offset : Half) (s : State) : Host.Outcome State Fault Refusal :=
  s.request (.setScrollOffset offset) (fun _ => planSetScrollOffset s.cfg offset) returnUnit

/-- SET_TEARING_EFFECT (R187, R188): a stateless relay. -/
def execSetTearingEffect (m : TeMode) (s : State) : Host.Outcome State Fault Refusal :=
  s.request (.setTearingEffect m) (fun _ => planSetTearingEffect s.cfg m) returnUnit

/-- RELEASE (R189): no event. -/
def execRelease (s : State) : Host.Outcome State Fault Refusal :=
  s.request .release (fun _ => []) doneRelease

end Sys2Proof.Machine
end

