-- ==== Sys2Proof/Machine/Sequencer.lean ====
section
/-! DEFINITION. The sequencer one event at a time (R30): the next event is a function of `SEQ` and the registers. `exec`
runs an operation to its response in one step (R31); from a state in the middle of an operation, `step` makes that
operation's next event. -/

namespace Sys2Proof.Machine

/-- The event list of an operation, unrolled (R30). NEW has no Driver yet and no event. -/
def planOf (c : Cfg) (d : Driver) : Instr → List Action
  | .swreset => planSwreset
  | .slpout => planSlpout
  | .dispon => planDispon
  | .caset sx ex => planCaset c sx ex
  | .raset sy ey => planRaset c sy ey
  | .ramwr colors => planRamwr c colors
  | .teoff => planTeoff
  | .teon m => planTeon c m
  | .madctl p => planMadctl c p
  | .vscad offset => planVscad c offset
  | .colmod p => planColmod c p
  | .tuneA k => planTuneA c k
  | .tuneB k => planTuneB c k
  | .gammaPos => planGammaPos c
  | .gammaNeg => planGammaNeg c
  | .new _ _ _ _ => []
  | .hardReset _ => planHardReset c d
  | .init _ => planInit c d
  | .orientation => []
  | .setOrientation o => planSetOrientation c o
  | .setPixel x y color => planSetPixel c x y color
  | .setPixels sx sy ex ey colors => planSetPixels c sx sy ex ey colors
  | .setScrollOffset offset => planSetScrollOffset c offset
  | .setTearingEffect m => planSetTearingEffect c m
  | .release => []
  | .setAddressWindow sx sy ex ey => planSetAddressWindow c sx sy ex ey

/-- How an operation ends when no event failed. -/
def doneOf (d : Driver) : Instr → State → State
  | .init _ => doneInit d
  | .orientation => doneOrientation d
  | .setOrientation o => doneSetOrientation o d
  | .release => doneRelease d
  | .swreset | .slpout | .dispon | .caset _ _ | .raset _ _ | .ramwr _ | .teoff | .teon _ | .madctl _ | .vscad _
  | .colmod _ | .tuneA _ | .tuneB _ | .gammaPos | .gammaNeg | .new _ _ _ _ | .hardReset _ | .setPixel _ _ _
  | .setPixels _ _ _ _ _ | .setScrollOffset _ | .setTearingEffect _ | .setAddressWindow _ _ _ _ => returnUnit d

/-- The next event of the operation that runs: `SEQ` advances after it, returns to idle after the last one, and returns
to idle with the error when it fails (R30, R203). -/
def State.continue (op : Instr) (k : Nat) (s : State) : Host.Outcome State Fault Refusal :=
  match s.life with
  | .absent => .fault .sequencerAdrift
  | .released => .fault .sequencerAdrift
  | .live d =>
    match (planOf s.cfg d op)[k]? with
    | none => .fault .sequencerAdrift
    | some a =>
      match attempt a s with
      | (s', some e) => .next (s'.raise e)
      | (s', none) =>
        if k + 1 < (planOf s.cfg d op).length then .next s'.advance else .next (doneOf d op s'.advance)

end Sys2Proof.Machine
end

