-- ==== Sys2Proof/Machine/Dispatch.lean ====
section
/-! DEFINITION. One arm for each constructor of `Instr`. -/

namespace Sys2Proof.Machine

-- The step's outcome for one instruction.
def exec (i : Instr) (s : State) : Host.Outcome State Fault Refusal :=
  match i with
  -- wire instructions (40_wire_instructions.md)
  | .swreset => Sys2Proof.Machine.execSwreset s
  | .slpout => Sys2Proof.Machine.execSlpout s
  | .dispon => Sys2Proof.Machine.execDispon s
  | .caset sx ex => Sys2Proof.Machine.execCaset sx ex s
  | .raset sy ey => Sys2Proof.Machine.execRaset sy ey s
  | .ramwr colors => Sys2Proof.Machine.execRamwr colors s
  | .teoff => Sys2Proof.Machine.execTeoff s
  | .teon m => Sys2Proof.Machine.execTeon m s
  | .madctl p => Sys2Proof.Machine.execMadctl p s
  | .vscad offset => Sys2Proof.Machine.execVscad offset s
  | .colmod p => Sys2Proof.Machine.execColmod p s
  | .tuneA k => Sys2Proof.Machine.execTuneA k s
  | .tuneB k => Sys2Proof.Machine.execTuneB k s
  | .gammaPos => Sys2Proof.Machine.execGammaPos s
  | .gammaNeg => Sys2Proof.Machine.execGammaNeg s
  -- host operations (files 41 to 44)
  | .new bus pin width height => Sys2Proof.Machine.execNew bus pin width height s
  | .hardReset delay => Sys2Proof.Machine.execHardReset delay s
  | .init delay => Sys2Proof.Machine.execInit delay s
  | .orientation => Sys2Proof.Machine.execOrientation s
  | .setOrientation o => Sys2Proof.Machine.execSetOrientation o s
  | .setPixel x y color => Sys2Proof.Machine.execSetPixel x y color s
  | .setPixels sx sy ex ey colors => Sys2Proof.Machine.execSetPixels sx sy ex ey colors s
  | .setScrollOffset offset => Sys2Proof.Machine.execSetScrollOffset offset s
  | .setTearingEffect m => Sys2Proof.Machine.execSetTearingEffect m s
  | .release => Sys2Proof.Machine.execRelease s
  -- the internal step (43_pixel_write_and_window.md)
  | .setAddressWindow sx sy ex ey => Sys2Proof.Machine.execSetAddressWindow sx sy ex ey s

end Sys2Proof.Machine
end

