-- ==== Sys2Proof/Machine/Fetch.lean ====
section
/-! DEFINITION. What the host's placement of one instruction takes (log entry 6): the frame of a table word, and a value
of `LIFE` that admits it. -/

namespace Sys2Proof.Machine

/-- The Driver that a placed word runs on where none is Live: as NEW leaves it, with a reset pin. -/
def placedDriver : Driver :=
  { bus := ⟨0⟩, rst := some ⟨0⟩, width := 320, height := 240, orient := .portrait }

/-- A value of `LIFE` in which the decoded instruction is admitted (R24): NEW needs a block that is not Live, every other
row one that is. A value that admits it already is left alone. -/
def lifeFor (r : Except Reject Instr) (l : Life) : Life :=
  match r, l with
  | .ok (.new _ _ _ _), .live _ => .absent
  | .ok (.new _ _ _ _), l => l
  | .ok _, .live d => .live d
  | .ok _, .absent => .live placedDriver
  | .ok _, .released => .live placedDriver
  | .error _, l => l

end Sys2Proof.Machine
end

