-- ==== Sys2Proof/Machine/Step.lean ====
section
/-! DEFINITION. One step of the machine. -/

namespace Sys2Proof.Machine

/-- Idle, the block takes the next request at the host port (R9) and runs it to its response (R31); with no request it
does nothing (R7). In the middle of an operation it makes that operation's next event (R30). A protocol step placed beside
the port from outside comes first (log entry 4). -/
def step (s : State) : Host.Outcome State Fault Refusal :=
  match s.seq with
  | .running op k => s.continue op k
  | .idle =>
    match s.placed, s.port with
    | some bytes, _ =>
      match decode s.cfg (.wire bytes) with
      | .error r => .refused (.badRequest r)
      | .ok i => exec i { s with placed := none }
    | none, [] => .next s
    | none, r :: rest =>
      match decode s.cfg (.host r.bits r.side) with
      | .error e => .refused (.badRequest e)
      | .ok i => exec i { s with port := rest }

/-- The word of a table row placed where `step` fetches next, with no operation running and `LIFE` admitting it: a request
at the head of the host port, a protocol step beside it, under the configuration of the word (log entry 6). -/
def State.withFetchWord (s : State) (nbits w : Nat) : State :=
  let c := s.cfg.forTableWord nbits w
  let f := frameOfTableWord c nbits w
  { s with
    cfg := c
    port := match f with
      | .host bits side => ⟨bits, side⟩ :: s.port
      | .wire _ => s.port
    placed := match f with
      | .host _ _ => none
      | .wire bytes => some bytes
    seq := .idle
    life := lifeFor (decode c f) s.life }

end Sys2Proof.Machine
end

