-- ==== Sys2Proof/Safety.lean ====
section
/-! DEFINITION. The terms the statements use: the wire view (R14), the environment's answers to a list of events, the
state after a list every event of which was answered ok, and what a safe run is. -/

namespace Sys2Proof.Machine

/-! ## The observation -/

/-- The tagged bytes of one event: those of a transaction answered ok (R14). -/
def Event.wire : Event → List WireByte
  | .cmd b .ok => [.c b]
  | .data bs .ok => bs.map .d
  | .cmd _ .fail => []
  | .data _ .fail => []
  | .pin _ _ => []
  | .delay _ => []

/-- The wire view of a trace (R14). -/
def wireView (t : List Event) : List WireByte :=
  t.flatMap Event.wire

/-- The event is a bus transaction. -/
def Event.isBus : Event → Bool
  | .cmd _ _ => true
  | .data _ _ => true
  | .pin _ _ => false
  | .delay _ => false

/-- The microseconds a DELAY event asks for. -/
def Event.delayUs : Event → Option Nat
  | .delay us => some us
  | .cmd _ _ => none
  | .data _ _ => none
  | .pin _ _ => none

/-- The event was answered `fail`. -/
def Event.isFail : Event → Bool
  | .cmd _ .fail => true
  | .data _ .fail => true
  | .pin _ (.fail _) => true
  | .cmd _ .ok => false
  | .data _ .ok => false
  | .pin _ .ok => false
  | .delay _ => false

/-! ## Event lists and their answers -/

/-- The event of a primitive that was answered ok. -/
def Action.okEvent (c : Cfg) : Action → Event
  | .cmd n => .cmd (c.opc n) .ok
  | .data bs => .data bs .ok
  | .pin l => .pin l .ok
  | .delay us => .delay us

/-- The events of a list every event of which was answered ok. -/
def okEvents (c : Cfg) (acts : List Action) : List Event :=
  acts.map (Action.okEvent c)

/-- The oracle after one event. -/
def Env.after (e : Env) : Action → Env
  | .cmd _ => e.afterBus
  | .data _ => e.afterBus
  | .pin _ => e.afterPin
  | .delay _ => e

/-- The event recorded for a primitive attempted at this point of the oracle. -/
def Action.event (c : Cfg) (e : Env) : Action → Event
  | .cmd n => .cmd (c.opc n) e.busAnswer
  | .data bs => .data bs e.busAnswer
  | .pin l => .pin l e.pinAnswer
  | .delay us => .delay us

/-- The error a primitive raises at this point of the oracle, if any (R200): the transport's failure carries nothing, the
pin's carries its own value, a delay cannot fail (R12). -/
def Env.error (e : Env) : Action → Option ErrKind
  | .cmd _ => if e.busAnswer = .ok then none else some .transportError
  | .data _ => if e.busAnswer = .ok then none else some .transportError
  | .pin _ =>
    match e.pinAnswer with
    | .ok => none
    | .fail v => some (.pinError v)
  | .delay _ => none

/-- The environment answers ok to one event. -/
def Env.saysOk (e : Env) : Action → Bool
  | .cmd _ => e.busAnswer == .ok
  | .data _ => e.busAnswer == .ok
  | .pin _ => e.pinAnswer == .ok
  | .delay _ => true

/-- The environment answers ok to every event of a list. -/
def Env.allOk : List Action → Env → Bool
  | [], _ => true
  | a :: rest, e => e.saysOk a && Env.allOk rest (e.after a)

/-- The oracle after a list of events. -/
def Env.afterAll (acts : List Action) (e : Env) : Env :=
  acts.foldl Env.after e

/-- The reset line after the events of a list, all answered ok: the level last driven, else as it was (R35). -/
def lineAfter (acts : List Action) (r : RstLine) : RstLine :=
  acts.foldl (fun r a => match a with
    | .pin l => RstLine.ofLevel l
    | .cmd _ | .data _ | .delay _ => r) r

/-! ## What an operation of bus transactions leaves -/

/-- `t` differs from `s` by the transactions of a list, all answered ok, and by what the controller did with their bytes:
the configuration, the requests still to come, what is placed and the reset line are as they were, no operation runs.
`LIFE` with its registers and the response are for the statement to say. -/
def Emitted (acts : List Action) (s t : State) : Prop :=
  t.cfg = s.cfg ∧ t.port = s.port ∧ t.placed = s.placed ∧ t.seq = .idle ∧ t.rstLine = s.rstLine
    ∧ t.trace = s.trace ++ okEvents s.cfg acts
    ∧ t.env = s.env.afterAll acts
    ∧ t.panel = s.panel.recvAll s.cfg s.dims (wireView (okEvents s.cfg acts))

/-! ## Safe states and runs -/

/-- No operation runs and the Driver with these registers is Live: the block admits every request but NEW (R24). -/
def LiveIdle (s : State) (d : Driver) : Prop :=
  s.seq = .idle ∧ s.life = .live d

/-- The instruction is NEW, the one request admitted when the block is not Live (R24). -/
def isNew : Instr → Bool
  | .new _ _ _ _ => true
  | .swreset | .slpout | .dispon | .caset _ _ | .raset _ _ | .ramwr _ | .teoff | .teon _ | .madctl _ | .vscad _
  | .colmod _ | .tuneA _ | .tuneB _ | .gammaPos | .gammaNeg | .hardReset _ | .init _ | .orientation
  | .setOrientation _ | .setPixel _ _ _ | .setPixels _ _ _ _ _ | .setScrollOffset _ | .setTearingEffect _ | .release
  | .setAddressWindow _ _ _ _ => false

/-- The instruction is a member of the Instruction Set (R110). -/
def isWire : Instr → Bool
  | .swreset | .slpout | .dispon | .caset _ _ | .raset _ _ | .ramwr _ | .teoff | .teon _ | .madctl _ | .vscad _
  | .colmod _ | .tuneA _ | .tuneB _ | .gammaPos | .gammaNeg => true
  | .new _ _ _ _ | .hardReset _ | .init _ | .orientation | .setOrientation _ | .setPixel _ _ _
  | .setPixels _ _ _ _ _ | .setScrollOffset _ | .setTearingEffect _ | .release | .setAddressWindow _ _ _ _ => false

/-- The tagged bytes of a frame of protocol steps. -/
def frameBytes : Frame → List WireByte
  | .wire bs => bs
  | .host _ _ => []

/-- The instruction is a host operation (R100). -/
def isHostOp : Instr → Bool
  | .new _ _ _ _ | .hardReset _ | .init _ | .orientation | .setOrientation _ | .setPixel _ _ _
  | .setPixels _ _ _ _ _ | .setScrollOffset _ | .setTearingEffect _ | .release => true
  | .swreset | .slpout | .dispon | .caset _ _ | .raset _ _ | .ramwr _ | .teoff | .teon _ | .madctl _ | .vscad _
  | .colmod _ | .tuneA _ | .tuneB _ | .gammaPos | .gammaNeg | .setAddressWindow _ _ _ _ => false

/-- The known contents of the controller are in canonical form; a controller that is not initialised, or that the reset
line may hold, has nothing known. -/
def Panel.Canonical (p : Panel) : Prop :=
  cellsWf p.fm ∧ cellsWf p.tables ∧ (p.bringup ≠ .ready → p = p.forget)

/-- `SEQ` names an event of an operation that a live Driver runs (R30). -/
def SeqInPlan (s : State) : Prop :=
  match s.seq, s.life with
  | .idle, _ => True
  | .running op k, .live d => k < (planOf s.cfg d op).length ∧ s.resp = none
  | .running _ _, .absent => False
  | .running _ _, .released => False

/-- The invariant every step keeps: the controller's known contents are canonical, and `SEQ` lies in its list. -/
def Inv (s : State) : Prop :=
  s.panel.Canonical ∧ SeqInPlan s

/-- The controller is known to hold the orientation the block reports (R22, R243, U10). -/
def Agree (s : State) : Prop :=
  ∃ d, s.life = .live d ∧ s.panel.madctl = some (s.cfg.pattern d.orient)

end Sys2Proof.Machine
end

