-- ==== Sys2Proof/Certificates/Slice0/Obligations.lean ====
section
/-! DEFINITION. The statements for the provers. Each docstring names the rules of spec/ it formalises; OBLIGATIONS.json
gives its tier and its basis. Where a list of primitives stands in a statement, the statement holds for every cutting of
payloads (`DATA_SPLIT`), and the tagged bytes beside it are what the rule gives. -/

open Sys2Proof Sys2Proof.Machine

/-! ## Encoding -/

/-- R52, R87: a 16-bit value goes out as its high byte, then its low byte, and `first*256 + second` gives it back. -/
def Obligations.SixteenBitFieldsAreBigEndian : Prop :=
  ∀ v : Half, ∃ h l : Byte, be16 v = [h, l] ∧ h.toNat = v.toNat / 256 ∧ l.toNat = v.toNat % 256 ∧ ofBe h l = v

/-- R81, R88, R95, on words written out by hand from the formats with the default bytes (log entry 1). -/
def Obligations.WrittenOutWordsDecode : Prop :=
  decode Cfg.cfg0 (.wire [.c 0x01]) = .ok .swreset ∧
  decode Cfg.cfg0 (.wire [.c 0x2A, .d 0x01, .d 0x02, .d 0xFF, .d 0xFE]) = .ok (.caset 0x0102 0xFFFE) ∧
  decode Cfg.cfg0 (.wire [.c 0x2C, .d 0x07, .d 0xE0, .d 0x00, .d 0x1F]) = .ok (.ramwr [0x07E0, 0x001F]) ∧
  decode Cfg.cfg0 (.wire [.c 0x35, .d 0x01]) = .ok (.teon .horizontalAndVertical) ∧
  decode Cfg.cfg0 (.wire [.c 0x37, .d 0x01, .d 0x40]) = .ok (.vscad 320) ∧
  decode Cfg.cfg0 (.wire [.c 0xD0, .d 0xA4, .d 0xA1]) = .ok (.tuneB 7) ∧
  decode Cfg.cfg0 (.host [false, true, false, false, false, true] Side.idle) = .ok (.setOrientation .landscape) ∧
  decode Cfg.cfg0 (.host [true, false, false, false, true, false] Side.idle)
    = .ok (.setTearingEffect .horizontalAndVertical)

/-- R80 to R87, R95: for every configuration that meets its constraints, decoding the encoding of a well-formed
instruction gives it back, with every operand at every value. -/
def Obligations.DecodeOfEncodeIsTheInstruction : Prop :=
  ∀ (c : Cfg) (i : Instr), c.wf = true → i.wf c = true → decode c (encode c i) = .ok i

/-- R80 to R87, R92, R95: a frame that decodes is the encoding of what it decodes to, the tagged bytes of a wire frame and
the bits of a request; and what it decodes to is well formed, its one-byte payload a value of its parameter (R92). -/
def Obligations.EncodeOfDecodeIsTheFrame : Prop :=
  ∀ (c : Cfg) (i : Instr),
    (∀ bytes, decode c (.wire bytes) = .ok i → encode c i = .wire bytes ∧ i.wf c = true) ∧
    (∀ bits side, decode c (.host bits side) = .ok i → (∃ side', encode c i = .host bits side') ∧ i.wf c = true)

/-- R80, R97: the tagged bytes of any sequence of wire instructions split back into exactly those instructions; nothing
but the next command byte ends a payload. -/
def Obligations.WireViewSplitsIntoItsInstructions : Prop :=
  ∀ (c : Cfg) (is : List Instr), c.wf = true → (∀ i ∈ is, isWire i = true ∧ i.wf c = true) →
    decodeStream c (is.flatMap fun i => frameBytes (encode c i)) = .ok is

/-- R96: a request with a reserved `OPSEL`, or SET_TEARING_EFFECT with mode code 3, is refused. -/
def Obligations.ReservedRequestCodesAreRefused : Prop :=
  ∀ (s : State) (bits : List Bool) (side : Side) (rest : List Request),
    s.seq = .idle → s.placed = none → s.port = ⟨bits, side⟩ :: rest →
    (4 ≤ bits.length → 0xA ≤ ofMsbBits (bits.take 4) → step s = .refused (.badRequest .reservedOpsel)) ∧
    (bits = [true, false, false, false, true, true] → step s = .refused (.badRequest .reservedTearingMode))

/-! ## The step -/

/-- When the request at the head of the host port decodes, an idle block's step takes it from the port and is `exec` of
the instruction (R9, R31); so is the step on a protocol step placed beside the port. The port as a list of offered
requests, and the placing, are the model's (log entries 4, 6). -/
def Obligations.StepRunsTheDecodedRequest : Prop :=
  ∀ (s : State) (i : Instr), s.seq = .idle →
    (∀ r rest, s.placed = none → s.port = r :: rest → decode s.cfg (.host r.bits r.side) = .ok i →
      step s = exec i { s with port := rest }) ∧
    (∀ bytes, s.placed = some bytes → decode s.cfg (.wire bytes) = .ok i → step s = exec i { s with placed := none })

/-- R7: between two host operations the block does nothing and its state does not change. -/
def Obligations.IdleBlockWithoutARequestDoesNothing : Prop :=
  ∀ s : State, s.seq = .idle → s.placed = none → s.port = [] → step s = .next s

/-- R230, R231, R232 (a): at block reset `LIFE` is Absent and the sequencer idle; nothing outside the block is known. The
empty trace, the absent response, the empty port and that nothing is placed are the model's (log entry 10). -/
def Obligations.ResetIsAbsentIdleAndUnknown : Prop :=
  State.reset.life = .absent ∧ State.reset.seq = .idle ∧ State.reset.resp = none ∧ State.reset.trace = [] ∧
    State.reset.port = [] ∧ State.reset.placed = none ∧
    State.reset.rstLine = .unknown ∧ State.reset.panel = Panel.unknown

/-! ## Admission -/

/-- R24, R215: NEW is refused when Live; every other request is refused when not Live. -/
def Obligations.RequestsOutsideTheirLifecycleAreRefused : Prop :=
  ∀ s : State, s.seq = .idle →
    (∀ bus pin w h d, s.life = .live d → exec (.new bus pin w h) s = .refused .notAdmitted) ∧
    (∀ i, isNew i = false → i.wf s.cfg = true → (∀ d, s.life ≠ .live d) → exec i s = .refused .notAdmitted)

/-- R9, R222: a second request while one is running is refused. -/
def Obligations.SecondRequestWhileRunningIsRefused : Prop :=
  ∀ (s : State) (op : Instr) (k : Nat) (i : Instr),
    s.seq = .running op k → i.wf s.cfg = true → exec i s = .refused .busy

/-- A tuning name past the end of its list is no member of the Instruction Set (R110); that the model refuses to run it, and
the refusal's name, are the model's choice (log entry 4). -/
def Obligations.TuningNamesPastTheListAreRefused : Prop :=
  ∀ (s : State) (k : Nat),
    (s.cfg.tuneA.length ≤ k → exec (.tuneA k) s = .refused .noSuchStep) ∧
    (s.cfg.tuneB.length ≤ k → exec (.tuneB k) s = .refused .noSuchStep)

/-- R24, R31, R236: on a live idle block every request but NEW is admitted, initialised or not, and ends with a response,
back in idle; the configuration, the requests still to come and what is placed are untouched. -/
def Obligations.EveryAdmittedRequestEndsWithAResponse : Prop :=
  ∀ (s : State) (d : Driver) (i : Instr), LiveIdle s d → isNew i = false → i.wf s.cfg = true →
    ∃ t, exec i s = .next t ∧ t.seq = .idle ∧ t.resp ≠ none ∧ t.cfg = s.cfg ∧ t.port = s.port ∧ t.placed = s.placed

/-! ## Construction, hard reset, initialization -/

/-- R140: NEW stores its operands, sets Portrait, makes the block Live and touches neither bus nor pin. -/
def Obligations.NewConstructsThePortraitDriver : Prop :=
  ∀ (s : State) (bus : BusHandle) (pin : Option PinHandle) (width height : Half),
    s.seq = .idle → (s.life = .absent ∨ s.life = .released) →
    ∃ t, exec (.new bus pin width height) s = .next t ∧
      t.life = .live { bus := bus, rst := pin, width := width, height := height, orient := .portrait } ∧
      t.resp = some (.ok .unit) ∧ t.seq = .idle ∧ t.trace = s.trace ∧ t.env = s.env ∧ t.cfg = s.cfg ∧ t.port = s.port ∧
      t.placed = s.placed

/-- R143: with a reset pin, HARD_RESET drives it high, low, high with its three waits; no register of the block changes
and the line ends High. -/
def Obligations.HardResetPulsesThePin : Prop :=
  ∀ (s : State) (d : Driver) (p : PinHandle) (delay : DelayProvider), LiveIdle s d → d.rst = some p →
    let acts : List Action := [.pin .high, .delay s.cfg.tRst1, .pin .low, .delay s.cfg.tRst2, .pin .high, .delay s.cfg.tRst3]
    s.env.allOk acts = true →
    ∃ t, exec (.hardReset delay) s = .next t ∧ t.life = s.life ∧ t.resp = some (.ok .unit) ∧ t.seq = .idle ∧
      t.trace = s.trace ++ [.pin .high .ok, .delay s.cfg.tRst1, .pin .low .ok, .delay s.cfg.tRst2, .pin .high .ok,
        .delay s.cfg.tRst3] ∧
      t.rstLine = .high ∧ t.env = s.env.afterAll acts ∧ t.cfg = s.cfg ∧ t.port = s.port ∧ t.placed = s.placed

/-- R231, D25, R68, on the model's terms (log entries 8 and 9): NEW knows neither the reset line nor the controller, and a
reset pulse makes everything of the controller unknown; one that an INIT has brought up takes commands again after it, one
that no INIT has brought up stays uninitialised (R236, R243; log entry 8). -/
def Obligations.NewAndTheResetPulseForgetTheController : Prop :=
  ∀ s : State,
    (∀ bus pin w h, s.seq = .idle → (s.life = .absent ∨ s.life = .released) →
      ∃ t, exec (.new bus pin w h) s = .next t ∧ t.rstLine = .unknown ∧ t.panel = Panel.unknown) ∧
    (∀ d p delay, LiveIdle s d → d.rst = some p → s.env.allOk (planOf s.cfg d (.hardReset delay)) = true →
      ∃ t, exec (.hardReset delay) s = .next t ∧
        t.panel = { Panel.unknown with bringup := if s.panel.bringup = .uninit then .uninit else .ready })

/-- R144: without a reset pin HARD_RESET is a no-op that still succeeds: only the response is new. -/
def Obligations.HardResetWithoutAPinIsANoOp : Prop :=
  ∀ (s : State) (d : Driver) (delay : DelayProvider), LiveIdle s d → d.rst = none →
    exec (.hardReset delay) s = .next { s with resp := some (.ok .unit) }

/-- R145: the first pin set that fails ends HARD_RESET with its own value; no later set or delay is performed, and the
line is unknown. -/
def Obligations.HardResetStopsAtTheFailedPinSet : Prop :=
  ∀ (s : State) (d : Driver) (p : PinHandle) (delay : DelayProvider) (pre post : List Action) (a : Action) (e : ErrKind),
    LiveIdle s d → d.rst = some p →
    ([.pin .high, .delay s.cfg.tRst1, .pin .low, .delay s.cfg.tRst2, .pin .high, .delay s.cfg.tRst3] : List Action)
      = pre ++ a :: post →
    s.env.allOk pre = true → (s.env.afterAll pre).error a = some e →
    ∃ t l v, exec (.hardReset delay) s = .next t ∧ a = .pin l ∧ e = .pinError v ∧ t.resp = some (.err (.pinError v)) ∧
      t.trace = s.trace ++ okEvents s.cfg pre ++ [.pin l (.fail v)] ∧ t.rstLine = .unknown ∧ t.life = s.life ∧
      t.seq = .idle ∧ t.cfg = s.cfg ∧ t.port = s.port ∧ t.placed = s.placed

/-- R146, R147, R150: INIT emits the pulse (with a reset pin only), SWRESET, 150 ms, the five groups of `INIT_TABLE` in
order, SLPOUT, DISPON, 10 ms; it writes no register of the block. -/
def Obligations.InitEmitsItsWholeSequenceInOrder : Prop :=
  ∀ (s : State) (d : Driver) (delay : DelayProvider), LiveIdle s d →
    let c := s.cfg
    let pulse : List Action :=
      if d.rst.isSome then [.pin .high, .delay c.tRst1, .pin .low, .delay c.tRst2, .pin .high, .delay c.tRst3] else []
    let acts : List Action := pulse ++ [.cmd .swreset, .delay 150000]
      ++ (.cmd .madctl :: tableActs c.split.w1 [c.initMadctl])
      ++ (List.range c.tuneA.length).flatMap (fun k => .cmd (.tuneA k) :: tableActs c.split.wt (c.tuneAPayload k))
      ++ (.cmd .colmod :: tableActs c.split.w1 [c.initColmod])
      ++ (List.range c.tuneB.length).flatMap (fun k => .cmd (.tuneB k) :: tableActs c.split.wt (c.tuneBPayload k))
      ++ (.cmd .gammaPos :: tableActs c.split.wt c.gammaPos) ++ (.cmd .gammaNeg :: tableActs c.split.wt c.gammaNeg)
      ++ [.cmd .slpout, .cmd .dispon, .delay 10000]
    s.env.allOk acts = true →
    ∃ t, exec (.init delay) s = .next t ∧ t.life = s.life ∧ t.resp = some (.ok .unit) ∧ t.seq = .idle ∧
      t.trace = s.trace ++ okEvents c acts ∧
      wireView t.trace = wireView s.trace ++ ([.c c.opcodes.swreset, .c c.opcodes.madctl, .d c.initMadctl]
        ++ c.tuneA.flatMap (fun u => .c u.opcode :: u.payload.map .d)
        ++ [.c c.opcodes.colmod, .d c.initColmod]
        ++ c.tuneB.flatMap (fun u => .c u.opcode :: u.payload.map .d)
        ++ (.c c.opcodes.gammaPos :: c.gammaPos.map .d) ++ (.c c.opcodes.gammaNeg :: c.gammaNeg.map .d)
        ++ [.c c.opcodes.slpout, .c c.opcodes.dispon]) ∧
      t.rstLine = (if d.rst.isSome then .high else s.rstLine) ∧ t.env = s.env.afterAll acts ∧ t.cfg = c ∧
      t.port = s.port ∧ t.placed = s.placed

/-- R150: the number of events and of bus transactions of a successful INIT under the default cutting, when every step
has a payload. -/
def Obligations.InitEventCount : Prop :=
  ∀ (s : State) (d : Driver) (delay : DelayProvider), LiveIdle s d → s.cfg.split = DataSplit.standard →
    (∀ u ∈ s.cfg.tuneA, u.payload ≠ []) → (∀ u ∈ s.cfg.tuneB, u.payload ≠ []) → s.cfg.gammaPos ≠ [] → s.cfg.gammaNeg ≠ [] →
    s.env.allOk (planOf s.cfg d (.init delay)) = true →
    ∃ t new, exec (.init delay) s = .next t ∧ t.trace = s.trace ++ new ∧
      new.length = 6 * (if d.rst.isSome then 1 else 0) + 2 + 2 * (4 + s.cfg.tuneA.length + s.cfg.tuneB.length) + 2 + 1 ∧
      (new.filter Event.isBus).length = 3 + 2 * (4 + s.cfg.tuneA.length + s.cfg.tuneB.length)

/-! ## Errors -/

/-- R203, R204, R205: when the environment first fails at some event of an operation's list, that event is the operation's
last, the events before it are those of the list, the response is the error, and no register of the block changes. The
reset line is unknown after a failed pin set (R145) and at the level last driven after a failed transaction (R35). -/
def Obligations.FirstFailureEndsTheOperation : Prop :=
  ∀ (s : State) (d : Driver) (i : Instr) (pre post : List Action) (a : Action) (e : ErrKind),
    LiveIdle s d → isNew i = false → i.wf s.cfg = true → planOf s.cfg d i = pre ++ a :: post →
    s.env.allOk pre = true → (s.env.afterAll pre).error a = some e →
    ∃ t, exec i s = .next t ∧ t.resp = some (.err e) ∧ t.seq = .idle ∧ t.life = s.life ∧
      t.trace = s.trace ++ okEvents s.cfg pre ++ [a.event s.cfg (s.env.afterAll pre)] ∧
      (a.event s.cfg (s.env.afterAll pre)).isFail = true ∧
      t.rstLine = (match a with
        | .pin _ => .unknown
        | .cmd _ | .data _ | .delay _ => lineAfter pre s.rstLine) ∧
      t.env = s.env.afterAll (pre ++ [a]) ∧ t.cfg = s.cfg ∧ t.port = s.port ∧ t.placed = s.placed

/-- R200, R201, R202: two kinds only. NEW, ORIENTATION and RELEASE raise nothing; PinError comes from HARD_RESET or INIT
with a reset pin; HARD_RESET raises nothing else. -/
def Obligations.ErrorKindsByOperation : Prop :=
  ∀ (s t : State) (i : Instr) (e : ErrKind), exec i s = .next t → t.resp = some (.err e) →
    isNew i = false ∧ i ≠ .orientation ∧ i ≠ .release ∧
    (∀ v, e = .pinError v → ((∃ dl, i = .hardReset dl) ∨ ∃ dl, i = .init dl) ∧ ∃ d p, s.life = .live d ∧ d.rst = some p) ∧
    ((∃ dl, i = .hardReset dl) → ∃ v, e = .pinError v)

/-- R205: after any error the block's state is the one before the operation: Live, idle, with the same registers. -/
def Obligations.AnErrorLeavesTheRegisters : Prop :=
  ∀ (s t : State) (i : Instr) (e : ErrKind), exec i s = .next t → t.resp = some (.err e) →
    ∃ d, LiveIdle s d ∧ LiveIdle t d

/-- R206, U5: after any error nothing of the controller is known; after a failed INIT it is not initialised (R236); after a
PinError it takes no commands until the line is driven high again or an INIT succeeds. Which failures leave an initialised
controller initialised is the model's choice (log entry 8). -/
def Obligations.AnErrorLeavesTheControllerUnknown : Prop :=
  ∀ (s t : State) (i : Instr) (e : ErrKind), exec i s = .next t → t.resp = some (.err e) →
    t.panel = { Panel.unknown with bringup := t.panel.bringup } ∧
    (t.panel.bringup = .ready → s.panel.bringup = .ready) ∧
    (∀ dl, i = .init dl → t.panel.bringup = .uninit) ∧
    (∀ v, e = .pinError v → t.panel.bringup ≠ .ready)

/-! ## Orientation -/

/-- R160: ORIENTATION returns the register and changes nothing. -/
def Obligations.OrientationReturnsTheRegister : Prop :=
  ∀ (s : State) (d : Driver), LiveIdle s d →
    exec .orientation s = .next { s with resp := some (.ok (.orientation d.orient)) }

/-- R162: SET_ORIENTATION sends the memory-access-control command and the pattern of `o`, then stores `o`. -/
def Obligations.SetOrientationStoresOnSuccess : Prop :=
  ∀ (s : State) (d : Driver) (o : Orientation), LiveIdle s d →
    let acts : List Action := .cmd .madctl :: dataActs s.cfg.split.w1 [s.cfg.pattern o]
    s.env.allOk acts = true →
    ∃ t, exec (.setOrientation o) s = .next t ∧ t.life = .live { d with orient := o } ∧ t.resp = some (.ok .unit) ∧
      Emitted acts s t ∧
      wireView t.trace = wireView s.trace ++ [.c s.cfg.opcodes.madctl, .d (s.cfg.pattern o)]

/-- R164: a failed SET_ORIENTATION leaves the stored orientation, and every register, unchanged. -/
def Obligations.FailedSetOrientationKeepsTheRegisters : Prop :=
  ∀ (s : State) (d : Driver) (o : Orientation) (pre post : List Action) (a : Action) (e : ErrKind), LiveIdle s d →
    (.cmd .madctl :: dataActs s.cfg.split.w1 [s.cfg.pattern o] : List Action) = pre ++ a :: post →
    s.env.allOk pre = true → (s.env.afterAll pre).error a = some e →
    ∃ t, exec (.setOrientation o) s = .next t ∧ t.resp = some (.err .transportError) ∧ t.life = .live d ∧
      wireView t.trace = wireView s.trace ++ wireView (okEvents s.cfg pre) ∧ t.panel.madctl = none

/-- R21, R23, R163: the registers of a live block change in one way: a successful SET_ORIENTATION(o) stores `o`. -/
def Obligations.OnlySetOrientationWritesARegister : Prop :=
  ∀ (s t : State) (i : Instr) (d d' : Driver), exec i s = .next t → s.life = .live d → t.life = .live d' → d' ≠ d →
    ∃ o, i = .setOrientation o ∧ d' = { d with orient := o } ∧ t.resp = some (.ok .unit)

/-- R22, R243, U10: after a successful SET_ORIENTATION on a controller that an INIT has brought up, `ORIENT` and the
controller's memory-access-control register agree; the frame memory is unknown if the pattern changed (R68). After a
HARD_RESET of such a controller they need not agree, and SET_ORIENTATION restores agreement. When a controller counts as
brought up is the model's (log entry 8). -/
def Obligations.SuccessfulSetOrientationRestoresAgreement : Prop :=
  ∀ (s : State) (d : Driver) (o : Orientation), LiveIdle s d → s.cfg.wf = true →
    let acts : List Action := .cmd .madctl :: dataActs s.cfg.split.w1 [s.cfg.pattern o]
    (s.panel.bringup = .ready → s.env.allOk acts = true →
      ∃ t, exec (.setOrientation o) s = .next t ∧ Agree t ∧
        t.panel.fm = if s.panel.madctl = some (s.cfg.pattern o) then s.panel.fm else []) ∧
    (∀ delay p, d.rst = some p → s.panel.bringup ≠ .uninit →
      s.env.allOk (planOf s.cfg d (.hardReset delay) ++ acts) = true →
      ∃ u t, exec (.hardReset delay) s = .next u ∧ u.life = .live d ∧ u.panel.madctl = none ∧
        exec (.setOrientation o) u = .next t ∧ Agree t)

/-- R151 (c), R231, R243: after a successful INIT the controller is initialised and its registers hold what INIT wrote, the
table registers among them, whatever `ORIENT` is; what INIT does not write is unknown. Which registers there are, and that
SLPOUT wakes and DISPON turns on, are the model's terms (log entry 8; G13). -/
def Obligations.InitLeavesTheControllerAsWritten : Prop :=
  ∀ (s : State) (d : Driver) (delay : DelayProvider), LiveIdle s d → s.cfg.wf = true →
    s.env.allOk (planOf s.cfg d (.init delay)) = true →
    let c := s.cfg
    let steps := c.tuneA ++ c.tuneB ++ [⟨c.opcodes.gammaPos, c.gammaPos⟩, ⟨c.opcodes.gammaNeg, c.gammaNeg⟩]
    ∃ t tables, exec (.init delay) s = .next t ∧ t.life = .live d ∧
      t.panel = { bringup := .ready, cmd := some c.opcodes.dispon, args := [], xs := none, xe := none, ys := none
                  ye := none, ptr := none, fm := [], madctl := some c.initMadctl, colmod := some c.initColmod
                  scroll := none, tearing := none, asleep := some false, displayOn := some true, tables := tables } ∧
      (∀ u ∈ steps, getCell u.opcode.toNat tables = some u.payload) ∧
      (∀ k, (∀ u ∈ steps, k ≠ u.opcode.toNat) → getCell k tables = none) ∧
      (c.initMadctl = c.pattern d.orient → Agree t)

/-! ## Window and pixel writes -/

/-- R170: SET_ADDRESS_WINDOW takes (sx, sy, ex, ey) and sends CASET with sx, ex, then RASET with sy, ey. That the step runs
on its own, with a response, is the model's (log entry 4); so is the initialised controller on which XS, XE, YS and YE then
hold the four values (R63; log entry 8). -/
def Obligations.SetAddressWindowSendsTenBytes : Prop :=
  ∀ (s : State) (d : Driver) (sx sy ex ey : Half), LiveIdle s d →
    let c := s.cfg
    let acts : List Action := (.cmd .caset :: dataActs c.split.w4 (be16 sx ++ be16 ex))
      ++ (.cmd .raset :: dataActs c.split.w4 (be16 sy ++ be16 ey))
    s.env.allOk acts = true →
    ∃ t, exec (.setAddressWindow sx sy ex ey) s = .next t ∧ t.life = s.life ∧ t.resp = some (.ok .unit) ∧
      Emitted acts s t ∧
      wireView t.trace = wireView s.trace
        ++ (.c c.opcodes.caset :: (be16 sx ++ be16 ex).map .d) ++ (.c c.opcodes.raset :: (be16 sy ++ be16 ey).map .d) ∧
      (c.wf = true → s.panel.bringup = .ready →
        t.panel.xs = some sx ∧ t.panel.xe = some ex ∧ t.panel.ys = some sy ∧ t.panel.ye = some ey)

/-- R172: SET_PIXEL sends the window of the one coordinate, RAMWR, and the colour, most significant byte first; it checks
no coordinate (R54). -/
def Obligations.SetPixelSendsItsThirteenBytes : Prop :=
  ∀ (s : State) (d : Driver) (x y : Half) (color : Color), LiveIdle s d →
    let c := s.cfg
    let acts : List Action := (.cmd .caset :: dataActs c.split.w4 (be16 x ++ be16 x))
      ++ (.cmd .raset :: dataActs c.split.w4 (be16 y ++ be16 y)) ++ (.cmd .ramwr :: dataActs c.split.ws (be16 color))
    s.env.allOk acts = true →
    ∃ t, exec (.setPixel x y color) s = .next t ∧ t.life = s.life ∧ t.resp = some (.ok .unit) ∧ Emitted acts s t ∧
      wireView t.trace = wireView s.trace
        ++ (.c c.opcodes.caset :: (be16 x ++ be16 x).map .d) ++ (.c c.opcodes.raset :: (be16 y ++ be16 y).map .d)
        ++ (.c c.opcodes.ramwr :: (be16 color).map .d)

/-- R174, R176: SET_PIXELS sends the window, RAMWR and every colour in input order, for every window and every count. -/
def Obligations.SetPixelsStreamsEveryColourInOrder : Prop :=
  ∀ (s : State) (d : Driver) (sx sy ex ey : Half) (colors : List Color), LiveIdle s d →
    let c := s.cfg
    let acts : List Action := (.cmd .caset :: dataActs c.split.w4 (be16 sx ++ be16 ex))
      ++ (.cmd .raset :: dataActs c.split.w4 (be16 sy ++ be16 ey)) ++ (.cmd .ramwr :: dataActs c.split.ws (colors.flatMap be16))
    s.env.allOk acts = true →
    ∃ t, exec (.setPixels sx sy ex ey colors) s = .next t ∧ t.life = s.life ∧ t.resp = some (.ok .unit) ∧
      Emitted acts s t ∧
      wireView t.trace = wireView s.trace
        ++ (.c c.opcodes.caset :: (be16 sx ++ be16 ex).map .d) ++ (.c c.opcodes.raset :: (be16 sy ++ be16 ey).map .d)
        ++ (.c c.opcodes.ramwr :: (colors.flatMap be16).map .d)

/-- R173: SET_PIXEL is SET_PIXELS of the one-pixel window and the one colour, from every state and under every oracle. -/
def Obligations.SetPixelIsSetPixelsOfOneColour : Prop :=
  ∀ (s : State) (x y : Half) (color : Color), exec (.setPixel x y color) s = exec (.setPixels x y x y [color]) s

/-- R171, R240: whatever the operation and wherever it fails, every RAMWR command on the wire has the ten bytes of a window
directly before it. -/
def Obligations.WindowDirectlyBeforeEveryMemoryWrite : Prop :=
  ∀ (s t : State) (i : Instr), s.cfg.wf = true → isHostOp i = true → exec i s = .next t →
    ∃ new, t.trace = s.trace ++ new ∧
      ∀ pre post, wireView new = pre ++ .c s.cfg.opcodes.ramwr :: post →
        ∃ front sx sy ex ey, pre = front
          ++ (.c s.cfg.opcodes.caset :: (be16 sx ++ be16 ex).map .d)
          ++ (.c s.cfg.opcodes.raset :: (be16 sy ++ be16 ey).map .d)

/-! ## Scroll, tearing effect, release -/

/-- R185: SET_SCROLL_OFFSET sends VSCAD and the offset, big-endian, whatever its value; nothing is stored, and the frame
memory is unchanged. -/
def Obligations.SetScrollOffsetSendsTheOffset : Prop :=
  ∀ (s : State) (d : Driver) (offset : Half), LiveIdle s d →
    let acts : List Action := .cmd .vscad :: dataActs s.cfg.split.w2 (be16 offset)
    s.env.allOk acts = true →
    ∃ t, exec (.setScrollOffset offset) s = .next t ∧ t.life = s.life ∧ t.resp = some (.ok .unit) ∧ Emitted acts s t ∧
      wireView t.trace = wireView s.trace ++ (.c s.cfg.opcodes.vscad :: (be16 offset).map .d) ∧
      (s.cfg.wf = true → s.panel.Canonical → t.panel.fm = s.panel.fm)

/-- R187, R188: Off sends TEOFF alone; Vertical and HorizontalAndVertical send TEON with one byte, 0 and 1; nothing is
stored. -/
def Obligations.SetTearingEffectRelaysTheMode : Prop :=
  ∀ (s : State) (d : Driver) (m : TeMode), LiveIdle s d →
    let acts : List Action := match m with
      | .off => [.cmd .teoff]
      | .vertical => .cmd .teon :: dataActs s.cfg.split.w1 [0x00]
      | .horizontalAndVertical => .cmd .teon :: dataActs s.cfg.split.w1 [0x01]
    s.env.allOk acts = true →
    ∃ t, exec (.setTearingEffect m) s = .next t ∧ t.life = s.life ∧ t.resp = some (.ok .unit) ∧ Emitted acts s t ∧
      wireView t.trace = wireView s.trace ++ match m with
        | .off => [.c s.cfg.opcodes.teoff]
        | .vertical => [.c s.cfg.opcodes.teon, .d 0x00]
        | .horizontalAndVertical => [.c s.cfg.opcodes.teon, .d 0x01]

/-- R189: RELEASE hands the handles back, the registers are gone, and nothing else changes; afterwards every operation but
NEW is refused. -/
def Obligations.ReleaseReturnsTheHandles : Prop :=
  ∀ (s : State) (d : Driver), LiveIdle s d →
    let t : State := { s with life := .released, resp := some (.ok (.handles d.bus d.rst)) }
    exec .release s = .next t ∧ ∀ i, isNew i = false → i.wf s.cfg = true → exec i t = .refused .notAdmitted

/-- R68, R185, R187: a successful SET_SCROLL_OFFSET or SET_TEARING_EFFECT leaves the controller's frame memory and its
memory-access-control register as they were; on an initialised controller the scroll start holds the offset, the tearing
setting the mode, and the other of the two is as it was (the registers of 10_state section 5; log entry 8). -/
def Obligations.ScrollAndTearingKeepTheFrameMemory : Prop :=
  ∀ (s : State) (d : Driver), LiveIdle s d → s.cfg.wf = true → s.panel.Canonical →
    (∀ v, s.env.allOk (planOf s.cfg d (.setScrollOffset v)) = true →
      ∃ t, exec (.setScrollOffset v) s = .next t ∧ t.resp = some (.ok .unit) ∧ t.panel.fm = s.panel.fm ∧
        t.panel.madctl = s.panel.madctl ∧
        (s.panel.bringup = .ready → t.panel.scroll = some v ∧ t.panel.tearing = s.panel.tearing)) ∧
    (∀ m, s.env.allOk (planOf s.cfg d (.setTearingEffect m)) = true →
      ∃ t, exec (.setTearingEffect m) s = .next t ∧ t.resp = some (.ok .unit) ∧ t.panel.fm = s.panel.fm ∧
        t.panel.madctl = s.panel.madctl ∧
        (s.panel.bringup = .ready → t.panel.tearing = some m ∧ t.panel.scroll = s.panel.scroll))

/-! ## Wire instructions on their own (R110) -/

/-- R111, R112, R113, R119: a W0 instruction sends its command byte and nothing else. That a protocol step runs
on its own is the model's (log entry 4), here and in the next four statements. -/
def Obligations.CommandsWithoutPayloadSendOneByte : Prop :=
  ∀ (s : State) (d : Driver) (i : Instr) (n : WireName) (b : Byte), LiveIdle s d →
    (i, n, b) ∈ [(Instr.swreset, WireName.swreset, s.cfg.opcodes.swreset), (.slpout, .slpout, s.cfg.opcodes.slpout),
      (.dispon, .dispon, s.cfg.opcodes.dispon), (.teoff, .teoff, s.cfg.opcodes.teoff)] →
    s.env.busAnswer = .ok →
    ∃ t, exec i s = .next t ∧ t.life = s.life ∧ t.resp = some (.ok .unit) ∧ Emitted [.cmd n] s t ∧
      wireView t.trace = wireView s.trace ++ [.c b]

/-- R117, R118, R120, R92: a W1 instruction whose payload is a value of its parameter sends its command byte and its one
data byte; with another payload it is refused, so the block never emits one (the refusal is the model's, log entry 4). -/
def Obligations.OneByteRegisterWritesSendTwoBytes : Prop :=
  ∀ (s : State) (d : Driver) (i : Instr) (n : WireName) (b p : Byte), LiveIdle s d →
    ((i = .madctl p ∧ n = .madctl ∧ b = s.cfg.opcodes.madctl) ∨ (i = .colmod p ∧ n = .colmod ∧ b = s.cfg.opcodes.colmod) ∨
      (i = .teon .vertical ∧ n = .teon ∧ b = s.cfg.opcodes.teon ∧ p = 0x00) ∨
      (i = .teon .horizontalAndVertical ∧ n = .teon ∧ b = s.cfg.opcodes.teon ∧ p = 0x01)) →
    (i.wf s.cfg = true → s.env.allOk (.cmd n :: dataActs s.cfg.split.w1 [p]) = true →
      ∃ t, exec i s = .next t ∧ t.life = s.life ∧ t.resp = some (.ok .unit) ∧
        Emitted (.cmd n :: dataActs s.cfg.split.w1 [p]) s t ∧
        wireView t.trace = wireView s.trace ++ [.c b, .d p]) ∧
    (i.wf s.cfg = false → exec i s = .refused .payloadOutsideParameter)

/-- R114, R115, R121: CASET and RASET send start and end, VSCAD its offset, all big-endian and unchecked. -/
def Obligations.SixteenBitRegisterWritesSendTheirFields : Prop :=
  ∀ (s : State) (d : Driver) (x y : Half), LiveIdle s d →
    (s.env.allOk (.cmd .caset :: dataActs s.cfg.split.w4 (be16 x ++ be16 y)) = true →
      ∃ t, exec (.caset x y) s = .next t ∧ t.life = s.life ∧ t.resp = some (.ok .unit) ∧
        Emitted (.cmd .caset :: dataActs s.cfg.split.w4 (be16 x ++ be16 y)) s t ∧
        wireView t.trace = wireView s.trace ++ (.c s.cfg.opcodes.caset :: (be16 x ++ be16 y).map .d)) ∧
    (s.env.allOk (.cmd .raset :: dataActs s.cfg.split.w4 (be16 x ++ be16 y)) = true →
      ∃ t, exec (.raset x y) s = .next t ∧ t.life = s.life ∧ t.resp = some (.ok .unit) ∧
        Emitted (.cmd .raset :: dataActs s.cfg.split.w4 (be16 x ++ be16 y)) s t ∧
        wireView t.trace = wireView s.trace ++ (.c s.cfg.opcodes.raset :: (be16 x ++ be16 y).map .d)) ∧
    (s.env.allOk (.cmd .vscad :: dataActs s.cfg.split.w2 (be16 x)) = true →
      ∃ t, exec (.vscad x) s = .next t ∧ t.life = s.life ∧ t.resp = some (.ok .unit) ∧
        Emitted (.cmd .vscad :: dataActs s.cfg.split.w2 (be16 x)) s t ∧
        wireView t.trace = wireView s.trace ++ (.c s.cfg.opcodes.vscad :: (be16 x).map .d))

/-- R116: RAMWR sends its command byte and the stream, whatever its length; an empty stream still makes a transaction. -/
def Obligations.MemoryWriteSendsItsStream : Prop :=
  ∀ (s : State) (d : Driver) (colors : List Color), LiveIdle s d →
    let acts : List Action := .cmd .ramwr :: dataActs s.cfg.split.ws (colors.flatMap be16)
    2 ≤ acts.length ∧
    (s.env.allOk acts = true →
      ∃ t, exec (.ramwr colors) s = .next t ∧ t.life = s.life ∧ t.resp = some (.ok .unit) ∧ Emitted acts s t ∧
        wireView t.trace = wireView s.trace ++ (.c s.cfg.opcodes.ramwr :: (colors.flatMap be16).map .d))

/-- R122 to R125: a table step sends its opcode and its table; a step with an empty table makes no DATA transaction. -/
def Obligations.TableStepsSendTheirTables : Prop :=
  ∀ (s : State) (d : Driver) (i : Instr) (n : WireName) (b : Byte) (table : List Byte), LiveIdle s d →
    ((∃ k u, s.cfg.tuneA[k]? = some u ∧ i = .tuneA k ∧ n = .tuneA k ∧ b = u.opcode ∧ table = u.payload) ∨
      (∃ k u, s.cfg.tuneB[k]? = some u ∧ i = .tuneB k ∧ n = .tuneB k ∧ b = u.opcode ∧ table = u.payload) ∨
      (i = .gammaPos ∧ n = .gammaPos ∧ b = s.cfg.opcodes.gammaPos ∧ table = s.cfg.gammaPos) ∨
      (i = .gammaNeg ∧ n = .gammaNeg ∧ b = s.cfg.opcodes.gammaNeg ∧ table = s.cfg.gammaNeg)) →
    let acts : List Action := if table = [] then [.cmd n] else .cmd n :: dataActs s.cfg.split.wt table
    s.env.allOk acts = true →
    ∃ t, exec i s = .next t ∧ t.life = s.life ∧ t.resp = some (.ok .unit) ∧ Emitted acts s t ∧
      wireView t.trace = wireView s.trace ++ (.c b :: table.map .d)

/-! ## Whole-machine rules -/

/-- R90: every command byte an operation attempts is the opcode of a member of the Instruction Set. -/
def Obligations.CommandBytesBelongToTheClosedSet : Prop :=
  ∀ (s t : State) (i : Instr), i.wf s.cfg = true → exec i s = .next t →
    ∃ new, t.trace = s.trace ++ new ∧ ∀ b r, .cmd b r ∈ new → b ∈ s.cfg.opcodeList

/-- R50 (a): NEW, HARD_RESET, ORIENTATION and RELEASE make no bus transaction, and consult no answer of the bus. -/
def Obligations.FourOperationsLeaveTheBusAlone : Prop :=
  ∀ (s t : State) (i : Instr), (isNew i = true ∨ (∃ dl, i = .hardReset dl) ∨ i = .orientation ∨ i = .release) →
    exec i s = .next t → ∃ new, t.trace = s.trace ++ new ∧ new.all (fun e => !e.isBus) = true ∧
      t.env.bus = s.env.bus ∧ t.env.busPos = s.env.busPos

/-- R220: the delays requested are those of the pulse (with a reset pin), 150 ms and 10 ms, in that order: all of them on
success, a front part of them on an error, and none for any other operation. -/
def Obligations.DelaysRequestedByEachOperation : Prop :=
  ∀ (s t : State) (i : Instr) (d : Driver), LiveIdle s d → exec i s = .next t →
    let pulse := if d.rst.isSome then [s.cfg.tRst1, s.cfg.tRst2, s.cfg.tRst3] else []
    let expected := match i with
      | .hardReset _ => pulse
      | .init _ => pulse ++ [150000, 10000]
      | _ => []
    ∃ new, t.trace = s.trace ++ new ∧ new.filterMap Event.delayUs <+: expected ∧
      (∀ v, t.resp = some (.ok v) → new.filterMap Event.delayUs = expected)

/-- R14, R82: the tagged bytes of an operation do not depend on how payloads are cut into transactions. -/
def Obligations.TheWireDoesNotDependOnTheCutting : Prop :=
  ∀ (s : State) (d : Driver) (i : Instr) (k : DataSplit), LiveIdle s d → isNew i = false → i.wf s.cfg = true →
    s.env.allOk (planOf s.cfg d i) = true → s.env.allOk (planOf { s.cfg with split := k } d i) = true →
    ∃ t u, exec i s = .next t ∧ exec i { s with cfg := { s.cfg with split := k } } = .next u ∧
      wireView u.trace = wireView t.trace ∧ u.life = t.life ∧ u.resp = t.resp

/-- R23, R60, R165: no operation's events or response depend on WIDTH, HEIGHT or `ORIENT`, but for ORIENTATION's value. -/
def Obligations.EventsDoNotDependOnOrientationOrSize : Prop :=
  ∀ (s t : State) (d d' : Driver) (i : Instr), LiveIdle s d → d'.bus = d.bus → d'.rst = d.rst → exec i s = .next t →
    ∃ u, exec i { s with life := .live d' } = .next u ∧ u.trace = t.trace ∧ u.env = t.env ∧ u.rstLine = t.rstLine ∧
      (i ≠ .orientation → u.resp = t.resp)

/-- R6, R69: a step never writes the configuration and only appends to the trace. -/
def Obligations.AStepKeepsTheConfigurationAndExtendsTheTrace : Prop :=
  ∀ s t : State, step s = .next t → t.cfg = s.cfg ∧ s.trace <+: t.trace

/-- R20, R23: while the block stays Live, no step changes its handles, WIDTH or HEIGHT. -/
def Obligations.AStepKeepsHandlesAndSize : Prop :=
  ∀ (s t : State) (d d' : Driver), step s = .next t → s.life = .live d → t.life = .live d' →
    d'.bus = d.bus ∧ d'.rst = d.rst ∧ d'.width = d.width ∧ d'.height = d.height

/-- R30, R31: running an operation to its response is the same as making its events one step at a time, with `SEQ` counting
them from 0. That a step is a whole operation, and one event only in the middle of one, is the model's (log entry 15).
Operations without events (NEW, ORIENTATION, RELEASE, HARD_RESET without a pin) have no such steps and are left out. -/
def Obligations.OneStepPerEventReachesTheSameState : Prop :=
  ∀ (s t : State) (d : Driver) (i : Instr), LiveIdle s d → exec i s = .next t → planOf s.cfg d i ≠ [] →
    ∃ n, 0 < n ∧ n ≤ (planOf s.cfg d i).length ∧ Host.Core.run Sys2Proof.core n (s.start i) = .next t ∧
      ∀ k, k < n → ∃ u : State, Host.Core.run Sys2Proof.core k (s.start i) = .next u ∧ u.seq = .running i k

/-- The invariant holds at reset. -/
def Obligations.ResetMeetsTheStateLaw : Prop :=
  Inv State.reset

/-- From every state that meets it, a step keeps the invariant: what is known of the controller is in canonical form,
nothing at all is known of one that no INIT has brought up (R236) or that the reset line may hold (log entry 8), and `SEQ` stays inside its operation's list (R30). -/
def Obligations.EveryStepKeepsTheStateLaw : Prop :=
  ∀ s t : State, Inv s → step s = .next t → Inv t

/-- A state that meets the invariant has no fault: the sequencer never goes adrift. -/
def Obligations.NoFaultUnderTheStateLaw : Prop :=
  ∀ (s : State) (f : Fault), Inv s → step s ≠ .fault f

/-! ## The frame memory (the reference environment of 20_memory.md section 6) -/

/-- R63 to R65, R67: on an initialised controller, with a well-formed window in range and at most as many colours as it
holds, colour `i` lands at `(sx + i mod W, sy + i div W)` and every other pixel keeps what was known of it. That RAMWR
puts the pointer at the window's first pixel is G9, general knowledge; when a controller counts as initialised, and which
orientations may be in force, are the model's (log entry 8). -/
def Obligations.SetPixelsFillsItsWindowInRowMajorOrder : Prop :=
  ∀ (s : State) (d : Driver) (sx sy ex ey : Half) (colors : List Color), LiveIdle s d → s.cfg.wf = true →
    s.panel.bringup = .ready → sx.toNat ≤ ex.toNat → sy.toNat ≤ ey.toNat →
    (∀ o ∈ s.panel.inForce s.cfg, ex.toNat < (rangeOf s.cfg s.dims o).1 ∧ ey.toNat < (rangeOf s.cfg s.dims o).2) →
    let w := ex.toNat - sx.toNat + 1
    colors.length ≤ w * (ey.toNat - sy.toNat + 1) →
    s.env.allOk (planOf s.cfg d (.setPixels sx sy ex ey colors)) = true →
    ∃ t, exec (.setPixels sx sy ex ey colors) s = .next t ∧
      (∀ i (hi : i < colors.length), t.panel.pixelAt (sx.toNat + i % w) (sy.toNat + i / w) = some colors[i]) ∧
      (∀ col row, col < 65536 → (∀ i, i < colors.length → (col, row) ≠ (sx.toNat + i % w, sy.toNat + i / w)) →
        t.panel.pixelAt col row = s.panel.pixelAt col row)

/-- R66, under the configuration's choice of the reference wrap (log entry 8): colour `i` of a stream of any length lands
at `(sx + i mod W, sy + (i div W) mod H)`, a later colour over an earlier one. -/
def Obligations.OverlongStreamWrapsUnderTheReferenceChoice : Prop :=
  ∀ (s : State) (d : Driver) (sx sy ex ey : Half) (colors : List Color), LiveIdle s d → s.cfg.wf = true →
    s.cfg.overrun = .wrapToFirst → s.panel.bringup = .ready → sx.toNat ≤ ex.toNat → sy.toNat ≤ ey.toNat →
    (∀ o ∈ s.panel.inForce s.cfg, ex.toNat < (rangeOf s.cfg s.dims o).1 ∧ ey.toNat < (rangeOf s.cfg s.dims o).2) →
    let w := ex.toNat - sx.toNat + 1
    let h := ey.toNat - sy.toNat + 1
    s.env.allOk (planOf s.cfg d (.setPixels sx sy ex ey colors)) = true →
    ∃ t, exec (.setPixels sx sy ex ey colors) s = .next t ∧
      t.panel.fm = colors.zipIdx.foldl
        (fun m ci => setCell (pixelKey (sx.toNat + ci.2 % w) (sy.toNat + (ci.2 / w) % h)) ci.1 m) s.panel.fm

/-- U3, under the configuration's safe choice (log entry 8): once there are more colours than the window holds, every pixel
of the window is unknown, and every pixel outside it keeps what was known of it. -/
def Obligations.OverlongStreamForgetsTheWindowUnderTheSafeChoice : Prop :=
  ∀ (s : State) (d : Driver) (sx sy ex ey : Half) (colors : List Color), LiveIdle s d → s.cfg.wf = true →
    s.cfg.overrun = .windowUnknown → s.panel.bringup = .ready → sx.toNat ≤ ex.toNat → sy.toNat ≤ ey.toNat →
    (∀ o ∈ s.panel.inForce s.cfg, ex.toNat < (rangeOf s.cfg s.dims o).1 ∧ ey.toNat < (rangeOf s.cfg s.dims o).2) →
    (ex.toNat - sx.toNat + 1) * (ey.toNat - sy.toNat + 1) < colors.length →
    s.env.allOk (planOf s.cfg d (.setPixels sx sy ex ey colors)) = true →
    ∃ t, exec (.setPixels sx sy ex ey colors) s = .next t ∧
      ∀ col row, col < 65536 →
        t.panel.pixelAt col row =
          if sx.toNat ≤ col ∧ col ≤ ex.toNat ∧ sy.toNat ≤ row ∧ row ≤ ey.toNat then none else s.panel.pixelAt col row

/-- R54, R55, R68, U1, U2: a window with its bounds reversed, or outside the range of an orientation that may be in force,
is sent as given (the wire holds its bytes, RAMWR and every colour, and the response is Ok), and the whole frame memory is
unknown after it, with no colour at all too. That it is unknown wholly and from the bounds on, and for every orientation
that may be in force, is the model's reading (log entry 8). -/
def Obligations.AWindowOutOfRangeForgetsTheFrameMemory : Prop :=
  ∀ (s : State) (d : Driver) (sx sy ex ey : Half) (colors : List Color), LiveIdle s d →
    s.cfg.wf = true → s.panel.Canonical →
    (ex.toNat < sx.toNat ∨ ey.toNat < sy.toNat ∨ ∃ o ∈ s.panel.inForce s.cfg,
      (rangeOf s.cfg s.dims o).1 ≤ ex.toNat ∨ (rangeOf s.cfg s.dims o).2 ≤ ey.toNat) →
    s.env.allOk (planOf s.cfg d (.setPixels sx sy ex ey colors)) = true →
    ∃ t, exec (.setPixels sx sy ex ey colors) s = .next t ∧ t.resp = some (.ok .unit) ∧ t.panel.fm = [] ∧
      wireView t.trace = wireView s.trace
        ++ (.c s.cfg.opcodes.caset :: (be16 sx ++ be16 ex).map .d) ++ (.c s.cfg.opcodes.raset :: (be16 sy ++ be16 ey).map .d)
        ++ (.c s.cfg.opcodes.ramwr :: (colors.flatMap be16).map .d)

/-! ## The host port -/

/-- R90, R95, R101 (c): every request that decodes at the host port is a host operation, so the host passes no raw byte and
no step of its own (TUNE_A, SET_ADDRESS_WINDOW) through the block; and where nothing is placed from outside (log entry 4),
an idle step does nothing or runs a host operation, and nothing is placed afterwards. -/
def Obligations.HostRequestsAreHostOperations : Prop :=
  (∀ c bits side i, decode c (.host bits side) = .ok i → isHostOp i = true) ∧
  (∀ s t : State, s.seq = .idle → s.placed = none → step s = .next t →
    t = s ∨ ∃ r rest i, s.port = r :: rest ∧ decode s.cfg (.host r.bits r.side) = .ok i ∧ isHostOp i = true ∧
      exec i { s with port := rest } = .next t) ∧
  (∀ s t : State, s.placed = none → step s = .next t → t.placed = none)
end

