-- ==== Sys2Proof/Laws/Bytes.lean ====
section
/-! SUPPORT. Byte order, bit strings and cuttings: the receiver's reassembly undoes `be16`, a field read from a request
is the field written, and the bytes of a payload do not depend on how it is cut. -/

namespace Sys2Proof.Machine

/-! ## Byte order -/

theorem ofBe_be16 (v : Half) : ofBe (v.extractLsb' 8 8) (v.extractLsb' 0 8) = v := by
  apply BitVec.eq_of_getLsbD_eq
  intro i hi
  have h := BitVec.getLsbD_append (x := v.extractLsb' 8 8) (y := v.extractLsb' 0 8) (i := i)
  refine h.trans ?_
  by_cases h8 : i < 8
  · simp [h8]
  · have h1 : i - 8 < 8 := by omega
    have h2 : 8 + (i - 8) = i := by omega
    simp [h8, h1, h2]

theorem be16_ofBe (h l : Byte) : be16 (ofBe h l) = [h, l] := by
  have key : ∀ i, (ofBe h l).getLsbD i = if i < 8 then l.getLsbD i else h.getLsbD (i - 8) := fun i =>
    BitVec.getLsbD_append (x := h) (y := l) (i := i)
  simp only [be16, List.cons.injEq, and_true]
  constructor
  · apply BitVec.eq_of_getLsbD_eq
    intro i hi
    simp [key, hi]
  · apply BitVec.eq_of_getLsbD_eq
    intro i hi
    simp [key, hi]

@[simp] theorem ofBeStream_beStream (cs : List Color) : ofBeStream (beStream cs) = some cs := by
  induction cs with
  | nil => rfl
  | cons c rest ih =>
    simp only [beStream, List.flatMap_cons, be16, List.cons_append, List.nil_append, ofBeStream]
    simp only [beStream] at ih
    rw [ih, ofBe_be16]
    rfl

theorem beStream_ofBeStream {ds : List Byte} {cs : List Color} (h : ofBeStream ds = some cs) : beStream cs = ds := by
  induction ds using ofBeStream.induct generalizing cs with
  | case1 => simp only [ofBeStream, Option.some.injEq] at h; subst h; rfl
  | case2 => simp [ofBeStream] at h
  | case3 h' l rest ih =>
    simp only [ofBeStream, Option.map_eq_some_iff] at h
    obtain ⟨cs', hcs, rfl⟩ := h
    simp [beStream, List.flatMap_cons, be16_ofBe, ← ih hcs]

@[simp] theorem beStream_singleton (c : Color) : beStream [c] = be16 c := by
  simp [beStream]

/-! ## Bit strings -/

@[simp] theorem length_msbBits (n v : Nat) : (msbBits n v).length = n := by
  induction n with
  | zero => rfl
  | succ n ih => simp [msbBits, ih]

theorem ofMsbBits_append (a b : List Bool) : ofMsbBits (a ++ b) = ofMsbBits a * 2 ^ b.length + ofMsbBits b := by
  have key : ∀ (b : List Bool) (x : Nat),
      b.foldl (fun a b => 2 * a + b.toNat) x = x * 2 ^ b.length + b.foldl (fun a b => 2 * a + b.toNat) 0 := by
    intro b
    induction b with
    | nil => simp
    | cons c rest ih =>
      intro x
      simp only [List.foldl_cons, List.length_cons]
      rw [ih (2 * x + c.toNat), ih (2 * 0 + c.toNat), Nat.pow_succ]
      rw [Nat.add_mul, Nat.add_mul, Nat.mul_comm 2 x, Nat.mul_assoc, Nat.mul_comm 2 (2 ^ rest.length)]
      omega
  simp only [ofMsbBits, List.foldl_append]
  exact key b _

theorem ofMsbBits_msbBits (n v : Nat) : ofMsbBits (msbBits n v) = v % 2 ^ n := by
  induction n with
  | zero => simp [msbBits, ofMsbBits, Nat.mod_one]
  | succ n ih =>
    have : msbBits (n + 1) v = [v.testBit n] ++ msbBits n v := rfl
    rw [this, ofMsbBits_append, ih, length_msbBits, Nat.mod_pow_succ]
    have hb : ofMsbBits [v.testBit n] = v / 2 ^ n % 2 := by
      simp only [ofMsbBits, List.foldl_cons, List.foldl_nil, Nat.testBit_eq_decide_div_mod_eq]
      have : v / 2 ^ n % 2 = 0 ∨ v / 2 ^ n % 2 = 1 := by omega
      rcases this with h | h <;> simp [h]
    rw [hb, Nat.mul_comm, Nat.add_comm]

@[simp] theorem readFields_msbBits (n v : Nat) (ns : List Nat) (rest : List Bool) :
    readFields (n :: ns) (msbBits n v ++ rest) = (readFields ns rest).map (v % 2 ^ n :: ·) := by
  have hlen : ¬ (msbBits n v ++ rest).length < n := by simp
  have htake : (msbBits n v ++ rest).take n = msbBits n v := by
    rw [List.take_append_of_le_length (by simp)]; simp [List.take_of_length_le]
  have hdrop : (msbBits n v ++ rest).drop n = rest := by
    rw [List.drop_append_of_le_length (by simp)]; simp [List.drop_eq_nil_of_le]
  simp only [readFields, if_neg hlen, htake, hdrop, ofMsbBits_msbBits]

@[simp] theorem half_toNat (v : Half) : half (v.toNat % 2 ^ 16) = v := by
  simp [half, Nat.mod_eq_of_lt v.isLt]

theorem msbBits_ofMsbBits (bits : List Bool) : msbBits bits.length (ofMsbBits bits) = bits := by
  induction bits with
  | nil => rfl
  | cons b rest ih =>
    have hsplit : ofMsbBits (b :: rest) = b.toNat * 2 ^ rest.length + ofMsbBits rest := by
      have := ofMsbBits_append [b] rest
      simpa [ofMsbBits] using this
    have hlt : ofMsbBits rest < 2 ^ rest.length := by
      have := ofMsbBits_msbBits rest.length (ofMsbBits rest)
      rw [ih] at this
      rw [this]
      exact Nat.mod_lt _ (Nat.two_pow_pos _)
    have hlow : ∀ (n v w : Nat), n ≤ rest.length → msbBits n (w * 2 ^ rest.length + v) = msbBits n v := by
      intro n
      induction n with
      | zero => intros; rfl
      | succ n ihn =>
        intro v w hn
        simp only [msbBits]
        rw [ihn v w (by omega), Nat.testBit_eq_decide_div_mod_eq, Nat.testBit_eq_decide_div_mod_eq]
        congr 2
        have hpow : w * 2 ^ rest.length = 2 ^ n * (2 * (w * 2 ^ (rest.length - (n + 1)))) := by
          have : 2 ^ rest.length = 2 ^ n * (2 * 2 ^ (rest.length - (n + 1))) := by
            rw [← Nat.mul_assoc, ← Nat.pow_succ, ← Nat.pow_add]
            congr 1
            omega
          rw [this]
          ac_rfl
        rw [hpow, Nat.mul_add_div (Nat.two_pow_pos _), Nat.mul_add_mod]
    simp only [List.length_cons, msbBits, hsplit]
    rw [hlow _ _ _ (Nat.le_refl _), ih, Nat.testBit_eq_decide_div_mod_eq, Nat.mul_comm,
      Nat.mul_add_div (Nat.two_pow_pos _), Nat.div_eq_of_lt hlt]
    cases b <;> simp

/-! ## Cuttings -/

theorem flatten_chunksOf (n fuel : Nat) (bs : List Byte) : (chunksOf n fuel bs).flatten = bs := by
  induction fuel generalizing bs with
  | zero => simp [chunksOf]
  | succ fuel ih =>
    simp only [chunksOf]
    split
    · simp
    · simp [ih]

theorem flatten_cutInto (rep : Nat) (first : List Nat) (bs : List Byte) : (cutInto rep first bs).flatten = bs := by
  induction first generalizing bs with
  | nil => exact flatten_chunksOf _ _ _
  | cons n ns ih =>
    simp only [cutInto]
    split
    · simp
    · simp [ih]

@[simp] theorem cutInto_whole (bs : List Byte) : cutInto 0 [] bs = [bs] := by
  simp only [cutInto]
  cases bs.length <;> simp [chunksOf]

end Sys2Proof.Machine
end

