-- ==== Sys2Proof/Laws/Cells.lean ====
section
/-! SUPPORT. The canonical cell lists: a read after a write, and that every operation keeps the canonical form. -/

namespace Sys2Proof.Machine

variable {β : Type}

@[simp] theorem getCell_nil (k : Nat) : getCell k ([] : List (Nat × β)) = none := rfl

@[simp] theorem cellsWf_nil : cellsWf ([] : List (Nat × β)) := List.Pairwise.nil

theorem cellsWf_cons {c : Nat × β} {m : List (Nat × β)} :
    cellsWf (c :: m) ↔ (∀ x ∈ m, c.1 < x.1) ∧ cellsWf m :=
  List.pairwise_cons

/-- A key below every listed key is not listed. -/
theorem getCell_none_of_lt {k : Nat} {m : List (Nat × β)} (h : ∀ x ∈ m, k < x.1) : getCell k m = none := by
  induction m with
  | nil => rfl
  | cons c rest ih =>
    have hc : c.1 ≠ k := by have := h c (by simp); omega
    simp only [getCell, if_neg hc]
    exact ih fun x hx => h x (by simp [hx])

theorem getCell_setCell_same (k : Nat) (v : β) (m : List (Nat × β)) : getCell k (setCell k v m) = some v := by
  induction m with
  | nil => simp [setCell, getCell]
  | cons c rest ih =>
    obtain ⟨j, w⟩ := c
    by_cases h1 : k < j
    · simp [setCell, h1, getCell]
    · by_cases h2 : k = j
      · simp [setCell, h2, getCell]
      · have : j ≠ k := fun h => h2 h.symm
        simp [setCell, h1, h2, getCell, this, ih]

theorem getCell_setCell_other {k j : Nat} (h : j ≠ k) (v : β) (m : List (Nat × β)) :
    getCell j (setCell k v m) = getCell j m := by
  induction m with
  | nil => simp [setCell, getCell, h.symm]
  | cons c rest ih =>
    obtain ⟨i, w⟩ := c
    by_cases h1 : k < i
    · simp [setCell, h1, getCell, h.symm]
    · by_cases h2 : k = i
      · subst h2; simp [setCell, getCell, h.symm]
      · simp only [setCell, if_neg h1, if_neg h2, getCell, ih]

/-- A second write to a key replaces the first. -/
theorem setCell_setCell (k : Nat) (u v : β) (m : List (Nat × β)) : setCell k v (setCell k u m) = setCell k v m := by
  induction m with
  | nil => simp [setCell]
  | cons c rest ih =>
    obtain ⟨j, w⟩ := c
    by_cases h1 : k < j
    · simp [setCell, h1]
    · by_cases h2 : k = j
      · simp [setCell, h2]
      · simp [setCell, h1, h2, ih]

theorem mem_setCell {k : Nat} {v : β} {m : List (Nat × β)} {x : Nat × β} (h : x ∈ setCell k v m) :
    x = (k, v) ∨ x ∈ m := by
  induction m with
  | nil => simpa [setCell] using h
  | cons c rest ih =>
    obtain ⟨j, w⟩ := c
    simp only [setCell] at h
    split at h
    · simpa using h
    · split at h
      · rcases List.mem_cons.1 h with h | h
        · exact .inl h
        · exact .inr (by simp [h])
      · rcases List.mem_cons.1 h with h | h
        · exact .inr (by simp [h])
        · exact (ih h).imp_right fun h => by simp [h]

theorem cellsWf_setCell (k : Nat) (v : β) {m : List (Nat × β)} (h : cellsWf m) : cellsWf (setCell k v m) := by
  induction m with
  | nil => simp [setCell, cellsWf]
  | cons c rest ih =>
    obtain ⟨j, w⟩ := c
    obtain ⟨hlt, hrest⟩ := cellsWf_cons.1 h
    simp only [setCell]
    split
    · rename_i hk
      refine cellsWf_cons.2 ⟨fun x hx => ?_, h⟩
      rcases List.mem_cons.1 hx with rfl | hx
      · exact hk
      · exact Nat.lt_trans hk (hlt x hx)
    · split
      · rename_i hk; subst hk
        exact cellsWf_cons.2 ⟨hlt, hrest⟩
      · refine cellsWf_cons.2 ⟨fun x hx => ?_, ih hrest⟩
        rcases mem_setCell hx with rfl | hx
        · simp; omega
        · exact hlt x hx

theorem cellsWf_forgetCells (p : Nat → Bool) {m : List (Nat × β)} (h : cellsWf m) : cellsWf (forgetCells p m) :=
  List.Pairwise.filter _ h

theorem getCell_forgetCells (p : Nat → Bool) (k : Nat) {m : List (Nat × β)} :
    getCell k (forgetCells p m) = if p k then none else getCell k m := by
  induction m with
  | nil => simp [forgetCells]
  | cons c rest ih =>
    obtain ⟨j, w⟩ := c
    simp only [forgetCells] at ih ⊢
    by_cases hp : p j
    · by_cases hj : j = k
      · subst hj; simp [hp, ih]
      · simp [hp, ih, getCell, hj]
    · by_cases hj : j = k
      · subst hj; simp [hp, getCell]
      · simp [hp, ih, getCell, hj]

end Sys2Proof.Machine
end

