-- ==== Sys2Proof/Laws/Decode.lean ====
section
/-! SUPPORT. The opcode map read both ways, and where a protocol step ends. -/

namespace Sys2Proof.Machine

theorem names_map_opc (c : Cfg) : c.names.map c.opc = c.opcodeList := by
  have h : ∀ (f : TuneStep → Byte) (l : List TuneStep),
      (List.range l.length).map (fun k => (l[k]?.map f).getD 0) = l.map f := by
    intro f l
    apply List.ext_getElem
    · simp
    · intro k h1 h2
      simp at h1 h2 ⊢
      simp [List.getElem?_eq_getElem h1]
  simp only [Cfg.names, Cfg.opcodeList, List.map_append, List.map_map, List.map_cons, List.map_nil, Cfg.opc]
  congr 1
  congr 1
  · congr 1
    exact h _ _
  · exact h _ _

theorem wf_opcodes {c : Cfg} (h : c.wf = true) : c.opcodeList.Nodup := by
  simp only [Cfg.wf, Bool.and_eq_true, decide_eq_true_eq] at h
  exact h.1.1.1.1.1.1

theorem wf_patterns {c : Cfg} (h : c.wf = true) : c.patternList.Nodup := by
  simp only [Cfg.wf, Bool.and_eq_true, decide_eq_true_eq] at h
  exact h.1.1.1.1.1.2

theorem wf_colmod16 {c : Cfg} (h : c.wf = true) : c.colmod16.contains c.initColmod = true := by
  simp only [Cfg.wf, Bool.and_eq_true] at h
  exact h.2

theorem eq_of_nodup_map {α β : Type} {f : α → β} {l : List α} (h : (l.map f).Nodup) {x y : α} (hx : x ∈ l) (hy : y ∈ l)
    (he : f x = f y) : x = y := by
  induction l with
  | nil => cases hx
  | cons a rest ih =>
    simp only [List.map_cons, List.nodup_cons, List.mem_map, not_exists, not_and] at h
    rcases List.mem_cons.1 hx with rfl | hx' <;> rcases List.mem_cons.1 hy with rfl | hy'
    · rfl
    · exact absurd he.symm (h.1 y hy')
    · exact absurd he (h.1 x hx')
    · exact ih h.2 hx' hy'

/-- Distinct names have distinct opcodes (R88). -/
theorem opc_injective {c : Cfg} (h : c.wf = true) {m n : WireName} (hm : m ∈ c.names) (hn : n ∈ c.names)
    (he : c.opc m = c.opc n) : m = n := by
  have hnd : (c.names.map c.opc).Nodup := by rw [names_map_opc]; exact wf_opcodes h
  exact eq_of_nodup_map hnd hm hn he

/-- The receiver reads the name back from its opcode. -/
theorem nameOf_opc {c : Cfg} (h : c.wf = true) {n : WireName} (hn : n ∈ c.names) : c.nameOf (c.opc n) = some n := by
  obtain ⟨m, hm⟩ : ∃ m, c.nameOf (c.opc n) = some m := by
    simp only [Cfg.nameOf]
    exact Option.isSome_iff_exists.1 (List.find?_isSome.2 ⟨n, hn, by simp⟩)
  rw [hm]
  have hmem := List.mem_of_find?_eq_some hm
  have hopc := List.find?_some hm
  rw [opc_injective h hmem hn (by simpa using hopc)]

/-- A name the receiver reads is a member of the set, and its opcode is the byte. -/
theorem nameOf_some {c : Cfg} {b : Byte} {n : WireName} (h : c.nameOf b = some n) : n ∈ c.names ∧ c.opc n = b :=
  ⟨List.mem_of_find?_eq_some h, by simpa using List.find?_some h⟩

/-- The names that are no tuning step belong to the set. -/
theorem mem_names (c : Cfg) {n : WireName} (h : ∀ k, n ≠ .tuneA k ∧ n ≠ .tuneB k) : n ∈ c.names := by
  cases n with
  | tuneA k => exact absurd rfl (h k).1
  | tuneB k => exact absurd rfl (h k).2
  | _ => simp [Cfg.names]

theorem tuneA_mem_names {c : Cfg} {k : Nat} : .tuneA k ∈ c.names ↔ k < c.tuneA.length := by
  simp [Cfg.names]

theorem tuneB_mem_names {c : Cfg} {k : Nat} : .tuneB k ∈ c.names ↔ k < c.tuneB.length := by
  simp [Cfg.names]

/-- The next byte of a stream, if any, is a command byte. -/
def commandNext : List WireByte → Prop
  | [] => True
  | .c _ :: _ => True
  | .d _ :: _ => False

theorem takeData_map (ds : List Byte) {rest : List WireByte} (h : commandNext rest) :
    takeData (ds.map .d ++ rest) = ds := by
  induction ds with
  | nil => cases rest with
    | nil => rfl
    | cons b r => cases b with
      | c b => rfl
      | d b => exact h.elim
  | cons b r ih => simp [takeData, ih]

theorem dropData_map (ds : List Byte) {rest : List WireByte} (h : commandNext rest) :
    dropData (ds.map .d ++ rest) = rest := by
  induction ds with
  | nil => cases rest with
    | nil => rfl
    | cons b r => cases b with
      | c b => rfl
      | d b => exact h.elim
  | cons b r ih => simp [dropData, ih]

/-- One step of the stream decoder: the data bytes up to the next command are the payload (R80). -/
theorem decodeSteps_step {c : Cfg} {fuel : Nat} {b : Byte} {ds : List Byte} {rest : List WireByte} {i : Instr}
    {is : List Instr} (hr : commandNext rest) (hi : decodeStep c b ds = .ok i)
    (his : decodeSteps c fuel rest = .ok is) :
    decodeSteps c (fuel + 1) (.c b :: (ds.map .d ++ rest)) = .ok (i :: is) := by
  simp only [decodeSteps, takeData_map ds hr, dropData_map ds hr, hi, his]

end Sys2Proof.Machine
end

