-- ==== Sys2Proof/Laws/Panel.lean ====
section
/-! SUPPORT. Everything the reference environment does keeps its canonical form. -/

namespace Sys2Proof.Machine

/-- Nothing known is canonical, whatever the bring-up. -/
theorem canonical_nothing (b : Bringup) : { Panel.unknown with bringup := b }.Canonical :=
  ⟨cellsWf_nil, cellsWf_nil, fun _ => rfl⟩

theorem canonical_unknown : Panel.unknown.Canonical :=
  canonical_nothing .uninit

/-- An initialised controller that takes commands: only the two lists have a form to keep. -/
theorem canonical_ready {p : Panel} (h : p.bringup = .ready) (hf : cellsWf p.fm) (ht : cellsWf p.tables) :
    p.Canonical :=
  ⟨hf, ht, fun hb => absurd h hb⟩

/-- One pixel keeps the canonical form of the frame memory, the bring-up and the tables. -/
theorem pixel_fields (c : Cfg) (dims : Nat × Nat) (v : Color) (p : Panel) :
    (Panel.pixel c dims v p).bringup = p.bringup ∧ (Panel.pixel c dims v p).tables = p.tables ∧
      (cellsWf p.fm → cellsWf (Panel.pixel c dims v p).fm) := by
  simp only [Panel.pixel]
  split
  · split
    · split
      · exact ⟨rfl, rfl, fun h => cellsWf_setCell _ _ h⟩
      · split
        · exact ⟨rfl, rfl, fun h => cellsWf_setCell _ _ h⟩
        · exact ⟨rfl, rfl, fun h => cellsWf_forgetCells _ h⟩
    · exact ⟨rfl, rfl, fun _ => cellsWf_nil⟩
  · exact ⟨rfl, rfl, fun _ => cellsWf_nil⟩

/-- Through a window that R65 does not admit, a pixel makes the whole frame memory unknown and changes nothing else. -/
theorem pixel_not_accepted {c : Cfg} {dims : Nat × Nat} {p : Panel}
    (h : ∀ w, p.window = some w → p.accepts c dims w = false) (v : Color) : Panel.pixel c dims v p = { p with fm := [] } := by
  simp only [Panel.pixel]
  split
  · rename_i w _ _ _ hw _
    simp [h w hw]
  · rfl

/-- A known controller's reaction to a command keeps the bring-up and the canonical form. -/
theorem onCommand_fields (c : Cfg) (n : WireName) (p : Panel) :
    (Panel.onCommand c n p).bringup = p.bringup ∧ (cellsWf p.fm → cellsWf (Panel.onCommand c n p).fm) ∧
      (cellsWf p.tables → cellsWf (Panel.onCommand c n p).tables) := by
  cases n
  case swreset => exact ⟨rfl, fun _ => cellsWf_nil, fun _ => cellsWf_nil⟩
  all_goals exact ⟨rfl, id, fun h => by first | exact h | exact cellsWf_setCell _ _ h⟩

/-- A known controller's reaction to a data byte keeps the canonical form, and the bring-up unless everything becomes
unknown. -/
theorem onData_fields (c : Cfg) (dims : Nat × Nat) (n : WireName) (as : List Byte) (p : Panel) :
    Panel.onData c dims n as p = Panel.unknown ∨
      ((Panel.onData c dims n as p).bringup = p.bringup ∧ (cellsWf p.fm → cellsWf (Panel.onData c dims n as p).fm) ∧
        (cellsWf p.tables → cellsWf (Panel.onData c dims n as p).tables)) := by
  cases n
  case ramwr =>
    simp only [Panel.onData]
    split
    · rename_i h l
      obtain ⟨h1, h2, h3⟩ := pixel_fields c dims (ofBe h l) { p with args := [] }
      exact .inr ⟨h1, h3, fun h => by rw [h2]; exact h⟩
    · exact .inr ⟨rfl, id, id⟩
  case colmod =>
    simp only [Panel.onData]
    split
    · split
      · exact .inr ⟨rfl, id, id⟩
      · exact .inl rfl
    · exact .inr ⟨rfl, id, id⟩
  case madctl =>
    simp only [Panel.onData]
    split
    · split
      · exact .inr ⟨rfl, id, id⟩
      · exact .inr ⟨rfl, fun _ => cellsWf_nil, id⟩
    · exact .inr ⟨rfl, id, id⟩
  case teon =>
    simp only [Panel.onData]
    split
    · split
      · exact .inr ⟨rfl, id, id⟩
      · split <;> exact .inr ⟨rfl, id, id⟩
    · exact .inr ⟨rfl, id, id⟩
  case caset =>
    simp only [Panel.onData]
    split
    · exact .inr ⟨rfl, fun h => by show cellsWf (if _ then _ else _); split <;> first | exact h | exact cellsWf_nil, id⟩
    · exact .inr ⟨rfl, id, id⟩
  case raset =>
    simp only [Panel.onData]
    split
    · exact .inr ⟨rfl, fun h => by show cellsWf (if _ then _ else _); split <;> first | exact h | exact cellsWf_nil, id⟩
    · exact .inr ⟨rfl, id, id⟩
  case vscad => simp only [Panel.onData]; split <;> exact .inr ⟨rfl, id, id⟩
  case tuneA k => exact .inr ⟨rfl, id, cellsWf_setCell _ _⟩
  case tuneB k => exact .inr ⟨rfl, id, cellsWf_setCell _ _⟩
  case gammaPos => exact .inr ⟨rfl, id, cellsWf_setCell _ _⟩
  case gammaNeg => exact .inr ⟨rfl, id, cellsWf_setCell _ _⟩
  all_goals exact .inr ⟨rfl, id, id⟩

/-- Receiving one byte keeps the canonical form. -/
theorem canonical_recv (c : Cfg) (dims : Nat × Nat) {p : Panel} (h : p.Canonical) (b : WireByte) :
    (p.recv c dims b).Canonical := by
  obtain ⟨hfm, htab, huni⟩ := h
  cases b with
  | c b =>
    simp only [Panel.recv, Panel.recvCmd]
    split
    · exact canonical_unknown
    · rename_i n _
      split
      · rename_i hb
        obtain ⟨h1, h2, h3⟩ := onCommand_fields c n { p with cmd := some b, args := [] }
        exact canonical_ready (h1.trans hb) (h2 hfm) (h3 htab)
      · exact canonical_nothing _
      · exact canonical_nothing _
  | d b =>
    simp only [Panel.recv, Panel.recvData]
    split
    · exact ⟨hfm, htab, huni⟩
    · exact ⟨hfm, htab, huni⟩
    · rename_i hb
      split
      · exact canonical_unknown
      · rename_i n _
        rcases onData_fields c dims n (p.args ++ [b]) { p with args := p.args ++ [b] } with h | ⟨h1, h2, h3⟩
        · rw [h]; exact canonical_unknown
        · exact canonical_ready (h1.trans hb) (h2 hfm) (h3 htab)

/-- Receiving bytes keeps the canonical form. -/
theorem canonical_recvAll (c : Cfg) (dims : Nat × Nat) (bs : List WireByte) {p : Panel} (h : p.Canonical) :
    (p.recvAll c dims bs).Canonical := by
  induction bs generalizing p with
  | nil => exact h
  | cons b rest ih => exact ih (canonical_recv c dims h b)

/-- What INIT leaves is canonical. -/
theorem canonical_initDone (c : Cfg) (dims : Nat × Nat) : (Panel.initDone c dims).Canonical :=
  canonical_recvAll c dims _ (canonical_nothing .ready)

/-! ## Failures -/

theorem failed_in_init (p : Panel) : p.failed true = Panel.unknown := rfl

theorem failed_outside_init (p : Panel) : p.failed false = p.forget := rfl

theorem pinLost_in_init (p : Panel) : p.pinLost true = Panel.unknown := rfl

/-- The line may be holding the controller after a failed pin set. -/
theorem pinLost_not_ready (inInit : Bool) (p : Panel) : (p.pinLost inInit).bringup ≠ .ready := by
  cases inInit <;> cases h : p.bringup <;> simp [Panel.pinLost, h, Panel.unknown]

end Sys2Proof.Machine
end

