-- ==== Sys2Proof/Laws/State.lean ====
section
/-! SUPPORT. One lemma for each field and each update of the state, true by unfolding the update once; later proofs cite
them and never unfold a record update. -/

namespace Sys2Proof.Machine

/-! ## `State.start` -/

@[simp] theorem start_cfg (op : Instr) (s : State) : (s.start op).cfg = s.cfg := rfl
@[simp] theorem start_life (op : Instr) (s : State) : (s.start op).life = s.life := rfl
@[simp] theorem start_seq (op : Instr) (s : State) : (s.start op).seq = .running op 0 := rfl
@[simp] theorem start_resp (op : Instr) (s : State) : (s.start op).resp = none := rfl
@[simp] theorem start_trace (op : Instr) (s : State) : (s.start op).trace = s.trace := rfl
@[simp] theorem start_rstLine (op : Instr) (s : State) : (s.start op).rstLine = s.rstLine := rfl
@[simp] theorem start_env (op : Instr) (s : State) : (s.start op).env = s.env := rfl
@[simp] theorem start_port (op : Instr) (s : State) : (s.start op).port = s.port := rfl
@[simp] theorem start_placed (op : Instr) (s : State) : (s.start op).placed = s.placed := rfl
@[simp] theorem start_panel (op : Instr) (s : State) : (s.start op).panel = s.panel := rfl

/-! ## `State.respond` -/

@[simp] theorem respond_cfg (v : Value) (s : State) : (s.respond v).cfg = s.cfg := rfl
@[simp] theorem respond_life (v : Value) (s : State) : (s.respond v).life = s.life := rfl
@[simp] theorem respond_seq (v : Value) (s : State) : (s.respond v).seq = .idle := rfl
@[simp] theorem respond_resp (v : Value) (s : State) : (s.respond v).resp = some (.ok v) := rfl
@[simp] theorem respond_trace (v : Value) (s : State) : (s.respond v).trace = s.trace := rfl
@[simp] theorem respond_rstLine (v : Value) (s : State) : (s.respond v).rstLine = s.rstLine := rfl
@[simp] theorem respond_env (v : Value) (s : State) : (s.respond v).env = s.env := rfl
@[simp] theorem respond_port (v : Value) (s : State) : (s.respond v).port = s.port := rfl
@[simp] theorem respond_placed (v : Value) (s : State) : (s.respond v).placed = s.placed := rfl
@[simp] theorem respond_panel (v : Value) (s : State) : (s.respond v).panel = s.panel := rfl

/-! ## `State.raise` -/

@[simp] theorem raise_cfg (e : ErrKind) (s : State) : (s.raise e).cfg = s.cfg := rfl
@[simp] theorem raise_life (e : ErrKind) (s : State) : (s.raise e).life = s.life := rfl
@[simp] theorem raise_seq (e : ErrKind) (s : State) : (s.raise e).seq = .idle := rfl
@[simp] theorem raise_resp (e : ErrKind) (s : State) : (s.raise e).resp = some (.err e) := rfl
@[simp] theorem raise_trace (e : ErrKind) (s : State) : (s.raise e).trace = s.trace := rfl
@[simp] theorem raise_rstLine (e : ErrKind) (s : State) : (s.raise e).rstLine = s.rstLine := rfl
@[simp] theorem raise_env (e : ErrKind) (s : State) : (s.raise e).env = s.env := rfl
@[simp] theorem raise_port (e : ErrKind) (s : State) : (s.raise e).port = s.port := rfl
@[simp] theorem raise_placed (e : ErrKind) (s : State) : (s.raise e).placed = s.placed := rfl
@[simp] theorem raise_panel (e : ErrKind) (s : State) : (s.raise e).panel = s.panel := rfl

/-! ## `State.construct` -/

@[simp] theorem construct_cfg (b : BusHandle) (p : Option PinHandle) (w h : Half) (s : State) : (s.construct b p w h).cfg = s.cfg := rfl
@[simp] theorem construct_life (b : BusHandle) (p : Option PinHandle) (w h : Half) (s : State) : (s.construct b p w h).life = .live ⟨b, p, w, h, .portrait⟩ := rfl
@[simp] theorem construct_seq (b : BusHandle) (p : Option PinHandle) (w h : Half) (s : State) : (s.construct b p w h).seq = s.seq := rfl
@[simp] theorem construct_resp (b : BusHandle) (p : Option PinHandle) (w h : Half) (s : State) : (s.construct b p w h).resp = s.resp := rfl
@[simp] theorem construct_trace (b : BusHandle) (p : Option PinHandle) (w h : Half) (s : State) : (s.construct b p w h).trace = s.trace := rfl
@[simp] theorem construct_rstLine (b : BusHandle) (p : Option PinHandle) (w h : Half) (s : State) : (s.construct b p w h).rstLine = .unknown := rfl
@[simp] theorem construct_env (b : BusHandle) (p : Option PinHandle) (w h : Half) (s : State) : (s.construct b p w h).env = s.env := rfl
@[simp] theorem construct_port (b : BusHandle) (p : Option PinHandle) (w h : Half) (s : State) : (s.construct b p w h).port = s.port := rfl
@[simp] theorem construct_placed (b : BusHandle) (p : Option PinHandle) (w h : Half) (s : State) : (s.construct b p w h).placed = s.placed := rfl
@[simp] theorem construct_panel (b : BusHandle) (p : Option PinHandle) (w h : Half) (s : State) : (s.construct b p w h).panel = Panel.unknown := rfl

/-! ## `returnUnit` -/

@[simp] theorem returnUnit_cfg (d : Driver) (s : State) : (returnUnit d s).cfg = s.cfg := rfl
@[simp] theorem returnUnit_life (d : Driver) (s : State) : (returnUnit d s).life = s.life := rfl
@[simp] theorem returnUnit_seq (d : Driver) (s : State) : (returnUnit d s).seq = .idle := rfl
@[simp] theorem returnUnit_resp (d : Driver) (s : State) : (returnUnit d s).resp = some (.ok .unit) := rfl
@[simp] theorem returnUnit_trace (d : Driver) (s : State) : (returnUnit d s).trace = s.trace := rfl
@[simp] theorem returnUnit_rstLine (d : Driver) (s : State) : (returnUnit d s).rstLine = s.rstLine := rfl
@[simp] theorem returnUnit_env (d : Driver) (s : State) : (returnUnit d s).env = s.env := rfl
@[simp] theorem returnUnit_port (d : Driver) (s : State) : (returnUnit d s).port = s.port := rfl
@[simp] theorem returnUnit_placed (d : Driver) (s : State) : (returnUnit d s).placed = s.placed := rfl
@[simp] theorem returnUnit_panel (d : Driver) (s : State) : (returnUnit d s).panel = s.panel := rfl

/-! ## `doneInit` -/

@[simp] theorem doneInit_cfg (d : Driver) (s : State) : (doneInit d s).cfg = s.cfg := rfl
@[simp] theorem doneInit_life (d : Driver) (s : State) : (doneInit d s).life = s.life := rfl
@[simp] theorem doneInit_seq (d : Driver) (s : State) : (doneInit d s).seq = .idle := rfl
@[simp] theorem doneInit_resp (d : Driver) (s : State) : (doneInit d s).resp = some (.ok .unit) := rfl
@[simp] theorem doneInit_trace (d : Driver) (s : State) : (doneInit d s).trace = s.trace := rfl
@[simp] theorem doneInit_rstLine (d : Driver) (s : State) : (doneInit d s).rstLine = s.rstLine := rfl
@[simp] theorem doneInit_env (d : Driver) (s : State) : (doneInit d s).env = s.env := rfl
@[simp] theorem doneInit_port (d : Driver) (s : State) : (doneInit d s).port = s.port := rfl
@[simp] theorem doneInit_placed (d : Driver) (s : State) : (doneInit d s).placed = s.placed := rfl
@[simp] theorem doneInit_panel (d : Driver) (s : State) : (doneInit d s).panel = Panel.initDone s.cfg s.dims := rfl

/-! ## `doneOrientation` -/

@[simp] theorem doneOrientation_cfg (d : Driver) (s : State) : (doneOrientation d s).cfg = s.cfg := rfl
@[simp] theorem doneOrientation_life (d : Driver) (s : State) : (doneOrientation d s).life = s.life := rfl
@[simp] theorem doneOrientation_seq (d : Driver) (s : State) : (doneOrientation d s).seq = .idle := rfl
@[simp] theorem doneOrientation_resp (d : Driver) (s : State) : (doneOrientation d s).resp = some (.ok (.orientation d.orient)) := rfl
@[simp] theorem doneOrientation_trace (d : Driver) (s : State) : (doneOrientation d s).trace = s.trace := rfl
@[simp] theorem doneOrientation_rstLine (d : Driver) (s : State) : (doneOrientation d s).rstLine = s.rstLine := rfl
@[simp] theorem doneOrientation_env (d : Driver) (s : State) : (doneOrientation d s).env = s.env := rfl
@[simp] theorem doneOrientation_port (d : Driver) (s : State) : (doneOrientation d s).port = s.port := rfl
@[simp] theorem doneOrientation_placed (d : Driver) (s : State) : (doneOrientation d s).placed = s.placed := rfl
@[simp] theorem doneOrientation_panel (d : Driver) (s : State) : (doneOrientation d s).panel = s.panel := rfl

/-! ## `doneSetOrientation` -/

@[simp] theorem doneSetOrientation_cfg (o : Orientation) (d : Driver) (s : State) : (doneSetOrientation o d s).cfg = s.cfg := rfl
@[simp] theorem doneSetOrientation_life (o : Orientation) (d : Driver) (s : State) : (doneSetOrientation o d s).life = .live { d with orient := o } := rfl
@[simp] theorem doneSetOrientation_seq (o : Orientation) (d : Driver) (s : State) : (doneSetOrientation o d s).seq = .idle := rfl
@[simp] theorem doneSetOrientation_resp (o : Orientation) (d : Driver) (s : State) : (doneSetOrientation o d s).resp = some (.ok .unit) := rfl
@[simp] theorem doneSetOrientation_trace (o : Orientation) (d : Driver) (s : State) : (doneSetOrientation o d s).trace = s.trace := rfl
@[simp] theorem doneSetOrientation_rstLine (o : Orientation) (d : Driver) (s : State) : (doneSetOrientation o d s).rstLine = s.rstLine := rfl
@[simp] theorem doneSetOrientation_env (o : Orientation) (d : Driver) (s : State) : (doneSetOrientation o d s).env = s.env := rfl
@[simp] theorem doneSetOrientation_port (o : Orientation) (d : Driver) (s : State) : (doneSetOrientation o d s).port = s.port := rfl
@[simp] theorem doneSetOrientation_placed (o : Orientation) (d : Driver) (s : State) : (doneSetOrientation o d s).placed = s.placed := rfl
@[simp] theorem doneSetOrientation_panel (o : Orientation) (d : Driver) (s : State) : (doneSetOrientation o d s).panel = s.panel := rfl

/-! ## `doneRelease` -/

@[simp] theorem doneRelease_cfg (d : Driver) (s : State) : (doneRelease d s).cfg = s.cfg := rfl
@[simp] theorem doneRelease_life (d : Driver) (s : State) : (doneRelease d s).life = .released := rfl
@[simp] theorem doneRelease_seq (d : Driver) (s : State) : (doneRelease d s).seq = .idle := rfl
@[simp] theorem doneRelease_resp (d : Driver) (s : State) : (doneRelease d s).resp = some (.ok (.handles d.bus d.rst)) := rfl
@[simp] theorem doneRelease_trace (d : Driver) (s : State) : (doneRelease d s).trace = s.trace := rfl
@[simp] theorem doneRelease_rstLine (d : Driver) (s : State) : (doneRelease d s).rstLine = s.rstLine := rfl
@[simp] theorem doneRelease_env (d : Driver) (s : State) : (doneRelease d s).env = s.env := rfl
@[simp] theorem doneRelease_port (d : Driver) (s : State) : (doneRelease d s).port = s.port := rfl
@[simp] theorem doneRelease_placed (d : Driver) (s : State) : (doneRelease d s).placed = s.placed := rfl
@[simp] theorem doneRelease_panel (d : Driver) (s : State) : (doneRelease d s).panel = s.panel := rfl

/-! ## `State.advance` -/

@[simp] theorem advance_cfg (s : State) : s.advance.cfg = s.cfg := by
  cases h : s.seq <;> simp only [State.advance, h]
@[simp] theorem advance_life (s : State) : s.advance.life = s.life := by
  cases h : s.seq <;> simp only [State.advance, h]
@[simp] theorem advance_resp (s : State) : s.advance.resp = s.resp := by
  cases h : s.seq <;> simp only [State.advance, h]
@[simp] theorem advance_trace (s : State) : s.advance.trace = s.trace := by
  cases h : s.seq <;> simp only [State.advance, h]
@[simp] theorem advance_rstLine (s : State) : s.advance.rstLine = s.rstLine := by
  cases h : s.seq <;> simp only [State.advance, h]
@[simp] theorem advance_env (s : State) : s.advance.env = s.env := by
  cases h : s.seq <;> simp only [State.advance, h]
@[simp] theorem advance_port (s : State) : s.advance.port = s.port := by
  cases h : s.seq <;> simp only [State.advance, h]
@[simp] theorem advance_placed (s : State) : s.advance.placed = s.placed := by
  cases h : s.seq <;> simp only [State.advance, h]
@[simp] theorem advance_panel (s : State) : s.advance.panel = s.panel := by
  cases h : s.seq <;> simp only [State.advance, h]

theorem advance_idle {s : State} (h : s.seq = .idle) : s.advance = s := by
  simp only [State.advance, h]

theorem advance_running {s : State} {op : Instr} {k : Nat} (h : s.seq = .running op k) :
    s.advance = { s with seq := .running op (k + 1) } := by
  simp only [State.advance, h]

/-- Two states with equal fields are equal. -/
theorem state_ext {s t : State} (h1 : s.cfg = t.cfg) (h2 : s.life = t.life) (h3 : s.seq = t.seq) (h4 : s.resp = t.resp)
    (h5 : s.trace = t.trace) (h6 : s.rstLine = t.rstLine) (h7 : s.env = t.env) (h8 : s.port = t.port)
    (h9 : s.placed = t.placed) (h10 : s.panel = t.panel) : s = t := by
  cases s; cases t; simp_all

end Sys2Proof.Machine
end

