-- ==== Sys2Proof/Laws/Run.lean ====
section
/-! SUPPORT. Everything a primitive and the run of an event list can do, said once: `attempt_*` for one event,
`runActs_cases` for a list. Later proofs cite these and unfold neither `attempt` nor `runActs`. -/

namespace Sys2Proof.Machine

/-! ## One event -/

@[simp] theorem attempt_cfg (a : Action) (s : State) : (attempt a s).1.cfg = s.cfg := by
  cases a <;> simp only [attempt, State.busCmd, State.busData, State.pinSet, State.pause] <;> split <;> rfl

@[simp] theorem attempt_life (a : Action) (s : State) : (attempt a s).1.life = s.life := by
  cases a <;> simp only [attempt, State.busCmd, State.busData, State.pinSet, State.pause] <;> split <;> rfl

@[simp] theorem attempt_seq (a : Action) (s : State) : (attempt a s).1.seq = s.seq := by
  cases a <;> simp only [attempt, State.busCmd, State.busData, State.pinSet, State.pause] <;> split <;> rfl

@[simp] theorem attempt_resp (a : Action) (s : State) : (attempt a s).1.resp = s.resp := by
  cases a <;> simp only [attempt, State.busCmd, State.busData, State.pinSet, State.pause] <;> split <;> rfl

@[simp] theorem attempt_port (a : Action) (s : State) : (attempt a s).1.port = s.port := by
  cases a <;> simp only [attempt, State.busCmd, State.busData, State.pinSet, State.pause] <;> split <;> rfl

@[simp] theorem attempt_placed (a : Action) (s : State) : (attempt a s).1.placed = s.placed := by
  cases a <;> simp only [attempt, State.busCmd, State.busData, State.pinSet, State.pause] <;> split <;> rfl

@[simp] theorem attempt_env (a : Action) (s : State) : (attempt a s).1.env = s.env.after a := by
  cases a <;> simp only [attempt, State.busCmd, State.busData, State.pinSet, State.pause, Env.after] <;> split <;> rfl

@[simp] theorem attempt_trace (a : Action) (s : State) :
    (attempt a s).1.trace = s.trace ++ [a.event s.cfg s.env] := by
  cases a <;> simp only [attempt, State.busCmd, State.busData, State.pinSet, State.pause, Action.event]
    <;> split <;> simp_all

@[simp] theorem attempt_error (a : Action) (s : State) : (attempt a s).2 = s.env.error a := by
  cases a <;> simp only [attempt, State.busCmd, State.busData, State.pinSet, State.pause, Env.error]
    <;> split <;> simp_all

@[simp] theorem dims_of_life {s t : State} (h : t.life = s.life) : t.dims = s.dims := by
  simp only [State.dims, h]

theorem error_none_iff (e : Env) (a : Action) : e.error a = none ↔ e.saysOk a = true := by
  cases a <;> simp only [Env.error, Env.saysOk]
  · split <;> simp_all
  · split <;> simp_all
  · split <;> simp_all

theorem event_of_saysOk {e : Env} {a : Action} (c : Cfg) (h : e.saysOk a = true) : a.event c e = a.okEvent c := by
  cases a <;> simp_all [Env.saysOk, Action.event, Action.okEvent]

/-- The primitive is a bus transaction or a delay: it leaves the reset line alone. -/
def Action.noPin : Action → Bool
  | .pin _ => false
  | .cmd _ => true
  | .data _ => true
  | .delay _ => true

theorem attempt_rstLine {a : Action} (h : a.noPin = true) (s : State) : (attempt a s).1.rstLine = s.rstLine := by
  cases a <;> simp only [attempt, State.busCmd, State.busData, State.pause] <;> first | split <;> rfl | simp [Action.noPin] at h

theorem attempt_panel {a : Action} {s : State} (h : a.noPin = true) (hok : s.env.saysOk a = true) :
    (attempt a s).1.panel = s.panel.recvAll s.cfg s.dims (a.okEvent s.cfg).wire := by
  cases a with
  | cmd n => simp only [Env.saysOk, beq_iff_eq] at hok; simp [attempt, State.busCmd, hok, Action.okEvent, Event.wire,
      Panel.recvAll, Panel.recv]
  | data bs => simp only [Env.saysOk, beq_iff_eq] at hok; simp [attempt, State.busData, hok, Action.okEvent, Event.wire]
  | pin l => simp [Action.noPin] at h
  | delay us => simp [attempt, State.pause, Action.okEvent, Event.wire, Panel.recvAll]

/-- A pin set that is answered ok moves the line. -/
theorem attempt_pin_panel_ok {l : Level} {s : State} (h : s.env.pinAnswer = .ok) :
    (attempt (.pin l) s).1.panel = s.panel.pinMoved l := by
  simp [attempt, State.pinSet, h]

theorem attempt_pin_rstLine_ok {l : Level} {s : State} (h : s.env.pinAnswer = .ok) :
    (attempt (.pin l) s).1.rstLine = RstLine.ofLevel l := by
  simp [attempt, State.pinSet, h]

theorem attempt_pin_rstLine_fail {l : Level} {s : State} {e : PinErr} (h : s.env.pinAnswer = .fail e) :
    (attempt (.pin l) s).1.rstLine = .unknown := by
  simp [attempt, State.pinSet, h]

/-- The reset line after an event answered ok. -/
theorem attempt_rstLine_ok {a : Action} {s : State} (hok : s.env.saysOk a = true) :
    (attempt a s).1.rstLine = lineAfter [a] s.rstLine := by
  cases a with
  | pin l => simp only [Env.saysOk, beq_iff_eq] at hok; simp [attempt, State.pinSet, hok, lineAfter]
  | cmd n => exact attempt_rstLine rfl s
  | data bs => exact attempt_rstLine rfl s
  | delay us => rfl

/-- The reset line after an event that failed: unknown after a pin set (R145), as it was after a transaction. -/
theorem attempt_rstLine_fail {a : Action} {s : State} {e : ErrKind} (h : s.env.error a = some e) :
    (attempt a s).1.rstLine = match a with
      | .pin _ => .unknown
      | .cmd _ | .data _ | .delay _ => s.rstLine := by
  cases a with
  | pin l =>
    simp only [Env.error] at h
    split at h
    · cases h
    · rename_i v hv; exact attempt_pin_rstLine_fail hv
  | cmd n => exact attempt_rstLine rfl s
  | data bs => exact attempt_rstLine rfl s
  | delay us => cases h

/-- Everything a failed event leaves of the controller (R68, U5, R145, R236): nothing is known; in INIT it is not
initialised; a pin error never leaves it ready; no failure makes it ready. -/
theorem attempt_fail_panel {a : Action} {s : State} {e : ErrKind} (h : s.env.error a = some e) :
    ∃ b, (attempt a s).1.panel = { Panel.unknown with bringup := b } ∧ (b = .ready → s.panel.bringup = .ready) ∧
      (s.seq.inInit = true → b = .uninit) ∧ (∀ v, e = .pinError v → b ≠ .ready) := by
  have transaction : (attempt a s).1.panel = s.panel.failed s.seq.inInit → e = .transportError →
      ∃ b, (attempt a s).1.panel = { Panel.unknown with bringup := b } ∧ (b = .ready → s.panel.bringup = .ready) ∧
        (s.seq.inInit = true → b = .uninit) ∧ (∀ v, e = .pinError v → b ≠ .ready) := by
    rintro hp rfl
    refine ⟨(s.panel.failed s.seq.inInit).bringup, hp, ?_, fun hi => by rw [hi]; rfl, fun _ hv => by cases hv⟩
    cases s.seq.inInit
    · exact id
    · intro h; cases h
  cases a with
  | cmd n =>
    have hf : s.env.busAnswer = .fail := by cases hb : s.env.busAnswer <;> simp_all [Env.error]
    exact transaction (by simp [attempt, State.busCmd, hf]) (by simpa [Env.error, hf] using h.symm)
  | data bs =>
    have hf : s.env.busAnswer = .fail := by cases hb : s.env.busAnswer <;> simp_all [Env.error]
    exact transaction (by simp [attempt, State.busData, hf]) (by simpa [Env.error, hf] using h.symm)
  | pin l =>
    simp only [Env.error] at h
    split at h
    · cases h
    · rename_i v hv
      exact ⟨(s.panel.pinLost s.seq.inInit).bringup, by simp [attempt, State.pinSet, hv]; rfl,
        fun hb => absurd hb (pinLost_not_ready _ _), fun hi => by rw [hi]; rfl, fun _ _ => pinLost_not_ready _ _⟩
  | delay us => cases h

/-! ## Event lists -/

/-- The state after the events of a list none of which failed. -/
def State.sent (s : State) (acts : List Action) : State :=
  acts.foldl (fun s a => (attempt a s).1.advance) s

@[simp] theorem sent_nil (s : State) : s.sent [] = s := rfl

@[simp] theorem sent_cons (s : State) (a : Action) (rest : List Action) :
    s.sent (a :: rest) = (attempt a s).1.advance.sent rest := rfl

theorem sent_append (s : State) (xs ys : List Action) : s.sent (xs ++ ys) = (s.sent xs).sent ys := by
  simp [State.sent, List.foldl_append]

@[simp] theorem sent_cfg (acts : List Action) (s : State) : (s.sent acts).cfg = s.cfg := by
  induction acts generalizing s with
  | nil => rfl
  | cons a rest ih => simp [ih]

@[simp] theorem sent_life (acts : List Action) (s : State) : (s.sent acts).life = s.life := by
  induction acts generalizing s with
  | nil => rfl
  | cons a rest ih => simp [ih]

@[simp] theorem sent_resp (acts : List Action) (s : State) : (s.sent acts).resp = s.resp := by
  induction acts generalizing s with
  | nil => rfl
  | cons a rest ih => simp [ih]

@[simp] theorem sent_port (acts : List Action) (s : State) : (s.sent acts).port = s.port := by
  induction acts generalizing s with
  | nil => rfl
  | cons a rest ih => simp [ih]

@[simp] theorem sent_placed (acts : List Action) (s : State) : (s.sent acts).placed = s.placed := by
  induction acts generalizing s with
  | nil => rfl
  | cons a rest ih => simp [ih]

@[simp] theorem sent_env (acts : List Action) (s : State) : (s.sent acts).env = s.env.afterAll acts := by
  induction acts generalizing s with
  | nil => rfl
  | cons a rest ih => simp [ih, Env.afterAll]

@[simp] theorem sent_dims (acts : List Action) (s : State) : (s.sent acts).dims = s.dims :=
  dims_of_life (sent_life acts s)

theorem sent_seq {acts : List Action} {s : State} {op : Instr} {k : Nat} (h : s.seq = .running op k) :
    (s.sent acts).seq = .running op (k + acts.length) := by
  induction acts generalizing s k with
  | nil => simpa using h
  | cons a rest ih =>
    have : (attempt a s).1.advance.seq = .running op (k + 1) := by
      rw [advance_running (s := (attempt a s).1) (by simpa using h)]
    rw [sent_cons, ih this, List.length_cons]
    congr 1
    omega

@[simp] theorem allOk_nil (e : Env) : e.allOk [] = true := rfl

@[simp] theorem allOk_cons (e : Env) (a : Action) (rest : List Action) :
    e.allOk (a :: rest) = (e.saysOk a && (e.after a).allOk rest) := rfl

theorem allOk_append (e : Env) (xs ys : List Action) :
    e.allOk (xs ++ ys) = (e.allOk xs && (e.afterAll xs).allOk ys) := by
  induction xs generalizing e with
  | nil => simp [Env.afterAll]
  | cons a rest ih => simp [ih, Env.afterAll, Bool.and_assoc]

theorem sent_trace {acts : List Action} {s : State} (h : s.env.allOk acts = true) :
    (s.sent acts).trace = s.trace ++ okEvents s.cfg acts := by
  induction acts generalizing s with
  | nil => simp [okEvents]
  | cons a rest ih =>
    simp only [allOk_cons, Bool.and_eq_true] at h
    rw [sent_cons, ih (by simpa using h.2)]
    simp [okEvents, event_of_saysOk s.cfg h.1]

theorem sent_rstLine {acts : List Action} (hp : acts.all Action.noPin = true) (s : State) :
    (s.sent acts).rstLine = s.rstLine := by
  induction acts generalizing s with
  | nil => rfl
  | cons a rest ih =>
    simp only [List.all_cons, Bool.and_eq_true] at hp
    rw [sent_cons, ih hp.2, advance_rstLine, attempt_rstLine hp.1]

/-- The reset line after a list answered ok. -/
theorem sent_rstLine_ok {acts : List Action} {s : State} (h : s.env.allOk acts = true) :
    (s.sent acts).rstLine = lineAfter acts s.rstLine := by
  induction acts generalizing s with
  | nil => rfl
  | cons a rest ih =>
    simp only [allOk_cons, Bool.and_eq_true] at h
    rw [sent_cons, ih (by simpa using h.2), advance_rstLine, attempt_rstLine_ok h.1]
    rfl

theorem sent_panel {acts : List Action} {s : State} (hp : acts.all Action.noPin = true)
    (h : s.env.allOk acts = true) :
    (s.sent acts).panel = s.panel.recvAll s.cfg s.dims (wireView (okEvents s.cfg acts)) := by
  induction acts generalizing s with
  | nil => simp [okEvents, wireView, Panel.recvAll]
  | cons a rest ih =>
    simp only [List.all_cons, Bool.and_eq_true] at hp
    simp only [allOk_cons, Bool.and_eq_true] at h
    have hd : (attempt a s).1.dims = s.dims := dims_of_life (attempt_life a s)
    have hd' : (attempt a s).1.advance.dims = s.dims := (dims_of_life (advance_life _)).trans hd
    rw [sent_cons, ih hp.2 (by simpa using h.2), advance_panel, attempt_panel hp.1 h.1, hd']
    simp [okEvents, wireView, Panel.recvAll]

/-- A list every event of which is answered ok runs to its end. -/
theorem runActs_allOk {done : State → State} {acts : List Action} {s : State} (h : s.env.allOk acts = true) :
    runActs done acts s = done (s.sent acts) := by
  induction acts generalizing s with
  | nil => rfl
  | cons a rest ih =>
    simp only [allOk_cons, Bool.and_eq_true] at h
    have he : (attempt a s).2 = none := by rw [attempt_error]; exact (error_none_iff _ _).2 h.1
    simp only [runActs]
    split
    · rename_i s' heq
      have : s' = (attempt a s).1 := by rw [heq]
      subst this
      exact ih (by simpa using h.2)
    · rename_i s' e heq
      rw [heq] at he
      cases he

/-- Everything the run of a list can do (R69, R203): all its events are answered ok and `done` ends it, or a first event
fails after the ones before it were answered ok, and its error is raised. -/
theorem runActs_cases (done : State → State) (acts : List Action) (s : State) :
    (s.env.allOk acts = true ∧ runActs done acts s = done (s.sent acts)) ∨
    ∃ pre a post e, acts = pre ++ a :: post ∧ s.env.allOk pre = true ∧ (s.env.afterAll pre).error a = some e ∧
      runActs done acts s = (attempt a (s.sent pre)).1.raise e := by
  induction acts generalizing s with
  | nil => exact .inl ⟨rfl, rfl⟩
  | cons a rest ih =>
    cases he : s.env.error a with
    | some e =>
      refine .inr ⟨[], a, rest, e, rfl, rfl, by simpa [Env.afterAll] using he, ?_⟩
      have h2 : attempt a s = ((attempt a s).1, some e) := Prod.ext rfl (by simp [he])
      rw [runActs, h2]
      rfl
    | none =>
      have hok := (error_none_iff _ _).1 he
      have h2 : attempt a s = ((attempt a s).1, none) := Prod.ext rfl (by simp [he])
      have hrun : runActs done (a :: rest) s = runActs done rest (attempt a s).1.advance := by
        rw [runActs, h2]
      rcases ih (attempt a s).1.advance with ⟨h, hr⟩ | ⟨pre, b, post, e, hacts, hpre, herr, hr⟩
      · exact .inl ⟨by simpa [hok] using h, by rw [hrun, hr, sent_cons]⟩
      · refine .inr ⟨a :: pre, b, post, e, by simp [hacts], by simpa [hok] using hpre, ?_, by rw [hrun, hr, sent_cons]⟩
        simpa [Env.afterAll] using herr

/-- A list whose events before `a` are answered ok and whose `a` fails is ended by that failure (R203). -/
theorem runActs_fails {done : State → State} {pre post : List Action} {a : Action} {e : ErrKind} {s : State}
    (hok : s.env.allOk pre = true) (he : (s.env.afterAll pre).error a = some e) :
    runActs done (pre ++ a :: post) s = (attempt a (s.sent pre)).1.raise e := by
  induction pre generalizing s with
  | nil =>
    have h2 : attempt a s = ((attempt a s).1, some e) := Prod.ext rfl (by simpa [Env.afterAll] using he)
    rw [List.nil_append, runActs, h2]
    rfl
  | cons b rest ih =>
    simp only [allOk_cons, Bool.and_eq_true] at hok
    have h2 : attempt b s = ((attempt b s).1, none) :=
      Prod.ext rfl (by rw [attempt_error]; exact (error_none_iff _ _).2 hok.1)
    rw [List.cons_append, runActs, h2, sent_cons]
    exact ih (by simpa using hok.2) (by simpa [Env.afterAll] using he)

/-- The event that raised an error is recorded as failed (R13). -/
theorem event_isFail {c : Cfg} {en : Env} {a : Action} {e : ErrKind} (h : en.error a = some e) :
    (a.event c en).isFail = true := by
  cases a <;> simp only [Env.error, Action.event] at *
  · cases hb : en.busAnswer <;> simp_all [Event.isFail]
  · cases hb : en.busAnswer <;> simp_all [Event.isFail]
  · cases hb : en.pinAnswer <;> simp_all [Event.isFail]
  · cases h

/-- `SEQ` stays in its operation. -/
theorem advance_inInit (s : State) : s.advance.seq.inInit = s.seq.inInit := by
  cases h : s.seq <;> simp only [State.advance, h] <;> rfl

theorem sent_inInit (acts : List Action) (s : State) : (s.sent acts).seq.inInit = s.seq.inInit := by
  induction acts generalizing s with
  | nil => rfl
  | cons a rest ih => rw [sent_cons, ih, advance_inInit, attempt_seq]

/-- One event does the same from two places in the same operation. -/
theorem attempt_seq_irrelevant (a : Action) (s : State) {q : Seq} (hq : q.inInit = s.seq.inInit) :
    attempt a { s with seq := q } = ({ (attempt a s).1 with seq := q }, (attempt a s).2) := by
  cases a with
  | cmd n => simp only [attempt, State.busCmd, hq]; split <;> rfl
  | data bs => simp only [attempt, State.busData, hq]; split <;> rfl
  | pin l => simp only [attempt, State.pinSet, hq]; split <;> rfl
  | delay us => rfl

/-- The run of a list is the same for two ways to end it that agree, from two states that differ only in the place inside
the operation that runs. -/
theorem runActs_seq_irrelevant {done done' : State → State} (acts : List Action) (s : State) (q : Seq)
    (hq : q.inInit = s.seq.inInit) (hdone : ∀ t q', done' { t with seq := q' } = done t) :
    runActs done' acts { s with seq := q } = runActs done acts s := by
  induction acts generalizing s q with
  | nil => exact hdone s q
  | cons a rest ih =>
    have hatt := attempt_seq_irrelevant a s hq
    have hadv : ∀ (t : State) (q : Seq), ∃ q', q'.inInit = q.inInit ∧
        ({ t with seq := q } : State).advance = { t.advance with seq := q' } := by
      intro t q
      refine ⟨({ t with seq := q } : State).advance.seq, advance_inInit _, ?_⟩
      cases q <;> cases ht : t.seq <;> simp only [State.advance, ht]
    rw [runActs, runActs, hatt]
    cases h2 : (attempt a s).2 with
    | none =>
      have h3 : attempt a s = ((attempt a s).1, none) := Prod.ext rfl h2
      rw [h3]
      obtain ⟨q', hi, hq'⟩ := hadv (attempt a s).1 q
      simp only [hq']
      exact ih _ q' (by rw [hi, hq, advance_inInit, attempt_seq])
    | some e =>
      have h3 : attempt a s = ((attempt a s).1, some e) := Prod.ext rfl h2
      rw [h3]
      rfl

end Sys2Proof.Machine
end

