-- ==== Sys2Proof/Laws/Exec.lean ====
section
/-! SUPPORT. What `exec` is for every instruction at once: a request with the operation's event list and its end
(`exec_request`), so the run of that list on a live idle block (`exec_live`), or a refusal. -/

namespace Sys2Proof.Machine

/-! ## Requests -/

theorem request_live {op : Instr} {plan : Driver → List Action} {done : Driver → State → State} {s : State} {d : Driver}
    (h : LiveIdle s d) : s.request op plan done = .next (runActs (done d) (plan d) (s.start op)) := by
  simp only [State.request, h.1, h.2]

theorem request_busy {op op' : Instr} {k : Nat} {plan : Driver → List Action} {done : Driver → State → State} {s : State}
    (h : s.seq = .running op' k) : s.request op plan done = .refused .busy := by
  simp only [State.request, h]

theorem request_not_live {op : Instr} {plan : Driver → List Action} {done : Driver → State → State} {s : State}
    (hs : s.seq = .idle) (hl : ∀ d, s.life ≠ .live d) : s.request op plan done = .refused .notAdmitted := by
  cases h : s.life <;> simp only [State.request, hs, h]
  exact absurd h (hl _)

theorem request_next_inv {op : Instr} {plan : Driver → List Action} {done : Driver → State → State} {s t : State}
    (h : s.request op plan done = .next t) :
    ∃ d, LiveIdle s d ∧ t = runActs (done d) (plan d) (s.start op) := by
  cases hs : s.seq with
  | running op' k => rw [request_busy hs] at h; cases h
  | idle =>
    cases hl : s.life with
    | live d =>
      rw [request_live ⟨hs, hl⟩] at h
      exact ⟨d, ⟨hs, hl⟩, (Host.Outcome.next.inj h).symm⟩
    | absent => rw [request_not_live hs (by simp [hl])] at h; cases h
    | released => rw [request_not_live hs (by simp [hl])] at h; cases h

/-! ## `exec` -/

/-- Every row but NEW is a request with its own list and its own end; a tuning name must be a member of the set, a
one-byte payload a value of its parameter. -/
theorem exec_request {i : Instr} {s : State} (hn : isNew i = false) (hwf : i.wf s.cfg = true) :
    exec i s = s.request i (fun d => planOf s.cfg d i) (fun d => doneOf d i) := by
  cases i with
  | new => cases hn
  | madctl p => simp only [exec, execMadctl, if_pos hwf]; rfl
  | colmod p => simp only [exec, execColmod, if_pos hwf]; rfl
  | tuneA k => simp only [Instr.wf, decide_eq_true_eq] at hwf; simp only [exec, execTuneA, if_pos hwf]; rfl
  | tuneB k => simp only [Instr.wf, decide_eq_true_eq] at hwf; simp only [exec, execTuneB, if_pos hwf]; rfl
  | _ => rfl

/-- On a live idle block every request but NEW is the run of its list, ended by its own end. -/
theorem exec_live {i : Instr} {s : State} {d : Driver} (h : LiveIdle s d) (hn : isNew i = false)
    (hwf : i.wf s.cfg = true) :
    exec i s = .next (runActs (doneOf d i) (planOf s.cfg d i) (s.start i)) := by
  rw [exec_request hn hwf, request_live h]

/-- A next state of a request but NEW is the run of its list on a live idle block. -/
theorem exec_next_inv {i : Instr} {s t : State} (h : exec i s = .next t) (hn : isNew i = false) :
    ∃ d, LiveIdle s d ∧ t = runActs (doneOf d i) (planOf s.cfg d i) (s.start i) := by
  cases i with
  | new => cases hn
  | madctl p =>
    simp only [exec, execMadctl] at h
    split at h
    · exact request_next_inv h
    · cases h
  | colmod p =>
    simp only [exec, execColmod] at h
    split at h
    · exact request_next_inv h
    · cases h
  | tuneA k =>
    simp only [exec, execTuneA] at h
    split at h
    · exact request_next_inv h
    · cases h
  | tuneB k =>
    simp only [exec, execTuneB] at h
    split at h
    · exact request_next_inv h
    · cases h
  | _ => exact request_next_inv h

/-- A next state of NEW: the block was idle and not live. -/
theorem execNew_next_inv {b : BusHandle} {p : Option PinHandle} {w h : Half} {s t : State}
    (hx : exec (.new b p w h) s = .next t) :
    s.seq = .idle ∧ (s.life = .absent ∨ s.life = .released) ∧ t = (s.construct b p w h).respond .unit := by
  cases hs : s.seq <;> cases hl : s.life <;> simp only [exec, execNew, hs, hl] at hx <;>
    first | (cases hx; done) | exact ⟨rfl, by simp, (Host.Outcome.next.inj hx).symm⟩

@[simp] theorem doneOf_cfg (d : Driver) (i : Instr) (s : State) : (doneOf d i s).cfg = s.cfg := by cases i <;> rfl
@[simp] theorem doneOf_seq (d : Driver) (i : Instr) (s : State) : (doneOf d i s).seq = .idle := by cases i <;> rfl
@[simp] theorem doneOf_trace (d : Driver) (i : Instr) (s : State) : (doneOf d i s).trace = s.trace := by cases i <;> rfl
@[simp] theorem doneOf_rstLine (d : Driver) (i : Instr) (s : State) : (doneOf d i s).rstLine = s.rstLine := by
  cases i <;> rfl
@[simp] theorem doneOf_env (d : Driver) (i : Instr) (s : State) : (doneOf d i s).env = s.env := by cases i <;> rfl
@[simp] theorem doneOf_port (d : Driver) (i : Instr) (s : State) : (doneOf d i s).port = s.port := by cases i <;> rfl
@[simp] theorem doneOf_placed (d : Driver) (i : Instr) (s : State) : (doneOf d i s).placed = s.placed := by
  cases i <;> rfl

/-- No operation ends with an error unless an event failed. -/
theorem doneOf_resp_ok (d : Driver) (i : Instr) (s : State) : ∃ v, (doneOf d i s).resp = some (.ok v) := by
  cases i <;> exact ⟨_, rfl⟩

/-- The end of an operation ignores `SEQ`. -/
theorem doneOf_seq_irrelevant (d : Driver) (i : Instr) (s : State) (q : Seq) :
    doneOf d i { s with seq := q } = doneOf d i s := by
  cases i <;> rfl

/-- Everything a request but NEW can leave on a live idle block: its list was answered ok and it ended its own way, or a
first event failed and its error was raised. -/
theorem exec_cases {i : Instr} {s t : State} {d : Driver} (hd : LiveIdle s d) (hn : isNew i = false)
    (h : exec i s = .next t) :
    (s.env.allOk (planOf s.cfg d i) = true ∧ t = doneOf d i ((s.start i).sent (planOf s.cfg d i))) ∨
    ∃ pre a post e, planOf s.cfg d i = pre ++ a :: post ∧ s.env.allOk pre = true ∧
      (s.env.afterAll pre).error a = some e ∧ t = (attempt a ((s.start i).sent pre)).1.raise e := by
  obtain ⟨d', hd', rfl⟩ := exec_next_inv h hn
  obtain rfl : d = d' := by have := hd.2.symm.trans hd'.2; simpa using this
  exact runActs_cases _ _ (s.start i)

/-- The request's first failing event ends it (R203, R204). -/
theorem exec_fails {s : State} {d : Driver} {i : Instr} {pre post : List Action} {a : Action} {e : ErrKind}
    (hd : LiveIdle s d) (hn : isNew i = false) (hwf : i.wf s.cfg = true) (hp : planOf s.cfg d i = pre ++ a :: post)
    (hok : s.env.allOk pre = true) (he : (s.env.afterAll pre).error a = some e) :
    exec i s = .next ((attempt a ((s.start i).sent pre)).1.raise e) := by
  rw [exec_live hd hn hwf, hp, runActs_fails (by simpa using hok) (by simpa using he)]

/-- An error response comes from a first failing event of a live request but NEW. -/
theorem exec_error_inv {i : Instr} {s t : State} {e : ErrKind} (h : exec i s = .next t) (hr : t.resp = some (.err e)) :
    isNew i = false ∧ ∃ d pre a post, LiveIdle s d ∧ planOf s.cfg d i = pre ++ a :: post ∧ s.env.allOk pre = true ∧
      (s.env.afterAll pre).error a = some e ∧ t = (attempt a ((s.start i).sent pre)).1.raise e := by
  cases hn : isNew i with
  | false =>
    obtain ⟨d, hd, _⟩ := exec_next_inv h hn
    rcases exec_cases hd hn h with ⟨_, rfl⟩ | ⟨pre, a, post, e', h1, h2, h3, rfl⟩
    · obtain ⟨v, hv⟩ := doneOf_resp_ok d i ((s.start i).sent (planOf s.cfg d i))
      simp [hv] at hr
    · obtain rfl : e' = e := by simpa using hr
      exact ⟨rfl, d, pre, a, post, hd, h1, h2, h3, rfl⟩
  | true =>
    cases i <;> simp only [isNew, reduceCtorEq] at hn
    obtain ⟨_, _, rfl⟩ := execNew_next_inv h
    simp at hr

/-! ## What the lists put on the wire -/

@[simp] theorem wireView_append (xs ys : List Event) : wireView (xs ++ ys) = wireView xs ++ wireView ys := by
  simp [wireView]

@[simp] theorem okEvents_append (c : Cfg) (xs ys : List Action) :
    okEvents c (xs ++ ys) = okEvents c xs ++ okEvents c ys := by
  simp [okEvents]

@[simp] theorem wireView_okEvents_nil (c : Cfg) : wireView (okEvents c []) = [] := rfl

@[simp] theorem wireView_okEvents_cmd (c : Cfg) (n : WireName) (rest : List Action) :
    wireView (okEvents c (.cmd n :: rest)) = .c (c.opc n) :: wireView (okEvents c rest) := rfl

@[simp] theorem wireView_okEvents_delay (c : Cfg) (us : Nat) (rest : List Action) :
    wireView (okEvents c (.delay us :: rest)) = wireView (okEvents c rest) := rfl

@[simp] theorem wireView_okEvents_pin (c : Cfg) (l : Level) (rest : List Action) :
    wireView (okEvents c (.pin l :: rest)) = wireView (okEvents c rest) := rfl

/-- The bytes of a payload are the same under every cutting (R82, U15). -/
@[simp] theorem wireView_dataActs (c : Cfg) (k : Cut) (bs : List Byte) :
    wireView (okEvents c (dataActs k bs)) = bs.map .d := by
  have h : ∀ css : List (List Byte), wireView (okEvents c (css.map .data)) = css.flatten.map .d := by
    intro css
    induction css with
    | nil => rfl
    | cons x rest ih =>
      simp only [wireView, okEvents, List.map_cons, List.flatMap_cons, List.flatten_cons, List.map_append] at ih ⊢
      rw [ih]
      rfl
  rw [dataActs, h, flatten_cutInto]

@[simp] theorem wireView_tableActs (c : Cfg) (k : Cut) (bs : List Byte) :
    wireView (okEvents c (tableActs k bs)) = bs.map .d := by
  simp only [tableActs]
  split
  · simp_all
  · simp

@[simp] theorem noPin_dataActs (k : Cut) (bs : List Byte) : (dataActs k bs).all Action.noPin = true := by
  simp [dataActs, Action.noPin]

@[simp] theorem noPin_tableActs (k : Cut) (bs : List Byte) : (tableActs k bs).all Action.noPin = true := by
  simp only [tableActs]
  split <;> simp

/-- A list without pin sets, every event answered ok, ended by an end that writes no register: the whole next state. -/
theorem exec_emitted {i : Instr} {s : State} {d : Driver} (h : LiveIdle s d) (hn : isNew i = false)
    (hwf : i.wf s.cfg = true) (hp : (planOf s.cfg d i).all Action.noPin = true)
    (hok : s.env.allOk (planOf s.cfg d i) = true) :
    ∃ u, exec i s = .next (doneOf d i u) ∧ u.life = s.life ∧ u.cfg = s.cfg ∧ u.port = s.port ∧
      u.placed = s.placed ∧ u.rstLine = s.rstLine ∧ u.trace = s.trace ++ okEvents s.cfg (planOf s.cfg d i) ∧
      u.env = s.env.afterAll (planOf s.cfg d i) ∧
      u.panel = s.panel.recvAll s.cfg s.dims (wireView (okEvents s.cfg (planOf s.cfg d i))) := by
  have hdims : (s.start i).dims = s.dims := dims_of_life (start_life i s)
  refine ⟨(s.start i).sent (planOf s.cfg d i), ?_, by simp, by simp, by simp, by simp, ?_, ?_, by simp, ?_⟩
  · rw [exec_live h hn hwf, runActs_allOk (by simpa using hok)]
  · rw [sent_rstLine hp]; rfl
  · rw [sent_trace (by simpa using hok)]; rfl
  · rw [sent_panel hp (by simpa using hok), hdims]; rfl

/-- The same for an operation that returns unit and writes no register. -/
theorem exec_returnUnit {i : Instr} {s : State} {d : Driver} (h : LiveIdle s d) (hn : isNew i = false)
    (hwf : i.wf s.cfg = true) (hp : (planOf s.cfg d i).all Action.noPin = true)
    (hdone : doneOf d i = returnUnit d) (hok : s.env.allOk (planOf s.cfg d i) = true) :
    ∃ t, exec i s = .next t ∧ t.life = s.life ∧ t.resp = some (.ok .unit) ∧ Emitted (planOf s.cfg d i) s t := by
  obtain ⟨u, hx, hl, hc, hpt, hpl, hr, htr, he, hpa⟩ := exec_emitted h hn hwf hp hok
  rw [hdone] at hx
  exact ⟨returnUnit d u, hx, by simpa using hl, rfl, by simp [Emitted, hc, hpt, hpl, hr, htr, he, hpa]⟩

end Sys2Proof.Machine
end

