-- ==== Sys2Proof/Laws/PerInstr.lean ====
section
/-! SUPPORT. The family `RowHead`: what names the row stands first in every instruction's frame. A host operation's frame
begins with its `OPSEL` (R95), every other row's with the command byte of a member of the Instruction Set (R80, R110). -/

namespace Sys2Proof.Laws.RowHead

open Sys2Proof Sys2Proof.Machine

/-- The `OPSEL` of a host operation (R95), and the instruction whose command byte a wire row begins with (R110, R170). -/
def head : Instr → Nat ⊕ WireName
  | .swreset => .inr .swreset
  | .slpout => .inr .slpout
  | .dispon => .inr .dispon
  | .caset _ _ => .inr .caset
  | .raset _ _ => .inr .raset
  | .ramwr _ => .inr .ramwr
  | .teoff => .inr .teoff
  | .teon _ => .inr .teon
  | .madctl _ => .inr .madctl
  | .vscad _ => .inr .vscad
  | .colmod _ => .inr .colmod
  | .tuneA k => .inr (.tuneA k)
  | .tuneB k => .inr (.tuneB k)
  | .gammaPos => .inr .gammaPos
  | .gammaNeg => .inr .gammaNeg
  | .new _ _ _ _ => .inl 0x0
  | .hardReset _ => .inl 0x1
  | .init _ => .inl 0x2
  | .orientation => .inl 0x3
  | .setOrientation _ => .inl 0x4
  | .setPixel _ _ _ => .inl 0x5
  | .setPixels _ _ _ _ _ => .inl 0x6
  | .setScrollOffset _ => .inl 0x7
  | .setTearingEffect _ => .inl 0x8
  | .release => .inl 0x9
  | .setAddressWindow _ _ _ _ => .inr .caset

/-- The frame of the instruction begins with its head, under every configuration. -/
def Statement (i : Instr) : Prop :=
  ∀ c : Cfg,
    match head i, encode c i with
    | .inl op, .host bits _ => 4 ≤ bits.length ∧ ofMsbBits (bits.take 4) = op
    | .inr n, .wire bytes => bytes.head? = some (.c (c.opc n))
    | .inl _, .wire _ => False
    | .inr _, .host _ _ => False

theorem swreset : Statement .swreset := fun _ => rfl
theorem slpout : Statement .slpout := fun _ => rfl
theorem dispon : Statement .dispon := fun _ => rfl
theorem caset (sx ex : Half) : Statement (.caset sx ex) := fun _ => rfl
theorem raset (sy ey : Half) : Statement (.raset sy ey) := fun _ => rfl
theorem ramwr (colors : List Color) : Statement (.ramwr colors) := fun _ => rfl
theorem teoff : Statement .teoff := fun _ => rfl
theorem teon (m : TeonMode) : Statement (.teon m) := fun _ => rfl
theorem madctl (p : Byte) : Statement (.madctl p) := fun _ => rfl
theorem vscad (offset : Half) : Statement (.vscad offset) := fun _ => rfl
theorem colmod (p : Byte) : Statement (.colmod p) := fun _ => rfl
theorem tuneA (k : Nat) : Statement (.tuneA k) := fun _ => rfl
theorem tuneB (k : Nat) : Statement (.tuneB k) := fun _ => rfl
theorem gammaPos : Statement .gammaPos := fun _ => rfl
theorem gammaNeg : Statement .gammaNeg := fun _ => rfl
theorem new (bus : BusHandle) (pin : Option PinHandle) (w h : Half) : Statement (.new bus pin w h) :=
  fun _ => ⟨by simp [requestBits], rfl⟩
theorem hardReset (delay : DelayProvider) : Statement (.hardReset delay) := fun _ => ⟨by simp [requestBits], rfl⟩
theorem init (delay : DelayProvider) : Statement (.init delay) := fun _ => ⟨by simp [requestBits], rfl⟩
theorem orientation : Statement .orientation := fun _ => ⟨by simp [requestBits], rfl⟩
theorem setOrientation (o : Orientation) : Statement (.setOrientation o) := fun _ => ⟨by simp, rfl⟩
theorem setPixel (x y : Half) (color : Color) : Statement (.setPixel x y color) := fun _ => ⟨by simp [requestBits], rfl⟩
theorem setPixels (sx sy ex ey : Half) (colors : List Color) : Statement (.setPixels sx sy ex ey colors) :=
  fun _ => ⟨by simp [requestBits], rfl⟩
theorem setScrollOffset (offset : Half) : Statement (.setScrollOffset offset) := fun _ => ⟨by simp [requestBits], rfl⟩
theorem setTearingEffect (m : TeMode) : Statement (.setTearingEffect m) := fun _ => ⟨by simp, rfl⟩
theorem release : Statement .release := fun _ => ⟨by simp [requestBits], rfl⟩
theorem setAddressWindow (sx sy ex ey : Half) : Statement (.setAddressWindow sx sy ex ey) := fun _ => rfl

end Sys2Proof.Laws.RowHead
end

