-- ==== Sys2Proof/Laws/Step.lean ====
section
/-! SUPPORT. Everything a step can do, said once: `step_next_inv`, and `continue_next_inv` for the middle of an
operation. -/

namespace Sys2Proof.Machine

/-- A next state in the middle of an operation: its next event failed and ended it, or was answered ok and was, or was
not, its last (R30, R203). -/
theorem continue_next_inv {op : Instr} {k : Nat} {s t : State} (h : s.continue op k = .next t) :
    ∃ d a, s.life = .live d ∧ (planOf s.cfg d op)[k]? = some a ∧
      ((∃ e, s.env.error a = some e ∧ t = (attempt a s).1.raise e) ∨
        (s.env.error a = none ∧ k + 1 < (planOf s.cfg d op).length ∧ t = (attempt a s).1.advance) ∨
        (s.env.error a = none ∧ (planOf s.cfg d op).length ≤ k + 1 ∧ t = doneOf d op (attempt a s).1.advance)) := by
  simp only [State.continue] at h
  split at h
  · cases h
  · cases h
  · rename_i d hl
    split at h
    · cases h
    · rename_i a ha
      refine ⟨d, a, hl, ha, ?_⟩
      have he := attempt_error a s
      split at h
      · rename_i s' e hatt
        rw [hatt] at he
        exact .inl ⟨e, he.symm, by rw [hatt]; exact (Host.Outcome.next.inj h).symm⟩
      · rename_i s' hatt
        rw [hatt] at he
        split at h
        · rename_i hlt
          exact .inr (.inl ⟨he.symm, hlt, by rw [hatt]; exact (Host.Outcome.next.inj h).symm⟩)
        · rename_i hlt
          exact .inr (.inr ⟨he.symm, Nat.le_of_not_lt hlt, by rw [hatt]; exact (Host.Outcome.next.inj h).symm⟩)

/-- A next state of a step: an event of the operation that runs; the run of the protocol step placed beside the port; the
run of the request at its head; or, with neither, the same state. -/
theorem step_next_inv {s t : State} (h : step s = .next t) :
    (∃ op k, s.seq = .running op k ∧ s.continue op k = .next t) ∨
    (s.seq = .idle ∧ ∃ bytes i, s.placed = some bytes ∧ decode s.cfg (.wire bytes) = .ok i ∧
      exec i { s with placed := none } = .next t) ∨
    (s.seq = .idle ∧ s.placed = none ∧ ∃ r rest i, s.port = r :: rest ∧ decode s.cfg (.host r.bits r.side) = .ok i ∧
      exec i { s with port := rest } = .next t) ∨
    (s.seq = .idle ∧ s.placed = none ∧ s.port = [] ∧ t = s) := by
  cases hs : s.seq with
  | running op k =>
    simp only [step, hs] at h
    exact .inl ⟨op, k, rfl, h⟩
  | idle =>
    cases hp : s.placed with
    | some bytes =>
      cases hd : decode s.cfg (.wire bytes) with
      | error r => simp only [step, hs, hp, hd, reduceCtorEq] at h
      | ok i =>
        simp only [step, hs, hp, hd] at h
        exact .inr (.inl ⟨rfl, bytes, i, rfl, hd, by rw [← h, ← hs]⟩)
    | none =>
      cases hq : s.port with
      | nil =>
        simp only [step, hs, hp, hq] at h
        exact .inr (.inr (.inr ⟨rfl, rfl, rfl, (Host.Outcome.next.inj h).symm⟩))
      | cons r rest =>
        cases hd : decode s.cfg (.host r.bits r.side) with
        | error e => simp only [step, hs, hp, hq, hd, reduceCtorEq] at h
        | ok i =>
          simp only [step, hs, hp, hq, hd] at h
          exact .inr (.inr (.inl ⟨rfl, rfl, r, rest, i, rfl, hd, by rw [← h, ← hs, ← hp]⟩))

/-- One event keeps the controller's canonical form. -/
theorem canonical_attempt (a : Action) {s : State} (h : s.panel.Canonical) : (attempt a s).1.panel.Canonical := by
  cases a with
  | cmd n =>
    simp only [attempt, State.busCmd]
    split
    · exact canonical_recv s.cfg s.dims h (.c _)
    · exact canonical_nothing _
  | data bs =>
    simp only [attempt, State.busData]
    split
    · exact canonical_recvAll _ _ _ h
    · exact canonical_nothing _
  | pin l => simp only [attempt, State.pinSet]; split <;> exact canonical_nothing _
  | delay us => exact h

end Sys2Proof.Machine
end

