-- ==== Sys2Proof/Laws/Steps.lean ====
section
/-! SUPPORT. What one whole protocol step, delivered to an initialised controller, leaves of it: one lemma for each row of
the wire space but RAMWR, whose pixels come one by one (`recvAll_ramwr`). -/

namespace Sys2Proof.Machine

theorem recvAll_append (c : Cfg) (dims : Nat × Nat) (xs ys : List WireByte) (p : Panel) :
    p.recvAll c dims (xs ++ ys) = (p.recvAll c dims xs).recvAll c dims ys := by
  simp [Panel.recvAll, List.foldl_append]

@[simp] theorem recvAll_nil (c : Cfg) (dims : Nat × Nat) (p : Panel) : p.recvAll c dims [] = p := rfl

theorem recvAll_cons (c : Cfg) (dims : Nat × Nat) (b : WireByte) (bs : List WireByte) (p : Panel) :
    p.recvAll c dims (b :: bs) = (p.recv c dims b).recvAll c dims bs := rfl

/-- The command byte of a member, on a controller that takes commands. -/
theorem recv_opc {c : Cfg} (h : c.wf = true) {n : WireName} (hn : n ∈ c.names) (dims : Nat × Nat) {p : Panel}
    (hb : p.bringup = .ready) :
    p.recv c dims (.c (c.opc n)) = Panel.onCommand c n { p with cmd := some (c.opc n), args := [] } := by
  simp only [Panel.recv, Panel.recvCmd, nameOf_opc h hn, hb]

/-- A data byte of a member's payload, on a controller that takes commands. -/
theorem recv_data {c : Cfg} (h : c.wf = true) {n : WireName} (hn : n ∈ c.names) (dims : Nat × Nat) {p : Panel}
    (hb : p.bringup = .ready) (hc : p.cmd = some (c.opc n)) (b : Byte) :
    p.recv c dims (.d b) = Panel.onData c dims n (p.args ++ [b]) { p with args := p.args ++ [b] } := by
  simp only [Panel.recv, Panel.recvData, hb, hc, Option.bind_some, nameOf_opc h hn]

/-- The bytes of a payload that is not complete yet are kept, and nothing else happens. -/
theorem recvAll_incomplete {c : Cfg} (h : c.wf = true) {n : WireName} (hn : n ∈ c.names) (dims : Nat × Nat)
    (ds : List Byte) {q : Panel} (hb : q.bringup = .ready) (hc : q.cmd = some (c.opc n))
    (hpre : ∀ as (r : Panel), as.length ≤ q.args.length + ds.length → Panel.onData c dims n as r = r) :
    q.recvAll c dims (ds.map .d) = { q with args := q.args ++ ds } := by
  induction ds generalizing q with
  | nil => simp
  | cons b rest ih =>
    rw [List.map_cons, recvAll_cons, recv_data h hn dims hb hc, hpre _ _ (by simp), ih (by exact hb) (by exact hc)]
    · simp
    · intro as r hl
      exact hpre as r (by simp at hl ⊢; omega)

/-- A fixed-length payload has its effect when its last byte arrives. -/
theorem recvAll_complete {c : Cfg} (h : c.wf = true) {n : WireName} (hn : n ∈ c.names) (dims : Nat × Nat)
    (ds : List Byte) (b : Byte) {p : Panel} (hb : p.bringup = .ready)
    (hcmd : ∀ q : Panel, (Panel.onCommand c n q).cmd = q.cmd ∧ (Panel.onCommand c n q).args = q.args)
    (hpre : ∀ as (r : Panel), as.length ≤ ds.length → Panel.onData c dims n as r = r) :
    p.recvAll c dims (stepBytes c n (ds ++ [b]))
      = Panel.onData c dims n (ds ++ [b])
          { Panel.onCommand c n { p with cmd := some (c.opc n), args := [] } with args := ds ++ [b] } := by
  have hready : (Panel.onCommand c n { p with cmd := some (c.opc n), args := [] }).bringup = .ready :=
    (onCommand_fields c n _).1.trans hb
  rw [stepBytes, List.map_append, recvAll_cons, recv_opc h hn dims hb, recvAll_append,
    recvAll_incomplete h hn dims ds hready (hcmd _).1 (fun as r hl => hpre as r (by simpa [(hcmd _).2] using hl)),
    List.map_singleton, recvAll_cons, recv_data h hn dims (by exact hready) (by exact (hcmd _).1), recvAll_nil]
  simp [(hcmd _).2]

/-- Where no INIT has returned Ok, or the line may hold the controller, the steps of the Instruction Set teach nothing
(R236). -/
theorem recvAll_not_ready {c : Cfg} (h : c.wf = true) {n : WireName} (hn : n ∈ c.names) (dims : Nat × Nat)
    (ds : List Byte) {p : Panel} (hb : p.bringup ≠ .ready) (hp : p = p.forget) :
    p.recvAll c dims (stepBytes c n ds) = p := by
  have hc : p.recv c dims (.c (c.opc n)) = p := by
    simp only [Panel.recv, Panel.recvCmd, nameOf_opc h hn]
    split
    · exact absurd ‹_› hb
    · exact hp.symm
    · exact hp.symm
  have hd : ∀ b : Byte, p.recv c dims (.d b) = p := by
    intro b
    simp only [Panel.recv, Panel.recvData]
    split
    · rfl
    · rfl
    · exact absurd ‹_› hb
  rw [stepBytes, recvAll_cons, hc]
  induction ds with
  | nil => rfl
  | cons b rest ih => rw [List.map_cons, recvAll_cons, hd, ih]

section
variable {c : Cfg} (h : c.wf = true) (dims : Nat × Nat) {p : Panel} (hb : p.bringup = .ready)
include h hb

theorem recvAll_swreset :
    p.recvAll c dims (stepBytes c .swreset []) = { p.forget with cmd := some (c.opc .swreset) } := by
  rw [stepBytes, recvAll_cons, recv_opc h (n := .swreset) (mem_names c (by simp)) dims hb]
  rfl

theorem recvAll_slpout :
    p.recvAll c dims (stepBytes c .slpout []) = { p with cmd := some (c.opc .slpout), args := [], asleep := some false } := by
  rw [stepBytes, recvAll_cons, recv_opc h (n := .slpout) (mem_names c (by simp)) dims hb]
  rfl

theorem recvAll_dispon :
    p.recvAll c dims (stepBytes c .dispon [])
      = { p with cmd := some (c.opc .dispon), args := [], displayOn := some true } := by
  rw [stepBytes, recvAll_cons, recv_opc h (n := .dispon) (mem_names c (by simp)) dims hb]
  rfl

theorem recvAll_teoff :
    p.recvAll c dims (stepBytes c .teoff []) = { p with cmd := some (c.opc .teoff), args := [], tearing := some .off } := by
  rw [stepBytes, recvAll_cons, recv_opc h (n := .teoff) (mem_names c (by simp)) dims hb]
  rfl

theorem recvAll_caset (x0 x1 : Half) :
    p.recvAll c dims (stepBytes c .caset (be16 x0 ++ be16 x1))
      = { p with
          cmd := some (c.opc .caset), args := be16 x0 ++ be16 x1, xs := some x0, xe := some x1
          fm := if p.columnsFit c dims x0.toNat x1.toNat then p.fm else [] } := by
  have hpre : ∀ as (r : Panel), as.length ≤ 3 → Panel.onData c dims .caset as r = r := by
    intro as r hl
    rcases as with _ | ⟨a1, _ | ⟨a2, _ | ⟨a3, _ | ⟨a4, as⟩⟩⟩⟩ <;> first | rfl | (simp only [List.length_cons] at hl; omega)
  refine (recvAll_complete h (mem_names c (by simp)) dims [x0.extractLsb' 8 8, x0.extractLsb' 0 8, x1.extractLsb' 8 8] (x1.extractLsb' 0 8) hb (fun _ => ⟨rfl, rfl⟩) hpre).trans ?_
  have e : ∀ v : Half, ofBe (v.extractLsb' 8 8) (v.extractLsb' 0 8) = v := ofBe_be16
  simp only [Panel.onCommand, Panel.onData, List.cons_append, List.nil_append, e, be16]
  rfl

theorem recvAll_raset (y0 y1 : Half) :
    p.recvAll c dims (stepBytes c .raset (be16 y0 ++ be16 y1))
      = { p with
          cmd := some (c.opc .raset), args := be16 y0 ++ be16 y1, ys := some y0, ye := some y1
          fm := if p.rowsFit c dims y0.toNat y1.toNat then p.fm else [] } := by
  have hpre : ∀ as (r : Panel), as.length ≤ 3 → Panel.onData c dims .raset as r = r := by
    intro as r hl
    rcases as with _ | ⟨a1, _ | ⟨a2, _ | ⟨a3, _ | ⟨a4, as⟩⟩⟩⟩ <;> first | rfl | (simp only [List.length_cons] at hl; omega)
  refine (recvAll_complete h (mem_names c (by simp)) dims [y0.extractLsb' 8 8, y0.extractLsb' 0 8, y1.extractLsb' 8 8] (y1.extractLsb' 0 8) hb (fun _ => ⟨rfl, rfl⟩) hpre).trans ?_
  have e : ∀ v : Half, ofBe (v.extractLsb' 8 8) (v.extractLsb' 0 8) = v := ofBe_be16
  simp only [Panel.onCommand, Panel.onData, List.cons_append, List.nil_append, e, be16]
  rfl

theorem recvAll_vscad (v : Half) :
    p.recvAll c dims (stepBytes c .vscad (be16 v))
      = { p with cmd := some (c.opc .vscad), args := be16 v, scroll := some v } := by
  have hpre : ∀ as (r : Panel), as.length ≤ 1 → Panel.onData c dims .vscad as r = r := by
    intro as r hl
    rcases as with _ | ⟨a1, _ | ⟨a2, as⟩⟩ <;> first | rfl | (simp only [List.length_cons] at hl; omega)
  refine (recvAll_complete h (mem_names c (by simp)) dims [v.extractLsb' 8 8] (v.extractLsb' 0 8) hb
    (fun _ => ⟨rfl, rfl⟩) hpre).trans ?_
  have e : ofBe (v.extractLsb' 8 8) (v.extractLsb' 0 8) = v := ofBe_be16 v
  simp only [Panel.onCommand, Panel.onData, List.cons_append, List.nil_append, e, be16]

theorem recvAll_teon (m : TeonMode) :
    p.recvAll c dims (stepBytes c .teon [teByte m])
      = { p with
          cmd := some (c.opc .teon), args := [teByte m]
          tearing := some (match m with | .vertical => .vertical | .horizontalAndVertical => .horizontalAndVertical) } := by
  refine (recvAll_complete h (mem_names c (by simp)) dims [] (teByte m) hb (fun _ => ⟨rfl, rfl⟩) ?_).trans ?_
  · intro as r hl
    rcases as with _ | ⟨a1, as⟩ <;> first | rfl | (simp only [List.length_cons, List.length_nil] at hl; omega)
  · cases m <;> rfl

theorem recvAll_madctl (b : Byte) :
    p.recvAll c dims (stepBytes c .madctl [b])
      = { p with
          cmd := some (c.opc .madctl), args := [b], madctl := some b
          fm := if p.madctl = some b then p.fm else [] } := by
  refine (recvAll_complete h (mem_names c (by simp)) dims [] b hb (fun _ => ⟨rfl, rfl⟩) ?_).trans ?_
  · intro as r hl
    rcases as with _ | ⟨a1, as⟩ <;> first | rfl | (simp only [List.length_cons, List.length_nil] at hl; omega)
  · show (if p.madctl = some b then _ else _) = _
    split
    · rename_i hm
      simp only [Panel.onCommand, ← hm]
      rfl
    · rename_i hm
      simp only [Panel.onCommand]
      rfl

theorem recvAll_colmod {b : Byte} (hc : c.colmod16.contains b = true) :
    p.recvAll c dims (stepBytes c .colmod [b])
      = { p with cmd := some (c.opc .colmod), args := [b], colmod := some b } := by
  refine (recvAll_complete h (mem_names c (by simp)) dims [] b hb (fun _ => ⟨rfl, rfl⟩) ?_).trans ?_
  · intro as r hl
    rcases as with _ | ⟨a1, as⟩ <;> first | rfl | (simp only [List.length_cons, List.length_nil] at hl; omega)
  · simp only [Panel.onCommand, Panel.onData, List.nil_append, hc, if_true]

/-- A table step leaves its payload under its opcode. -/
theorem recvAll_table {n : WireName} (hn : n ∈ c.names)
    (ht : (∃ k, n = .tuneA k) ∨ (∃ k, n = .tuneB k) ∨ n = .gammaPos ∨ n = .gammaNeg) (bs : List Byte) :
    p.recvAll c dims (stepBytes c n bs)
      = { p with cmd := some (c.opc n), args := bs, tables := setCell (c.opc n).toNat bs p.tables } := by
  have hcmd : ∀ q : Panel, Panel.onCommand c n q = { q with tables := setCell (c.opc n).toNat [] q.tables } := by
    rcases ht with ⟨k, rfl⟩ | ⟨k, rfl⟩ | rfl | rfl <;> exact fun _ => rfl
  have hdat : ∀ as (q : Panel), Panel.onData c dims n as q = { q with tables := setCell (c.opc n).toNat as q.tables } := by
    rcases ht with ⟨k, rfl⟩ | ⟨k, rfl⟩ | rfl | rfl <;> exact fun _ _ => rfl
  have hall : ∀ (bs as : List Byte) (q : Panel), q.bringup = .ready → q.cmd = some (c.opc n) → q.args = as →
      q.tables = setCell (c.opc n).toNat as p.tables →
      q.recvAll c dims (bs.map .d)
        = { q with args := as ++ bs, tables := setCell (c.opc n).toNat (as ++ bs) p.tables } := by
    intro bs
    induction bs with
    | nil => intro as q _ _ ha ht; cases q; simp_all [Panel.recvAll]
    | cons b rest ih =>
      intro as q hq hc ha ht'
      rw [List.map_cons, recvAll_cons, recv_data h hn dims hq hc, hdat, ih (as ++ [b])]
      · simp
      · exact hq
      · exact hc
      · rw [ha]
      · simp only [ha, ht', setCell_setCell]
  rw [stepBytes, recvAll_cons, recv_opc h hn dims hb, hcmd, hall bs []]
  · simp
  · exact hb
  · rfl
  · rfl
  · rfl

end

end Sys2Proof.Machine
end

