-- ==== Sys2Proof/Tests/Slice0.lean ====
section
/-! SUPPORT. The package's own tests: ill-formed terms that the checks refuse; for every constructor a frame written out
from the spec's encoding; one-step tests whose expected results are vectors of 95_test_vectors.md (V…, S…, P…); and for
every statement with hypotheses a witness that meets them. -/

namespace Sys2Proof.Machine.Tests

open Sys2Proof Sys2Proof.Machine

/-! ## Helpers -/

/-- The start state of the vectors: (Live, true, 320, 240, Portrait). -/
def drv : Driver := ⟨⟨1⟩, some ⟨2⟩, 320, 240, .portrait⟩

/-- The same without a reset pin. -/
def drvNoPin : Driver := { drv with rst := none }

/-- An oracle that answers ok to the next 40 transactions and the next 3 pin sets. -/
def okEnv : Env := ⟨List.replicate 40 .ok, 0, List.replicate 3 .ok, 0⟩

/-- The oracle "fail at k" of 95_test_vectors section 2.4, for bus answers. -/
def busFailAt (k : Nat) : Env := ⟨List.replicate (k - 1) .ok ++ [.fail], 0, List.replicate 3 .ok, 0⟩

/-- "fail(e) at k" for pin answers, with e = 7. -/
def pinFailAt (k : Nat) : Env := ⟨List.replicate 40 .ok, 0, List.replicate (k - 1) .ok ++ [.fail 7], 0⟩

/-- An initialised controller with the Portrait pattern and the pixels (0,0) to (1,1) known. -/
def f0 : Panel :=
  { Panel.unknown with
    bringup := .ready, madctl := some 0x00
    fm := [(0, 0xF0), (1, 0xF1), (65536, 0xF2), (65537, 0xF3)] }

/-- A live idle block. -/
def live (d : Driver) (e : Env) : State :=
  { State.reset with life := .live d, env := e, panel := f0 }

/-- The start state with everything answered ok. -/
def s0 : State := live drv okEnv

/-- The next state, if the step answered one. -/
def next? : Host.Outcome State Fault Refusal → Option State
  | .next t => some t
  | .fault _ => none
  | .refused _ => none

/-- The trace and the response after one instruction. -/
def seen (i : Instr) (s : State) : Option (List Event × Option Response) :=
  (next? (exec i s)).map fun t => (t.trace, t.resp)

/-- The tagged bytes after one instruction. -/
def wire (i : Instr) (s : State) : Option (List WireByte) :=
  (next? (exec i s)).map fun t => wireView t.trace

/-- Bits written as digits. -/
def bits (ds : List Nat) : List Bool := ds.map (· == 1)

/-! ## WellFormed: each check refuses an ill-formed term -/

theorem test_madctl_payload_outside_its_parameter : (Instr.madctl 0x01).wf Cfg.cfg0 = false := by decide
theorem test_madctl_pattern_accepted : (Instr.madctl 0xA0).wf Cfg.cfg0 = true := by decide
theorem test_colmod_payload_outside_its_parameter : (Instr.colmod 0x66).wf Cfg.cfg0 = false := by decide
theorem test_tuneA_past_the_list : (Instr.tuneA 1).wf Cfg.cfg0 = false := by decide
theorem test_tuneB_past_the_list : (Instr.tuneB 8).wf Cfg.cfg0 = false := by decide
theorem test_cfg0_wf : Cfg.cfg0.wf = true := by decide
theorem test_equal_opcodes_refused :
    ({ Cfg.cfg0 with opcodes := { OpcTable.standard with teon := 0x34 } } : Cfg).wf = false := by decide
theorem test_equal_patterns_refused :
    ({ Cfg.cfg0 with patterns := { PatTable.standard with landscape := 0x00 } } : Cfg).wf = false := by decide
theorem test_empty_tuning_group_refused : ({ Cfg.cfg0 with tuneA := [] } : Cfg).wf = false := by decide
theorem test_empty_tuning_group_B_refused : ({ Cfg.cfg0 with tuneB := [] } : Cfg).wf = false := by decide
theorem test_empty_gamma_table_refused : ({ Cfg.cfg0 with gammaPos := [] } : Cfg).wf = false := by decide
theorem test_empty_gamma_table_neg_refused : ({ Cfg.cfg0 with gammaNeg := [] } : Cfg).wf = false := by decide
theorem test_colour_mode_of_no_16_bit_format_refused :
    ({ Cfg.cfg0 with initColmod := 0x66 } : Cfg).wf = false := by decide

/-! ## Decoding: frames written out from R81, R88, R95 -/

theorem test_decode_swreset : decode Cfg.cfg0 (.wire [.c 0x01]) = .ok .swreset := by rfl
theorem test_decode_slpout : decode Cfg.cfg0 (.wire [.c 0x11]) = .ok .slpout := by rfl
theorem test_decode_dispon : decode Cfg.cfg0 (.wire [.c 0x29]) = .ok .dispon := by rfl
theorem test_decode_caset :
    decode Cfg.cfg0 (.wire [.c 0x2A, .d 0x00, .d 0x00, .d 0x01, .d 0x3F]) = .ok (.caset 0 319) := by rfl
theorem test_decode_raset :
    decode Cfg.cfg0 (.wire [.c 0x2B, .d 0x00, .d 0x00, .d 0x00, .d 0xEF]) = .ok (.raset 0 239) := by rfl
theorem test_decode_ramwr : decode Cfg.cfg0 (.wire [.c 0x2C, .d 0xF8, .d 0x00]) = .ok (.ramwr [0xF800]) := by rfl
theorem test_decode_ramwr_empty : decode Cfg.cfg0 (.wire [.c 0x2C]) = .ok (.ramwr []) := by rfl
theorem test_decode_teoff : decode Cfg.cfg0 (.wire [.c 0x34]) = .ok .teoff := by rfl
theorem test_decode_teon : decode Cfg.cfg0 (.wire [.c 0x35, .d 0x00]) = .ok (.teon .vertical) := by rfl
theorem test_decode_madctl : decode Cfg.cfg0 (.wire [.c 0x36, .d 0x60]) = .ok (.madctl 0x60) := by rfl
theorem test_decode_vscad : decode Cfg.cfg0 (.wire [.c 0x37, .d 0x01, .d 0x40]) = .ok (.vscad 320) := by rfl
theorem test_decode_colmod : decode Cfg.cfg0 (.wire [.c 0x3A, .d 0x55]) = .ok (.colmod 0x55) := by rfl
theorem test_decode_tuneA :
    decode Cfg.cfg0 (.wire [.c 0xB2, .d 0x0C, .d 0x0C, .d 0x00, .d 0x33, .d 0x33]) = .ok (.tuneA 0) := by rfl
theorem test_decode_tuneB : decode Cfg.cfg0 (.wire [.c 0xB7, .d 0x35]) = .ok (.tuneB 0) := by rfl
theorem test_decode_gammaPos :
    decode Cfg.cfg0 (.wire [.c 0xE0, .d 0xD0, .d 0x04, .d 0x0D, .d 0x11, .d 0x13, .d 0x2B, .d 0x3F, .d 0x54, .d 0x4C,
      .d 0x18, .d 0x0D, .d 0x0B, .d 0x1F, .d 0x23]) = .ok .gammaPos := by rfl
theorem test_decode_gammaNeg :
    decode Cfg.cfg0 (.wire [.c 0xE1, .d 0xD0, .d 0x04, .d 0x0C, .d 0x11, .d 0x13, .d 0x2C, .d 0x3F, .d 0x44, .d 0x51,
      .d 0x2F, .d 0x1F, .d 0x1F, .d 0x20, .d 0x23]) = .ok .gammaNeg := by rfl
theorem test_decode_setAddressWindow :
    decode Cfg.cfg0 (.wire [.c 0x2A, .d 0x00, .d 0x00, .d 0x01, .d 0x3F, .c 0x2B, .d 0x00, .d 0x00, .d 0x00, .d 0xEF])
      = .ok (.setAddressWindow 0 0 319 239) := by rfl
theorem test_decode_new :
    decode Cfg.cfg0 (.host (bits [0,0,0,0, 0,0,0,0,0,0,0,0,1,1,1,1,0,0,0,0, 0,0,0,0,0,0,0,1,0,1,0,0,0,0,0,0])
      ⟨⟨5⟩, some ⟨6⟩, ⟨0⟩, []⟩) = .ok (.new ⟨5⟩ (some ⟨6⟩) 240 320) := by rfl
theorem test_decode_hardReset :
    decode Cfg.cfg0 (.host (bits [0,0,0,1]) ⟨⟨0⟩, none, ⟨9⟩, []⟩) = .ok (.hardReset ⟨9⟩) := by rfl
theorem test_decode_init : decode Cfg.cfg0 (.host (bits [0,0,1,0]) ⟨⟨0⟩, none, ⟨9⟩, []⟩) = .ok (.init ⟨9⟩) := by rfl
theorem test_decode_orientation : decode Cfg.cfg0 (.host (bits [0,0,1,1]) Side.idle) = .ok .orientation := by rfl
theorem test_decode_setOrientation :
    decode Cfg.cfg0 (.host (bits [0,1,0,0, 1,1]) Side.idle) = .ok (.setOrientation .landscapeSwapped) := by rfl
theorem test_decode_setPixel :
    decode Cfg.cfg0 (.host (bits [0,1,0,1, 0,0,0,0,0,0,0,0,0,0,0,0,1,0,1,0, 0,0,0,0,0,0,0,0,0,0,0,1,0,1,0,0,
      1,1,1,1,1,0,0,0,0,0,0,0,0,0,0,0]) Side.idle) = .ok (.setPixel 10 20 0xF800) := by rfl
theorem test_decode_setPixels :
    decode Cfg.cfg0 (.host (bits [0,1,1,0, 0,0,0,0,0,0,0,0,0,0,0,0,0,0,0,1, 0,0,0,0,0,0,0,0,0,0,0,0,0,0,1,0,
      0,0,0,0,0,0,0,0,0,0,0,0,0,0,1,1, 0,0,0,0,0,0,0,0,0,0,0,0,0,1,0,0]) ⟨⟨0⟩, none, ⟨0⟩, [0x1111]⟩)
      = .ok (.setPixels 1 2 3 4 [0x1111]) := by rfl
theorem test_decode_setScrollOffset :
    decode Cfg.cfg0 (.host (bits [0,1,1,1, 0,0,0,0,0,0,0,1,0,1,0,0,0,0,0,0]) Side.idle)
      = .ok (.setScrollOffset 320) := by rfl
theorem test_decode_setTearingEffect :
    decode Cfg.cfg0 (.host (bits [1,0,0,0, 0,1]) Side.idle) = .ok (.setTearingEffect .vertical) := by rfl
theorem test_decode_release : decode Cfg.cfg0 (.host (bits [1,0,0,1]) Side.idle) = .ok .release := by rfl

/-! What the decoder rejects, by name -/

theorem test_reject_reserved_opsel : decode Cfg.cfg0 (.host (bits [1,0,1,0]) Side.idle) = .error .reservedOpsel := by rfl
theorem test_reject_reserved_mode :
    decode Cfg.cfg0 (.host (bits [1,0,0,0, 1,1]) Side.idle) = .error .reservedTearingMode := by rfl
theorem test_reject_unknown_opcode : decode Cfg.cfg0 (.wire [.c 0x00]) = .error .unknownOpcode := by rfl
theorem test_reject_odd_stream : decode Cfg.cfg0 (.wire [.c 0x2C, .d 0x01]) = .error .oddStream := by rfl
theorem test_reject_short_window :
    decode Cfg.cfg0 (.wire [.c 0x2A, .d 0x01, .d 0x02, .d 0x03]) = .error .wrongPayloadLength := by rfl
theorem test_reject_tearing_payload : decode Cfg.cfg0 (.wire [.c 0x35, .d 0x02]) = .error .badTearingPayload := by rfl
theorem test_reject_madctl_payload :
    decode Cfg.cfg0 (.wire [.c 0x36, .d 0x01]) = .error .payloadOutsideParameter := by rfl
theorem test_reject_colmod_payload :
    decode Cfg.cfg0 (.wire [.c 0x3A, .d 0x66]) = .error .payloadOutsideParameter := by rfl

/-! Words numbered as the opcode table numbers them (log entry 6) -/

theorem test_table_word_caset : decodeTableWord 40 0xFEFF02012A = some (.caset 0x0102 0xFFFE) := by decide
theorem test_table_word_window :
    decodeTableWord 80 0xEF0000002B3F0100002A = some (.setAddressWindow 0 0 319 239) := by decide
theorem test_table_word_setTearingEffect :
    decodeTableWord 6 0x28 = some (.setTearingEffect .horizontalAndVertical) := by decide
theorem test_table_word_new :
    decodeTableWord 36 0x14000F00 = some (.new ⟨0⟩ none 240 320) := by decide
theorem test_first_step_after_reset :
    (next? (step (State.reset.withFetchWord 36 0x14000F00))).map State.life
      = some (.live ⟨⟨0⟩, none, 240, 320, .portrait⟩) := by decide

theorem test_table_word_colmod_is_its_own_parameter : decodeTableWord 16 0x3A = some (.colmod 0) := by decide
theorem test_table_word_madctl_is_its_own_parameter : decodeTableWord 16 0x0136 = some (.madctl 0x01) := by decide
theorem test_placed_step_after_reset :
    (next? (step ({ State.reset with env := okEnv }.withFetchWord 40 0xFEFF02012A))).map
        (fun t => (wireView t.trace, t.placed, t.port))
      = some ([.c 0x2A, .d 0x01, .d 0x02, .d 0xFF, .d 0xFE], none, []) := by decide

/-! ## be16 (V1 to V8) -/

theorem test_be16_V4 : be16 0x1234 = [0x12, 0x34] := by decide
theorem test_be16_V7 : be16 319 = [0x01, 0x3F] := by decide

/-! ## One step each: wire instructions (V10 to V27) -/

theorem test_V10_swreset : seen .swreset s0 = some ([.cmd 0x01 .ok], some (.ok .unit)) := by decide
theorem test_V11_slpout : seen .slpout s0 = some ([.cmd 0x11 .ok], some (.ok .unit)) := by decide
theorem test_V12_dispon : seen .dispon s0 = some ([.cmd 0x29 .ok], some (.ok .unit)) := by decide
theorem test_V13_caset :
    seen (.caset 0x0102 0xFFFE) s0
      = some ([.cmd 0x2A .ok, .data [0x01, 0x02] .ok, .data [0xFF, 0xFE] .ok], some (.ok .unit)) := by decide
theorem test_V14_raset :
    seen (.raset 0 0) s0
      = some ([.cmd 0x2B .ok, .data [0x00, 0x00] .ok, .data [0x00, 0x00] .ok], some (.ok .unit)) := by decide
theorem test_V15_ramwr :
    seen (.ramwr [0x07E0, 0x001F]) s0
      = some ([.cmd 0x2C .ok, .data [0x07, 0xE0, 0x00, 0x1F] .ok], some (.ok .unit)) := by decide
theorem test_V16_ramwr_empty :
    seen (.ramwr []) s0 = some ([.cmd 0x2C .ok, .data [] .ok], some (.ok .unit)) := by decide
theorem test_V17_madctl :
    seen (.madctl 0xA0) s0 = some ([.cmd 0x36 .ok, .data [0xA0] .ok], some (.ok .unit)) := by decide
theorem test_V18_colmod :
    seen (.colmod 0x55) s0 = some ([.cmd 0x3A .ok, .data [0x55] .ok], some (.ok .unit)) := by decide
theorem test_V19_teoff : seen .teoff s0 = some ([.cmd 0x34 .ok], some (.ok .unit)) := by decide
theorem test_V21_teon :
    seen (.teon .horizontalAndVertical) s0 = some ([.cmd 0x35 .ok, .data [0x01] .ok], some (.ok .unit)) := by decide
theorem test_V22_vscad :
    seen (.vscad 0xFFFF) s0 = some ([.cmd 0x37 .ok, .data [0xFF, 0xFF] .ok], some (.ok .unit)) := by decide
theorem test_V23_tuneA :
    seen (.tuneA 0) s0 = some ([.cmd 0xB2 .ok, .data [0x0C, 0x0C, 0x00, 0x33, 0x33] .ok], some (.ok .unit)) := by decide
theorem test_V24_tuneB :
    seen (.tuneB 7) s0 = some ([.cmd 0xD0 .ok, .data [0xA4, 0xA1] .ok], some (.ok .unit)) := by decide
theorem test_V25_tuneA_empty_payload :
    seen (.tuneA 0) { s0 with cfg := { Cfg.cfg0 with tuneA := [⟨0x21, []⟩] } }
      = some ([.cmd 0x21 .ok], some (.ok .unit)) := by decide
theorem test_V26_gammaPos :
    seen .gammaPos s0 = some ([.cmd 0xE0 .ok, .data [0xD0, 0x04, 0x0D, 0x11, 0x13, 0x2B, 0x3F, 0x54, 0x4C, 0x18, 0x0D,
      0x0B, 0x1F, 0x23] .ok], some (.ok .unit)) := by decide
theorem test_V27_gammaNeg :
    seen .gammaNeg s0 = some ([.cmd 0xE1 .ok, .data [0xD0, 0x04, 0x0C, 0x11, 0x13, 0x2C, 0x3F, 0x44, 0x51, 0x2F, 0x1F,
      0x1F, 0x20, 0x23] .ok], some (.ok .unit)) := by decide

/-! ## One step each: host operations (V30 to V52) -/

theorem test_V30_new :
    (next? (exec (.new ⟨1⟩ (some ⟨2⟩) 0 0) State.reset)).map (fun t => (t.life, t.trace, t.resp))
      = some (.live ⟨⟨1⟩, some ⟨2⟩, 0, 0, .portrait⟩, [], some (.ok .unit)) := by decide
theorem test_V63_new_after_release :
    (next? (exec (.new ⟨1⟩ none 240 320) { State.reset with life := .released })).map State.life
      = some (.live ⟨⟨1⟩, none, 240, 320, .portrait⟩) := by decide
theorem test_V31_hardReset :
    seen (.hardReset ⟨0⟩) s0 = some ([.pin .high .ok, .delay 10, .pin .low .ok, .delay 10, .pin .high .ok, .delay 10],
      some (.ok .unit)) := by decide
theorem test_V52_hardReset_second_set_fails :
    seen (.hardReset ⟨0⟩) (live drv (pinFailAt 2)) = some ([.pin .high .ok, .delay 10, .pin .low (.fail 7)],
      some (.err (.pinError 7))) := by decide
theorem test_P1_init_wire :
    wire (.init ⟨0⟩) s0 = some [.c 0x01, .c 0x36, .d 0x00, .c 0xB2, .d 0x0C, .d 0x0C, .d 0x00, .d 0x33, .d 0x33, .c 0x3A,
      .d 0x55, .c 0xB7, .d 0x35, .c 0xBB, .d 0x19, .c 0xC0, .d 0x2C, .c 0xC2, .d 0x01, .c 0xC3, .d 0x12, .c 0xC4, .d 0x20,
      .c 0xC6, .d 0x0F, .c 0xD0, .d 0xA4, .d 0xA1, .c 0xE0, .d 0xD0, .d 0x04, .d 0x0D, .d 0x11, .d 0x13, .d 0x2B, .d 0x3F,
      .d 0x54, .d 0x4C, .d 0x18, .d 0x0D, .d 0x0B, .d 0x1F, .d 0x23, .c 0xE1, .d 0xD0, .d 0x04, .d 0x0C, .d 0x11, .d 0x13,
      .d 0x2C, .d 0x3F, .d 0x44, .d 0x51, .d 0x2F, .d 0x1F, .d 0x1F, .d 0x20, .d 0x23, .c 0x11, .c 0x29] := by rfl
theorem test_V43_init_third_bus_answer_fails :
    seen (.init ⟨0⟩) (live drv (busFailAt 3)) = some ([.pin .high .ok, .delay 10, .pin .low .ok, .delay 10,
      .pin .high .ok, .delay 10, .cmd 0x01 .ok, .delay 150000, .cmd 0x36 .ok, .data [0x00] .fail],
      some (.err .transportError)) := by decide
theorem test_V33_orientation :
    seen .orientation (live { drv with orient := .portraitSwapped } okEnv)
      = some ([], some (.ok (.orientation .portraitSwapped))) := by decide
theorem test_P3_setOrientation :
    (next? (exec (.setOrientation .landscape) s0)).map (fun t => (t.life, t.trace, t.panel.fm))
      = some (.live { drv with orient := .landscape }, [.cmd 0x36 .ok, .data [0x60] .ok], []) := by decide
theorem test_V46_setOrientation_fails :
    (next? (exec (.setOrientation .landscape) (live drv (busFailAt 2)))).map (fun t => (t.life, t.trace, t.panel.madctl))
      = some (.live drv, [.cmd 0x36 .ok, .data [0x60] .fail], none) := by decide
theorem test_P3_setPixel :
    seen (.setPixel 10 20 0xF800) s0 = some ([.cmd 0x2A .ok, .data [0x00, 0x0A] .ok, .data [0x00, 0x0A] .ok, .cmd 0x2B .ok,
      .data [0x00, 0x14] .ok, .data [0x00, 0x14] .ok, .cmd 0x2C .ok, .data [0xF8, 0x00] .ok], some (.ok .unit)) := by decide
theorem test_V48_setPixel_seventh_bus_answer_fails :
    seen (.setPixel 1 2 3) (live drv (busFailAt 7)) = some ([.cmd 0x2A .ok, .data [0x00, 0x01] .ok, .data [0x00, 0x01] .ok,
      .cmd 0x2B .ok, .data [0x00, 0x02] .ok, .data [0x00, 0x02] .ok, .cmd 0x2C .fail], some (.err .transportError)) := by
  decide
theorem test_P4_setPixels :
    wire (.setPixels 0 0 1 1 [0x0001, 0x0203, 0x0405, 0x0607]) s0 = some [.c 0x2A, .d 0x00, .d 0x00, .d 0x00, .d 0x01,
      .c 0x2B, .d 0x00, .d 0x00, .d 0x00, .d 0x01, .c 0x2C, .d 0x00, .d 0x01, .d 0x02, .d 0x03, .d 0x04, .d 0x05, .d 0x06,
      .d 0x07] := by rfl
set_option maxRecDepth 8000 in
theorem test_V73_setPixels_fewer_colours :
    (next? (exec (.setPixels 0 0 1 1 [1, 2, 3]) s0)).map (fun t => t.panel.fm)
      = some [(0, 1), (1, 2), (65536, 3), (65537, 0xF3)] := by decide
theorem test_V50_setScrollOffset_fails :
    seen (.setScrollOffset 7) (live drv (busFailAt 2)) = some ([.cmd 0x37 .ok, .data [0x00, 0x07] .fail],
      some (.err .transportError)) := by decide
theorem test_V75_setScrollOffset :
    (next? (exec (.setScrollOffset 320) s0)).map (fun t => (wireView t.trace, t.panel.fm, t.panel.scroll))
      = some ([.c 0x37, .d 0x01, .d 0x40], f0.fm, some 320) := by rfl
theorem test_P7_setTearingEffect_off : wire (.setTearingEffect .off) s0 = some [.c 0x34] := by decide
theorem test_P7_setTearingEffect_both :
    wire (.setTearingEffect .horizontalAndVertical) s0 = some [.c 0x35, .d 0x01] := by decide
theorem test_V39_release :
    (next? (exec .release s0)).map (fun t => (t.life, t.trace, t.resp))
      = some (.released, [], some (.ok (.handles ⟨1⟩ (some ⟨2⟩)))) := by decide
theorem test_R170_setAddressWindow :
    wire (.setAddressWindow 0 0 319 239) s0
      = some [.c 0x2A, .d 0x00, .d 0x00, .d 0x01, .d 0x3F, .c 0x2B, .d 0x00, .d 0x00, .d 0x00, .d 0xEF] := by rfl

/-! ## The reference environment on wire input (V70 to V76) -/

/-- U2: reversed bounds make the frame memory unknown as soon as they are there. -/
theorem test_U2_reversed_bounds : (f0.recvAll Cfg.cfg0 (320, 240) [.c 0x2A, .d 0, .d 5, .d 0, .d 2]).fm = [] := by decide
/-- U1: so does a last row just past the panel. -/
theorem test_U1_row_past_the_panel :
    (f0.recvAll Cfg.cfg0 (320, 240) [.c 0x2B, .d 0, .d 0, .d 0, .d 240]).fm = [] := by decide
/-- R236: a lone SWRESET makes nothing known on a controller that no INIT has brought up. -/
theorem test_R236_swreset_before_init :
    (next? (exec .swreset { s0 with panel := Panel.unknown })).map State.panel = some Panel.unknown := by decide
/-- R243: a reset pulse makes the orientation register unknown, and a pattern sent after it is known again. -/
theorem test_R243_pattern_after_a_pulse :
    (((f0.pinMoved .high).pinMoved .low).pinMoved .high).madctl = none ∧
      ((((f0.pinMoved .high).pinMoved .low).pinMoved .high).recvAll Cfg.cfg0 (320, 240) [.c 0x36, .d 0x60]).madctl
        = some 0x60 := by decide

/-- The wire input of V73 and V74: window (0,0)-(1,1), then RAMWR and a stream. -/
def v74Input (stream : List Byte) : List WireByte :=
  [.c 0x2A, .d 0x00, .d 0x00, .d 0x00, .d 0x01, .c 0x2B, .d 0x00, .d 0x00, .d 0x00, .d 0x01, .c 0x2C] ++ stream.map .d

theorem test_V71_window :
    (f0.recvAll Cfg.cfg0 (320, 240) [.c 0x2A, .d 0x00, .d 0x0A, .d 0x00, .d 0x0A, .c 0x2B, .d 0x00, .d 0x14, .d 0x00,
      .d 0x14]).window = some ⟨10, 10, 20, 20⟩ := by decide
set_option maxRecDepth 8000 in
theorem test_V74_reference_wrap :
    (f0.recvAll { Cfg.cfg0 with overrun := .wrapToFirst } (320, 240) (v74Input [0, 1, 0, 2, 0, 3, 0, 4, 0, 5])).fm
      = [(0, 5), (1, 2), (65536, 3), (65537, 4)] := by decide
set_option maxRecDepth 8000 in
theorem test_V74_safe_treatment :
    (f0.recvAll Cfg.cfg0 (320, 240) (v74Input [0, 1, 0, 2, 0, 3, 0, 4, 0, 5])).fm = [] := by decide
theorem test_V76_other_pattern : (f0.recvAll Cfg.cfg0 (320, 240) [.c 0x36, .d 0x60]).fm = [] := by decide

/-! ## Witnesses: for each statement with hypotheses, values that meet them all -/

theorem live_s0 : LiveIdle s0 drv := ⟨rfl, rfl⟩

/-- `s0` on a block without a reset pin. -/
def s1 : State := live drvNoPin okEnv

theorem live_s1 : LiveIdle s1 drvNoPin := ⟨rfl, rfl⟩

/-- In the middle of a SET_ORIENTATION: the pattern comes next. -/
def midway : State := { s0 with seq := .running (.setOrientation .landscape) 1 }

theorem witness_DecodeOfEncodeIsTheInstruction :
    Cfg.cfg0.wf = true ∧ (Instr.tuneB 7).wf Cfg.cfg0 = true ∧ (Instr.setPixel 0xFFFF 0 0xFFFF).wf Cfg.cfg0 = true := by
  decide

theorem witness_EncodeOfDecodeIsTheFrame :
    decode Cfg.cfg0 (.wire [.c 0x2A, .d 0xFF, .d 0xFF, .d 0x00, .d 0x00]) = .ok (.caset 0xFFFF 0) ∧
    decode Cfg.cfg0 (.wire [.c 0x36, .d 0xA0]) = .ok (.madctl 0xA0) ∧
    decode Cfg.cfg0 (.host (bits [0,1,0,0, 0,0]) Side.idle) = .ok (.setOrientation .portrait) := ⟨rfl, rfl, rfl⟩

theorem witness_WireViewSplitsIntoItsInstructions :
    Cfg.cfg0.wf = true ∧ ∀ i ∈ [Instr.ramwr [], .ramwr [0x2C2C], .tuneA 0, .swreset],
      isWire i = true ∧ i.wf Cfg.cfg0 = true := by decide

theorem witness_ReservedRequestCodesAreRefused_lowest :
    ({ s0 with port := [⟨bits [1,0,1,0], Side.idle⟩] } : State).seq = .idle ∧ s0.placed = none ∧ 4 ≤ (bits [1,0,1,0]).length ∧
      0xA ≤ ofMsbBits ((bits [1,0,1,0]).take 4) := by decide
theorem witness_ReservedRequestCodesAreRefused_highest :
    4 ≤ (bits [1,1,1,1,0]).length ∧ 0xA ≤ ofMsbBits ((bits [1,1,1,1,0]).take 4) := by decide
theorem witness_ReservedRequestCodesAreRefused_mode :
    bits [1,0,0,0,1,1] = [true, false, false, false, true, true] := by decide

theorem witness_StepRunsTheDecodedRequest :
    ({ s0 with port := [⟨bits [1,0,0,1], Side.idle⟩] } : State).seq = .idle ∧ s0.placed = none ∧
      ({ s0 with port := [⟨bits [1,0,0,1], Side.idle⟩] } : State).port = ⟨bits [1,0,0,1], Side.idle⟩ :: [] ∧
      decode s0.cfg (.host (bits [1,0,0,1]) Side.idle) = .ok .release := ⟨rfl, rfl, rfl, rfl⟩
theorem witness_StepRunsTheDecodedRequest_placed :
    ({ s0 with placed := some [.c 0x2C] } : State).seq = .idle ∧
      ({ s0 with placed := some [.c 0x2C] } : State).placed = some [.c 0x2C] ∧
      decode s0.cfg (.wire [.c 0x2C]) = .ok (.ramwr []) := ⟨rfl, rfl, rfl⟩

theorem witness_IdleBlockWithoutARequestDoesNothing :
    State.reset.seq = .idle ∧ State.reset.placed = none ∧ State.reset.port = [] := by decide

theorem witness_RequestsOutsideTheirLifecycleAreRefused_live : s0.seq = .idle ∧ s0.life = .live drv := by decide
theorem witness_RequestsOutsideTheirLifecycleAreRefused_absent :
    State.reset.seq = .idle ∧ isNew .release = false ∧ Instr.release.wf State.reset.cfg = true ∧
      ∀ d, State.reset.life ≠ .live d := ⟨rfl, rfl, rfl, fun _ h => by cases h⟩
theorem witness_RequestsOutsideTheirLifecycleAreRefused_released :
    ∀ d, ({ s0 with life := .released } : State).life ≠ .live d := fun _ h => by cases h

theorem witness_SecondRequestWhileRunningIsRefused :
    midway.seq = .running (.setOrientation .landscape) 1 ∧ (Instr.setPixel 0 0 0).wf midway.cfg = true ∧
      (Instr.new ⟨0⟩ none 0 0).wf midway.cfg = true := by decide

theorem witness_TuningNamesPastTheListAreRefused : s0.cfg.tuneA.length ≤ 1 ∧ s0.cfg.tuneB.length ≤ 8 := by decide

theorem witness_EveryAdmittedRequestEndsWithAResponse :
    LiveIdle s0 drv ∧ isNew (.tuneB 7) = false ∧ (Instr.tuneB 7).wf s0.cfg = true := ⟨live_s0, rfl, by decide⟩

theorem witness_NewConstructsThePortraitDriver_absent : State.reset.seq = .idle ∧ State.reset.life = .absent := by decide
theorem witness_NewConstructsThePortraitDriver_released :
    ({ s0 with life := .released } : State).seq = .idle ∧ ({ s0 with life := .released } : State).life = .released := by
  decide

theorem witness_HardResetPulsesThePin :
    LiveIdle s0 drv ∧ drv.rst = some ⟨2⟩ ∧ s0.env.allOk (planHardReset s0.cfg drv) = true := ⟨live_s0, rfl, by decide⟩
theorem witness_NewAndTheResetPulseForgetTheController :
    LiveIdle s0 drv ∧ drv.rst = some ⟨2⟩ ∧ s0.env.allOk (planOf s0.cfg drv (.hardReset ⟨0⟩)) = true :=
  ⟨live_s0, rfl, by decide⟩
theorem witness_NewAndTheResetPulseForgetTheController_uninit :
    LiveIdle { s0 with panel := Panel.unknown } drv ∧ Panel.unknown.bringup = .uninit ∧ s0.panel.bringup ≠ .uninit :=
  ⟨live_s0, rfl, by decide⟩
theorem witness_HardResetWithoutAPinIsANoOp : LiveIdle s1 drvNoPin ∧ drvNoPin.rst = none := ⟨live_s1, rfl⟩

/-- The third set fails: the last place a HARD_RESET can fail. -/
theorem witness_HardResetStopsAtTheFailedPinSet :
    LiveIdle (live drv (pinFailAt 3)) drv ∧ drv.rst = some ⟨2⟩ ∧
    planHardReset Cfg.cfg0 drv = [.pin .high, .delay 10, .pin .low, .delay 10] ++ .pin .high :: [.delay 10] ∧
    (pinFailAt 3).allOk [.pin .high, .delay 10, .pin .low, .delay 10] = true ∧
    ((pinFailAt 3).afterAll [.pin .high, .delay 10, .pin .low, .delay 10]).error (.pin .high) = some (.pinError 7) :=
  ⟨⟨rfl, rfl⟩, rfl, by decide, by decide, by decide⟩
theorem witness_HardResetStopsAtTheFailedPinSet_first :
    (pinFailAt 1).allOk [] = true ∧ ((pinFailAt 1).afterAll []).error (.pin .high) = some (.pinError 7) := by decide

theorem witness_InitEmitsItsWholeSequenceInOrder :
    LiveIdle s0 drv ∧ s0.env.allOk (planOf s0.cfg drv (.init ⟨0⟩)) = true := ⟨live_s0, by decide⟩
theorem witness_InitEmitsItsWholeSequenceInOrder_without_pin :
    LiveIdle s1 drvNoPin ∧ s1.env.allOk (planOf s1.cfg drvNoPin (.init ⟨0⟩)) = true := ⟨live_s1, by decide⟩
theorem witness_InitEventCount :
    s0.cfg.split = DataSplit.standard ∧ (∀ u ∈ s0.cfg.tuneA, u.payload ≠ []) ∧ (∀ u ∈ s0.cfg.tuneB, u.payload ≠ []) ∧
      s0.cfg.gammaPos ≠ [] ∧ s0.cfg.gammaNeg ≠ [] ∧ s0.env.allOk (planOf s0.cfg drv (.init ⟨0⟩)) = true := by decide

/-- V48: the RAMWR command of a SET_PIXEL fails. -/
theorem witness_FirstFailureEndsTheOperation :
    LiveIdle (live drv (busFailAt 7)) drv ∧ isNew (.setPixel 1 2 3) = false ∧
    (Instr.setPixel 1 2 3).wf Cfg.cfg0 = true ∧
    planOf Cfg.cfg0 drv (.setPixel 1 2 3) = planSetAddressWindow Cfg.cfg0 1 2 1 2 ++ .cmd .ramwr :: [.data [0x00, 0x03]] ∧
    (busFailAt 7).allOk (planSetAddressWindow Cfg.cfg0 1 2 1 2) = true ∧
    ((busFailAt 7).afterAll (planSetAddressWindow Cfg.cfg0 1 2 1 2)).error (.cmd .ramwr) = some .transportError :=
  ⟨⟨rfl, rfl⟩, rfl, rfl, by decide, by decide, by decide⟩

/-- The last pin set of a HARD_RESET fails: the failing event is a pin set. -/
theorem witness_FirstFailureEndsTheOperation_pin :
    LiveIdle (live drv (pinFailAt 3)) drv ∧ (Instr.hardReset ⟨0⟩).wf Cfg.cfg0 = true ∧
    planOf Cfg.cfg0 drv (.hardReset ⟨0⟩) = [.pin .high, .delay 10, .pin .low, .delay 10] ++ .pin .high :: [.delay 10] ∧
    (pinFailAt 3).allOk [.pin .high, .delay 10, .pin .low, .delay 10] = true ∧
    ((pinFailAt 3).afterAll [.pin .high, .delay 10, .pin .low, .delay 10]).error (.pin .high) = some (.pinError 7) :=
  ⟨⟨rfl, rfl⟩, rfl, by decide, by decide, by decide⟩

/-- The three error statements: a transport error, and a pin error of each of the two operations that raise one. -/
theorem witness_ErrorKindsByOperation_transport :
    ∃ t, exec (.setScrollOffset 7) (live drv (busFailAt 2)) = .next t ∧ t.resp = some (.err .transportError) :=
  ⟨_, rfl, rfl⟩
theorem witness_ErrorKindsByOperation_pin :
    ∃ t, exec (.hardReset ⟨0⟩) (live drv (pinFailAt 2)) = .next t ∧ t.resp = some (.err (.pinError 7)) := ⟨_, rfl, rfl⟩
theorem witness_AnErrorLeavesTheRegisters :
    ∃ t, exec (.init ⟨0⟩) (live drv (pinFailAt 1)) = .next t ∧ t.resp = some (.err (.pinError 7)) := ⟨_, rfl, rfl⟩
theorem witness_AnErrorLeavesTheControllerUnknown :
    ∃ t, exec (.init ⟨0⟩) (live drv (busFailAt 1)) = .next t ∧ t.resp = some (.err .transportError) := ⟨_, rfl, rfl⟩
theorem witness_AnErrorLeavesTheControllerUnknown_pin :
    ∃ t, exec (.hardReset ⟨0⟩) (live drv (pinFailAt 1)) = .next t ∧ t.resp = some (.err (.pinError 7)) := ⟨_, rfl, rfl⟩
theorem witness_AnErrorLeavesTheControllerUnknown_ready :
    ∃ t, exec (.setTearingEffect .off) (live drv (busFailAt 1)) = .next t ∧ t.resp = some (.err .transportError) ∧
      t.panel.bringup = .ready := ⟨_, rfl, rfl, rfl⟩

theorem witness_OrientationReturnsTheRegister : LiveIdle s0 drv := live_s0
theorem witness_SetOrientationStoresOnSuccess :
    LiveIdle s0 drv ∧ s0.env.allOk (planOf s0.cfg drv (.setOrientation .landscapeSwapped)) = true := ⟨live_s0, by decide⟩

/-- V45 and V46: the command fails, and the pattern fails. -/
theorem witness_FailedSetOrientationKeepsTheRegisters_command :
    LiveIdle (live drv (busFailAt 1)) drv ∧ (busFailAt 1).allOk [] = true ∧
      ((busFailAt 1).afterAll []).error (.cmd .madctl) = some .transportError := ⟨⟨rfl, rfl⟩, by decide, by decide⟩
theorem witness_FailedSetOrientationKeepsTheRegisters_data :
    LiveIdle (live drv (busFailAt 2)) drv ∧
      planOf Cfg.cfg0 drv (.setOrientation .landscape) = [.cmd .madctl] ++ .data [0x60] :: [] ∧
      (busFailAt 2).allOk [.cmd .madctl] = true ∧
      ((busFailAt 2).afterAll [.cmd .madctl]).error (.data [0x60]) = some .transportError :=
  ⟨⟨rfl, rfl⟩, by decide, by decide, by decide⟩

theorem witness_OnlySetOrientationWritesARegister :
    ∃ t, exec (.setOrientation .portraitSwapped) s0 = .next t ∧ s0.life = .live drv ∧
      t.life = .live { drv with orient := .portraitSwapped } ∧ ({ drv with orient := .portraitSwapped } : Driver) ≠ drv :=
  ⟨_, rfl, rfl, rfl, by decide⟩
theorem witness_SuccessfulSetOrientationRestoresAgreement :
    LiveIdle s0 drv ∧ s0.cfg.wf = true ∧ s0.panel.bringup = .ready ∧
      s0.env.allOk (.cmd .madctl :: dataActs s0.cfg.split.w1 [s0.cfg.pattern .landscape]) = true :=
  ⟨live_s0, by decide, rfl, by decide⟩
theorem witness_SuccessfulSetOrientationRestoresAgreement_after_hardReset :
    drv.rst = some ⟨2⟩ ∧ s0.panel.bringup ≠ .uninit ∧
      s0.env.allOk (planOf s0.cfg drv (.hardReset ⟨0⟩)
        ++ (.cmd .madctl :: dataActs s0.cfg.split.w1 [s0.cfg.pattern .portraitSwapped])) = true := by decide
theorem witness_InitLeavesTheControllerAsWritten :
    LiveIdle s0 drv ∧ s0.cfg.wf = true ∧ s0.env.allOk (planOf s0.cfg drv (.init ⟨0⟩)) = true ∧
      s0.cfg.initMadctl = s0.cfg.pattern drv.orient := ⟨live_s0, by decide, by decide, rfl⟩

theorem witness_SetAddressWindowSendsTenBytes :
    LiveIdle s0 drv ∧ s0.cfg.wf = true ∧ s0.panel.bringup = .ready ∧ s0.env.allOk (planOf s0.cfg drv (.setAddressWindow 0 0 319 239)) = true :=
  ⟨live_s0, by decide, rfl, by decide⟩
/-- V35: coordinates far beyond the panel. -/
theorem witness_SetPixelSendsItsThirteenBytes :
    LiveIdle s0 drv ∧ s0.env.allOk (planOf s0.cfg drv (.setPixel 0xFFFF 0xFFFF 0xFFFF)) = true := ⟨live_s0, by decide⟩
/-- V36 and V37: reversed bounds, and an empty stream. -/
theorem witness_SetPixelsStreamsEveryColourInOrder :
    LiveIdle s0 drv ∧ s0.env.allOk (planOf s0.cfg drv (.setPixels 5 0 2 0 [0x1111])) = true ∧
      s0.env.allOk (planOf s0.cfg drv (.setPixels 0 0 319 239 [])) = true := ⟨live_s0, by decide, by decide⟩
theorem witness_WindowDirectlyBeforeEveryMemoryWrite :
    s0.cfg.wf = true ∧ isHostOp (.setPixel 1 2 3) = true ∧ ∃ t, exec (.setPixel 1 2 3) s0 = .next t ∧
      wireView t.trace = [.c 0x2A, .d 0x00, .d 0x01, .d 0x00, .d 0x01, .c 0x2B, .d 0x00, .d 0x02, .d 0x00, .d 0x02]
        ++ .c 0x2C :: [.d 0x00, .d 0x03] := ⟨by decide, rfl, _, rfl, by decide⟩

/-- The pixels of `f0` are in canonical form. -/
theorem canonical_f0 : f0.Canonical :=
  ⟨by unfold cellsWf; decide, by unfold cellsWf; decide, fun h => absurd rfl h⟩

theorem witness_SetScrollOffsetSendsTheOffset :
    LiveIdle s0 drv ∧ s0.env.allOk (planOf s0.cfg drv (.setScrollOffset 0xFFFF)) = true ∧ s0.cfg.wf = true ∧
      s0.panel.Canonical := ⟨live_s0, by decide, by decide, canonical_f0⟩
theorem witness_SetTearingEffectRelaysTheMode :
    LiveIdle s0 drv ∧ s0.env.allOk (planOf s0.cfg drv (.setTearingEffect .off)) = true ∧
      s0.env.allOk (planOf s0.cfg drv (.setTearingEffect .vertical)) = true ∧
      s0.env.allOk (planOf s0.cfg drv (.setTearingEffect .horizontalAndVertical)) = true :=
  ⟨live_s0, by decide, by decide, by decide⟩
theorem witness_ReleaseReturnsTheHandles :
    LiveIdle s1 drvNoPin ∧ isNew .orientation = false ∧ Instr.orientation.wf s1.cfg = true := ⟨live_s1, rfl, rfl⟩

theorem witness_ScrollAndTearingKeepTheFrameMemory :
    LiveIdle s0 drv ∧ s0.cfg.wf = true ∧ s0.panel.Canonical ∧
      s0.panel.bringup = .ready ∧ s0.env.allOk (planOf s0.cfg drv (.setScrollOffset 0xFFFF)) = true ∧
      s0.env.allOk (planOf s0.cfg drv (.setTearingEffect .off)) = true ∧
      s0.env.allOk (planOf s0.cfg drv (.setTearingEffect .vertical)) = true :=
  ⟨live_s0, by decide, canonical_f0, rfl, by decide, by decide, by decide⟩

theorem witness_CommandsWithoutPayloadSendOneByte :
    LiveIdle s0 drv ∧ s0.env.busAnswer = .ok ∧ (Instr.teoff, WireName.teoff, s0.cfg.opcodes.teoff) ∈
      [(Instr.swreset, WireName.swreset, s0.cfg.opcodes.swreset), (.slpout, .slpout, s0.cfg.opcodes.slpout),
        (.dispon, .dispon, s0.cfg.opcodes.dispon), (.teoff, .teoff, s0.cfg.opcodes.teoff)] :=
  ⟨live_s0, by decide, by decide⟩
theorem witness_OneByteRegisterWritesSendTwoBytes :
    LiveIdle s0 drv ∧ s0.env.allOk (.cmd .madctl :: dataActs s0.cfg.split.w1 [0xA0]) = true ∧
      s0.env.allOk (.cmd .colmod :: dataActs s0.cfg.split.w1 [0x55]) = true ∧
      s0.env.allOk (.cmd .teon :: dataActs s0.cfg.split.w1 [0x01]) = true := ⟨live_s0, by decide, by decide, by decide⟩
theorem witness_OneByteRegisterWritesSendTwoBytes_payload :
    (Instr.madctl 0xA0).wf s0.cfg = true ∧ (Instr.colmod 0x55).wf s0.cfg = true ∧ (Instr.teon .vertical).wf s0.cfg = true ∧
      (Instr.madctl 0xA1).wf s0.cfg = false ∧ (Instr.colmod 0x05).wf s0.cfg = false := by decide
theorem witness_SixteenBitRegisterWritesSendTheirFields :
    LiveIdle s0 drv ∧ s0.env.allOk (.cmd .caset :: dataActs s0.cfg.split.w4 (be16 0xFFFF ++ be16 0)) = true ∧
      s0.env.allOk (.cmd .raset :: dataActs s0.cfg.split.w4 (be16 0xFFFF ++ be16 0)) = true ∧
      s0.env.allOk (.cmd .vscad :: dataActs s0.cfg.split.w2 (be16 0xFFFF)) = true :=
  ⟨live_s0, by decide, by decide, by decide⟩
theorem witness_MemoryWriteSendsItsStream :
    LiveIdle s0 drv ∧ s0.env.allOk (.cmd .ramwr :: dataActs s0.cfg.split.ws ([].flatMap be16)) = true :=
  ⟨live_s0, by decide⟩
theorem witness_TableStepsSendTheirTables :
    LiveIdle s0 drv ∧ s0.cfg.tuneA[0]? = some ⟨0xB2, [0x0C, 0x0C, 0x00, 0x33, 0x33]⟩ ∧
      s0.cfg.tuneB[7]? = some ⟨0xD0, [0xA4, 0xA1]⟩ ∧ s0.cfg.gammaPos ≠ [] ∧ s0.cfg.gammaNeg ≠ [] ∧
      s0.env.allOk (.cmd (.tuneB 7) :: dataActs s0.cfg.split.wt [0xA4, 0xA1]) = true :=
  ⟨live_s0, by decide, by decide, by decide, by decide, by decide⟩
theorem witness_TableStepsSendTheirTables_empty :
    (⟨0x21, []⟩ : TuneStep).payload = [] ∧ s0.env.allOk [.cmd (.tuneA 0)] = true := by decide

theorem witness_CommandBytesBelongToTheClosedSet :
    (Instr.init ⟨0⟩).wf s0.cfg = true ∧ ∃ t, exec (.init ⟨0⟩) s0 = .next t := ⟨rfl, _, rfl⟩
theorem witness_FourOperationsLeaveTheBusAlone :
    (∃ t, exec (.hardReset ⟨0⟩) s0 = .next t) ∧ (∃ t, exec .release s0 = .next t) ∧
      ∃ t, exec (.new ⟨1⟩ none 0 0) State.reset = .next t := ⟨⟨_, rfl⟩, ⟨_, rfl⟩, _, rfl⟩
theorem witness_DelaysRequestedByEachOperation :
    LiveIdle s0 drv ∧ (∃ t, exec (.init ⟨0⟩) s0 = .next t ∧ t.resp = some (.ok .unit)) ∧
      ∃ t, exec (.setPixel 0 0 0) s0 = .next t := ⟨live_s0, ⟨_, rfl, rfl⟩, _, rfl⟩
theorem witness_TheWireDoesNotDependOnTheCutting :
    LiveIdle s0 drv ∧ isNew (.setPixel 1 2 3) = false ∧ (Instr.setPixel 1 2 3).wf s0.cfg = true ∧
      s0.env.allOk (planOf s0.cfg drv (.setPixel 1 2 3)) = true ∧
      s0.env.allOk (planOf { s0.cfg with split := ⟨⟨[], 1, []⟩, ⟨[], 1, []⟩, ⟨[1], 2, [([0, 1, 0, 1], [3])]⟩, ⟨[], 1, []⟩, ⟨[], 1, []⟩⟩ } drv (.setPixel 1 2 3))
        = true := ⟨live_s0, rfl, rfl, by decide, by decide⟩
theorem witness_EventsDoNotDependOnOrientationOrSize :
    LiveIdle s0 drv ∧ ({ drv with orient := .landscape, width := 0, height := 0 } : Driver).bus = drv.bus ∧
      ({ drv with orient := .landscape, width := 0, height := 0 } : Driver).rst = drv.rst ∧
      ∃ t, exec (.setPixel 0 0 0) s0 = .next t := ⟨live_s0, rfl, rfl, _, rfl⟩
theorem witness_AStepKeepsTheConfigurationAndExtendsTheTrace : ∃ t, step midway = .next t := ⟨_, rfl⟩
theorem witness_AStepKeepsHandlesAndSize :
    ∃ t, step midway = .next t ∧ midway.life = .live drv ∧ t.life = .live { drv with orient := .landscape } :=
  ⟨_, rfl, rfl, rfl⟩
theorem witness_OneStepPerEventReachesTheSameState :
    LiveIdle s0 drv ∧ (∃ t, exec (.setOrientation .landscape) s0 = .next t) ∧
      planOf s0.cfg drv (.setOrientation .landscape) ≠ [] := ⟨live_s0, ⟨_, rfl⟩, by decide⟩

theorem inv_midway : Inv { midway with resp := none } :=
  ⟨canonical_f0, by show 1 < _ ∧ _; decide⟩
theorem witness_EveryStepKeepsTheStateLaw :
    Inv { midway with resp := none } ∧ ∃ t, step { midway with resp := none } = .next t := ⟨inv_midway, _, rfl⟩
theorem witness_NoFaultUnderTheStateLaw : Inv { midway with resp := none } := inv_midway

/-- A full window at the panel's last pixels. -/
theorem witness_SetPixelsFillsItsWindowInRowMajorOrder :
    LiveIdle s0 drv ∧ s0.cfg.wf = true ∧ s0.panel.bringup = .ready ∧ (318 : Half).toNat ≤ (319 : Half).toNat ∧
      (∀ o ∈ s0.panel.inForce s0.cfg,
        (319 : Half).toNat < (rangeOf s0.cfg s0.dims o).1 ∧ (239 : Half).toNat < (rangeOf s0.cfg s0.dims o).2) ∧
      [1, 2, 3, 4].length ≤ ((319 : Half).toNat - (318 : Half).toNat + 1) * ((239 : Half).toNat - (238 : Half).toNat + 1) ∧
      s0.env.allOk (planOf s0.cfg drv (.setPixels 318 238 319 239 [1, 2, 3, 4])) = true :=
  ⟨live_s0, by decide, rfl, by decide, by decide, by decide, by decide⟩

/-- One colour more than the window holds, under each of the two choices. -/
theorem witness_OverlongStreamWrapsUnderTheReferenceChoice :
    ({ s0 with cfg := { Cfg.cfg0 with overrun := .wrapToFirst } } : State).cfg.overrun = .wrapToFirst ∧
      ({ Cfg.cfg0 with overrun := .wrapToFirst } : Cfg).wf = true ∧
      (∀ o ∈ s0.panel.inForce { Cfg.cfg0 with overrun := .wrapToFirst },
        (1 : Half).toNat < (rangeOf { Cfg.cfg0 with overrun := .wrapToFirst } s0.dims o).1 ∧
          (1 : Half).toNat < (rangeOf { Cfg.cfg0 with overrun := .wrapToFirst } s0.dims o).2) ∧
      s0.env.allOk (planOf { Cfg.cfg0 with overrun := .wrapToFirst } drv (.setPixels 0 0 1 1 [1, 2, 3, 4, 5])) = true :=
  ⟨rfl, by decide, by decide, by decide⟩
theorem witness_OverlongStreamForgetsTheWindowUnderTheSafeChoice :
    s0.cfg.overrun = .windowUnknown ∧
      ((1 : Half).toNat - (0 : Half).toNat + 1) * ((1 : Half).toNat - (0 : Half).toNat + 1) < [1, 2, 3, 4, 5].length ∧
      s0.env.allOk (planOf s0.cfg drv (.setPixels 0 0 1 1 [1, 2, 3, 4, 5])) = true := by decide

/-- V36 (reversed bounds), and a column just past the panel. -/
theorem witness_AWindowOutOfRangeForgetsTheFrameMemory_reversed :
    LiveIdle s0 drv ∧ s0.cfg.wf = true ∧ s0.panel.Canonical ∧ (2 : Half).toNat < (5 : Half).toNat ∧
      s0.env.allOk (planOf s0.cfg drv (.setPixels 5 0 2 0 [0x1111])) = true :=
  ⟨live_s0, by decide, canonical_f0, by decide, by decide⟩
theorem witness_AWindowOutOfRangeForgetsTheFrameMemory_range :
    (∃ o ∈ s0.panel.inForce s0.cfg, (rangeOf s0.cfg s0.dims o).1 ≤ (320 : Half).toNat) ∧
      s0.env.allOk (planOf s0.cfg drv (.setPixels 0 0 320 0 [0x1111])) = true := by decide
theorem witness_AWindowOutOfRangeForgetsTheFrameMemory_rows :
    (239 : Half).toNat < (240 : Half).toNat ∧ (∃ o ∈ s0.panel.inForce s0.cfg, (rangeOf s0.cfg s0.dims o).2 ≤ (240 : Half).toNat) ∧
      s0.env.allOk (planOf s0.cfg drv (.setPixels 0 240 0 239 [])) = true := by decide

theorem witness_HostRequestsAreHostOperations_request :
    decode s0.cfg (.host (bits [1,0,0,1]) Side.idle) = .ok .release := rfl
theorem witness_HostRequestsAreHostOperations_step :
    ∃ t, ({ s0 with port := [⟨bits [1,0,0,1], Side.idle⟩] } : State).seq = .idle ∧ s0.placed = none ∧
      step { s0 with port := [⟨bits [1,0,0,1], Side.idle⟩] } = .next t := ⟨_, rfl, rfl, rfl⟩
theorem witness_HostRequestsAreHostOperations_midway : ∃ t, midway.placed = none ∧ step midway = .next t :=
  ⟨_, rfl, rfl⟩

end Sys2Proof.Machine.Tests
end

/-! PROOFS. The statements of 00_scope.md: what a step of an idle block is, that a running block refuses every request,
that a step keeps the configuration and only appends to the trace, and that the wire does not depend on the cutting. -/

namespace Sys2Proof.Machine

/-! ## Taking a request from the port -/

/-- An idle block with a request at its port and nothing placed runs what the request decodes to. -/
theorem step_port {s : State} {i : Instr} {r : Request} {rest : List Request} (hs : s.seq = .idle)
    (hp : s.placed = none) (hq : s.port = r :: rest) (hd : decode s.cfg (.host r.bits r.side) = .ok i) :
    step s = exec i { s with port := rest } := by
  simp only [step, hs, hp, hq, hd]

/-- What is placed beside the port comes before what the port offers (log entry 4). -/
theorem step_placed {s : State} {i : Instr} {bytes : List WireByte} (hs : s.seq = .idle)
    (hp : s.placed = some bytes) (hd : decode s.cfg (.wire bytes) = .ok i) :
    step s = exec i { s with placed := none } := by
  simp only [step, hs, hp, hd]

/-- Settles O7: the two ways an idle block's step takes a request. -/
theorem stepRunsTheDecodedRequest : Obligations.StepRunsTheDecodedRequest := by
  intro s i hs
  exact ⟨fun _ _ hp hq hd => step_port hs hp hq hd, fun _ hp hd => step_placed hs hp hd⟩

/-- Settles O8: the step's branch of an empty port. -/
theorem idleBlockWithoutARequestDoesNothing : Obligations.IdleBlockWithoutARequestDoesNothing := by
  intro s hs hp hq
  simp only [step, hs, hp, hq]

/-! ## A request while another runs -/

theorem exists_new_of_isNew {i : Instr} (h : isNew i = true) : ∃ b p w h', i = .new b p w h' := by
  cases i with
  | new b p w h' => exact ⟨b, p, w, h', rfl⟩
  | _ => cases h

theorem execNew_busy {b : BusHandle} {p : Option PinHandle} {w h : Half} {s : State} {op : Instr} {k : Nat}
    (hs : s.seq = .running op k) : execNew b p w h s = .refused .busy := by
  simp only [execNew, hs]

/-- Settles O11: NEW looks at `SEQ` itself, every other row is a request, which does. -/
theorem secondRequestWhileRunningIsRefused : Obligations.SecondRequestWhileRunningIsRefused := by
  intro s op k i hs hwf
  cases hn : isNew i with
  | false => rw [exec_request hn hwf, request_busy hs]
  | true =>
    obtain ⟨b, p, w, h', rfl⟩ := exists_new_of_isNew hn
    exact execNew_busy hs

/-! ## What every step keeps -/

/-- One event appends itself to the trace, answered ok or not (R13). -/
theorem attempt_extends_trace (a : Action) (s : State) : s.trace <+: (attempt a s).1.trace := by
  rw [attempt_trace]
  exact ⟨_, rfl⟩

theorem runActs_cfg {done : State → State} (hdone : ∀ u, (done u).cfg = u.cfg) (acts : List Action) (s : State) :
    (runActs done acts s).cfg = s.cfg := by
  rcases runActs_cases done acts s with ⟨-, hr⟩ | ⟨pre, a, post, e, -, -, -, hr⟩
  · rw [hr, hdone, sent_cfg]
  · rw [hr, raise_cfg, attempt_cfg, sent_cfg]

/-- A run of events only appends to the trace, whether it reaches its end or an event of it fails (R69). -/
theorem runActs_extends_trace {done : State → State} (hdone : ∀ u, (done u).trace = u.trace) (acts : List Action)
    (s : State) : s.trace <+: (runActs done acts s).trace := by
  rcases runActs_cases done acts s with ⟨hok, hr⟩ | ⟨pre, a, post, e, -, hok, -, hr⟩
  · rw [hr, hdone, sent_trace hok]
    exact ⟨_, rfl⟩
  · rw [hr, raise_trace]
    have hpre : s.trace <+: (s.sent pre).trace := ⟨_, (sent_trace hok).symm⟩
    exact hpre.trans (attempt_extends_trace a (s.sent pre))

/-- A whole operation, NEW among them, never writes the configuration and only appends to the trace. -/
theorem exec_keeps_cfg_extends_trace {i : Instr} {s t : State} (h : exec i s = .next t) :
    t.cfg = s.cfg ∧ s.trace <+: t.trace := by
  cases hn : isNew i with
  | false =>
    obtain ⟨d, -, rfl⟩ := exec_next_inv h hn
    exact ⟨runActs_cfg (doneOf_cfg d i) _ (s.start i), runActs_extends_trace (doneOf_trace d i) _ (s.start i)⟩
  | true =>
    obtain ⟨b, p, w, h', rfl⟩ := exists_new_of_isNew hn
    obtain ⟨-, -, rfl⟩ := execNew_next_inv h
    exact ⟨rfl, [], List.append_nil _⟩

/-- The same for one event in the middle of an operation. -/
theorem continue_keeps_cfg_extends_trace {op : Instr} {k : Nat} {s t : State} (h : s.continue op k = .next t) :
    t.cfg = s.cfg ∧ s.trace <+: t.trace := by
  obtain ⟨d, a, -, -, ⟨e, -, rfl⟩ | ⟨-, -, rfl⟩ | ⟨-, -, rfl⟩⟩ := continue_next_inv h
  · exact ⟨attempt_cfg a s, attempt_extends_trace a s⟩
  · rw [advance_cfg, advance_trace]
    exact ⟨attempt_cfg a s, attempt_extends_trace a s⟩
  · rw [doneOf_cfg, doneOf_trace, advance_cfg, advance_trace]
    exact ⟨attempt_cfg a s, attempt_extends_trace a s⟩

/-- Settles O50, by everything a step can do (`step_next_inv`): one event, a whole operation, or nothing. -/
theorem aStepKeepsTheConfigurationAndExtendsTheTrace :
    Obligations.AStepKeepsTheConfigurationAndExtendsTheTrace := by
  intro s t h
  rcases step_next_inv h with ⟨op, k, -, hc⟩ | ⟨-, bytes, i, -, -, hx⟩ | ⟨-, -, r, rest, i, -, -, hx⟩ | ⟨-, -, -, rfl⟩
  · exact continue_keeps_cfg_extends_trace hc
  · exact (exec_keeps_cfg_extends_trace hx :)
  · exact (exec_keeps_cfg_extends_trace hx :)
  · exact ⟨rfl, [], List.append_nil _⟩

/-! ## What each operation puts on the wire -/

theorem wireView_cmd_dataActs (c : Cfg) (n : WireName) (k : Cut) (bs : List Byte) :
    wireView (okEvents c (.cmd n :: dataActs k bs)) = stepBytes c n bs := by
  rw [wireView_okEvents_cmd, wireView_dataActs, stepBytes]

theorem wireView_cmd_tableActs (c : Cfg) (n : WireName) (k : Cut) (bs : List Byte) :
    wireView (okEvents c (.cmd n :: tableActs k bs)) = stepBytes c n bs := by
  rw [wireView_okEvents_cmd, wireView_tableActs, stepBytes]

theorem wireView_initSteps (c : Cfg) (ts : List InitStep) :
    wireView (okEvents c (ts.flatMap initStepActs)) = ts.flatMap fun t => stepBytes c t.name t.payload := by
  induction ts with
  | nil => rfl
  | cons t rest ih =>
    rw [List.flatMap_cons, List.flatMap_cons, okEvents_append, wireView_append, initStepActs, wireView_cmd_tableActs, ih]

/-- The pulse makes no bus transaction (R50 a). -/
@[simp] theorem wireView_planHardReset (c : Cfg) (d : Driver) : wireView (okEvents c (planHardReset c d)) = [] := by
  rw [planHardReset]
  split <;> rfl

/-- INIT's bytes (R151 a), with or without a reset pin. -/
theorem wireView_planInit (c : Cfg) (d : Driver) : wireView (okEvents c (planInit c d)) = initBytes c := by
  simp only [planInit, okEvents_append, wireView_append, wireView_planHardReset, wireView_initSteps]
  rfl

/-- The tagged bytes of an operation all of whose transactions are answered ok. No `DATA_SPLIT` stands in it. A wire row
and the window step have the bytes of their frame; so have the operations without a transaction, which is none. -/
def operationBytes (c : Cfg) : Instr → List WireByte
  | .init _ => initBytes c
  | .setOrientation o => stepBytes c .madctl [c.pattern o]
  | .setPixel x y color => frameBytes (encode c (.setAddressWindow x y x y)) ++ stepBytes c .ramwr (be16 color)
  | .setPixels sx sy ex ey colors =>
    frameBytes (encode c (.setAddressWindow sx sy ex ey)) ++ stepBytes c .ramwr (beStream colors)
  | .setScrollOffset offset => stepBytes c .vscad (be16 offset)
  | .setTearingEffect .off => stepBytes c .teoff []
  | .setTearingEffect .vertical => stepBytes c .teon [teByte .vertical]
  | .setTearingEffect .horizontalAndVertical => stepBytes c .teon [teByte .horizontalAndVertical]
  | i => frameBytes (encode c i)

theorem wireView_planSetAddressWindow (c : Cfg) (sx sy ex ey : Half) :
    wireView (okEvents c (planSetAddressWindow c sx sy ex ey)) = frameBytes (encode c (.setAddressWindow sx sy ex ey)) := by
  simp only [planSetAddressWindow, planCaset, planRaset, okEvents_append, wireView_append, wireView_cmd_dataActs]
  rfl

/-- An operation's list, every event answered ok, puts exactly the operation's bytes on the wire. -/
theorem wireView_planOf (c : Cfg) (d : Driver) (i : Instr) :
    wireView (okEvents c (planOf c d i)) = operationBytes c i := by
  cases i with
  | hardReset delay => exact wireView_planHardReset c d
  | init delay => exact wireView_planInit c d
  | setAddressWindow sx sy ex ey => exact wireView_planSetAddressWindow c sx sy ex ey
  | setPixel x y color =>
    rw [planOf, planSetPixel, okEvents_append, wireView_append, wireView_planSetAddressWindow, wireView_cmd_dataActs]
    rfl
  | setPixels sx sy ex ey colors =>
    rw [planOf, planSetPixels, planRamwr, okEvents_append, wireView_append, wireView_planSetAddressWindow,
      wireView_cmd_dataActs]
    rfl
  | setTearingEffect m =>
    cases m with
    | off => rfl
    | vertical => exact wireView_cmd_dataActs c _ _ _
    | horizontalAndVertical => exact wireView_cmd_dataActs c _ _ _
  | swreset | slpout | dispon | teoff | new | orientation | release => rfl
  | tuneA | tuneB | gammaPos | gammaNeg => exact wireView_cmd_tableActs c _ _ _
  | caset | raset | ramwr | teon | madctl | vscad | colmod | setOrientation | setScrollOffset =>
    exact wireView_cmd_dataActs c _ _ _

/-! ## Another cutting -/

/-- `INIT_TABLE` takes its names and payloads from elsewhere; only its cuttings come from `DATA_SPLIT`. -/
theorem initBytes_split (c : Cfg) (k : DataSplit) : initBytes { c with split := k } = initBytes c := by
  simp only [initBytes, initTable, tuneASteps, tuneBSteps, List.flatMap_append, List.flatMap_map, List.flatMap_cons]
  rfl

theorem operationBytes_split (c : Cfg) (k : DataSplit) (i : Instr) :
    operationBytes { c with split := k } i = operationBytes c i := by
  cases i with
  | init delay => exact initBytes_split c k
  | setTearingEffect m => cases m <;> rfl
  | _ => rfl

theorem wf_split (c : Cfg) (k : DataSplit) (i : Instr) : i.wf { c with split := k } = i.wf c := by
  cases i <;> rfl

/-- How an operation ends writes `LIFE` from the registers it began with, or leaves it. -/
theorem doneOf_life_congr {d : Driver} {i : Instr} {s u : State} (h : u.life = s.life) :
    (doneOf d i u).life = (doneOf d i s).life := by
  cases i with
  | setOrientation | release => rfl
  | _ => exact h

/-- The response of an operation none of whose events failed depends on its registers alone. -/
theorem doneOf_resp_eq (d : Driver) (i : Instr) (s u : State) : (doneOf d i u).resp = (doneOf d i s).resp := by
  cases i <;> rfl

/-- A request all of whose events are answered ok: its next state, and the bytes it adds to the wire. -/
theorem exec_allOk {i : Instr} {s : State} {d : Driver} (h : LiveIdle s d) (hn : isNew i = false)
    (hwf : i.wf s.cfg = true) (hok : s.env.allOk (planOf s.cfg d i) = true) :
    exec i s = .next (doneOf d i ((s.start i).sent (planOf s.cfg d i))) ∧
      wireView (doneOf d i ((s.start i).sent (planOf s.cfg d i))).trace = wireView s.trace ++ operationBytes s.cfg i := by
  have hok' : (s.start i).env.allOk (planOf s.cfg d i) = true := hok
  refine ⟨by rw [exec_live h hn hwf, runActs_allOk hok'], ?_⟩
  rw [doneOf_trace, sent_trace hok', wireView_append, start_cfg, start_trace, wireView_planOf]

/-- Settles O48: the wire view of either run is the same list of bytes, which names no cutting (`wireView_planOf`,
`operationBytes_split`), and what ends either run reads its registers alone. -/
theorem theWireDoesNotDependOnTheCutting : Obligations.TheWireDoesNotDependOnTheCutting := by
  intro s d i k hd hn hwf hok hok'
  obtain ⟨ht, hwire⟩ := exec_allOk hd hn hwf hok
  obtain ⟨hu, hwire'⟩ := exec_allOk (s := { s with cfg := { s.cfg with split := k } }) hd hn
    ((wf_split s.cfg k i).trans hwf) hok'
  refine ⟨_, _, ht, hu, ?_, doneOf_life_congr (by simp), doneOf_resp_eq d i _ _⟩
  rw [hwire, hwire', operationBytes_split]

end Sys2Proof.Machine

/-! PROOFS. The statements of 10_state.md: the law of the state and that it shuts out the model's one fault, that every
admitted request ends with a response, that one step per event reaches what the whole operation reaches, and which
registers an operation writes and reads. -/

namespace Sys2Proof.Machine

/-! ## A next state on a live block -/

/-- NEW is refused on a live block (R24). -/
theorem exec_live_not_new {i : Instr} {s t : State} {d : Driver} (hx : exec i s = .next t) (hl : s.life = .live d) :
    isNew i = false := by
  cases hn : isNew i with
  | false => rfl
  | true =>
    obtain ⟨b, p, w, h, rfl⟩ := exists_new_of_isNew hn
    obtain ⟨-, hnot, -⟩ := execNew_next_inv hx
    simp [hl] at hnot

/-- An instruction outside the closed set is refused (R92, R110). -/
theorem exec_refused_of_not_wf {i : Instr} {s : State} (h : i.wf s.cfg = false) : ∃ r, exec i s = .refused r := by
  cases i with
  | madctl p => exact ⟨_, if_neg (by simp [h])⟩
  | colmod p => exact ⟨_, if_neg (by simp [h])⟩
  | tuneA k => exact ⟨_, if_neg (of_decide_eq_false h)⟩
  | tuneB k => exact ⟨_, if_neg (of_decide_eq_false h)⟩
  | _ => cases h

/-- What answers a next state is a member of the closed set. -/
theorem wf_of_exec_next {i : Instr} {s t : State} (h : exec i s = .next t) : i.wf s.cfg = true := by
  cases hwf : i.wf s.cfg with
  | true => rfl
  | false =>
    obtain ⟨r, hr⟩ := exec_refused_of_not_wf hwf
    rw [hr] at h
    cases h

/-- What a live idle block answers is the run of the operation's list, and the request is no NEW and in the closed set. -/
theorem exec_live_next {i : Instr} {s t : State} {d : Driver} (hd : LiveIdle s d) (hx : exec i s = .next t) :
    isNew i = false ∧ i.wf s.cfg = true ∧ t = runActs (doneOf d i) (planOf s.cfg d i) (s.start i) := by
  have hn := exec_live_not_new hx hd.2
  have hwf := wf_of_exec_next hx
  exact ⟨hn, hwf, Host.Outcome.next.inj (hx.symm.trans (exec_live hd hn hwf))⟩

/-! ## The run of a list -/

/-- One event answers what the oracle says of it. -/
theorem attempt_eq (a : Action) (s : State) : attempt a s = ((attempt a s).1, s.env.error a) :=
  Prod.ext rfl (attempt_error a s)

theorem attempt_advance_seq {s : State} {op : Instr} {k : Nat} (h : s.seq = .running op k) (a : Action) :
    (attempt a s).1.advance.seq = .running op (k + 1) := by
  rw [advance_running (by rw [attempt_seq, h])]

theorem runActs_cons_fails {done : State → State} {a : Action} {rest : List Action} {s : State} {e : ErrKind}
    (he : s.env.error a = some e) : runActs done (a :: rest) s = (attempt a s).1.raise e := by
  rw [runActs, attempt_eq, he]

theorem runActs_cons_ok {done : State → State} {a : Action} {rest : List Action} {s : State}
    (he : s.env.error a = none) : runActs done (a :: rest) s = runActs done rest (attempt a s).1.advance := by
  rw [runActs, attempt_eq, he]

/-- What holds at the end of a list and after a failure of any event holds of the run (`runActs_cases` as a rule). -/
theorem runActs_property {P : State → Prop} {done : State → State} {acts : List Action} {s : State}
    (hdone : P (done (s.sent acts))) (hraise : ∀ pre a e, P ((attempt a (s.sent pre)).1.raise e)) :
    P (runActs done acts s) := by
  rcases runActs_cases done acts s with ⟨-, hr⟩ | ⟨pre, a, post, e, -, -, -, hr⟩
  · rw [hr]
    exact hdone
  · rw [hr]
    exact hraise pre a e

/-- A run of events ends idle, at its end or at its first failure (R30, R203). -/
theorem runActs_seq {done : State → State} (hdone : ∀ u, (done u).seq = .idle) (acts : List Action) (s : State) :
    (runActs done acts s).seq = .idle :=
  runActs_property (P := fun u => u.seq = .idle) (hdone _) fun _ _ e => raise_seq e _

/-- A run of events ends with a response: its end's, or the error of its first failure (R203). -/
theorem runActs_resp {done : State → State} (hdone : ∀ u, (done u).resp ≠ none) (acts : List Action) (s : State) :
    (runActs done acts s).resp ≠ none :=
  runActs_property (P := fun u => u.resp ≠ none) (hdone _) fun _ _ _ => by simp

theorem runActs_port {done : State → State} (hdone : ∀ u, (done u).port = u.port) (acts : List Action) (s : State) :
    (runActs done acts s).port = s.port :=
  runActs_property (P := fun u => u.port = s.port) (by rw [hdone, sent_port]) fun _ _ _ => by simp

theorem runActs_placed {done : State → State} (hdone : ∀ u, (done u).placed = u.placed) (acts : List Action)
    (s : State) : (runActs done acts s).placed = s.placed :=
  runActs_property (P := fun u => u.placed = s.placed) (by rw [hdone, sent_placed]) fun _ _ _ => by simp

/-! ## The law of the state -/

/-- An idle block names no event, so there is none to be out of place. -/
theorem seqInPlan_of_idle {s : State} (h : s.seq = .idle) : SeqInPlan s := by
  simp only [SeqInPlan, h]

/-- What the law says in the middle of an operation (R30). -/
theorem seqInPlan_running_iff {s : State} {op : Instr} {k : Nat} (h : s.seq = .running op k) :
    SeqInPlan s ↔ ∃ d, s.life = .live d ∧ k < (planOf s.cfg d op).length ∧ s.resp = none := by
  cases hl : s.life <;> simp [SeqInPlan, h, hl]

theorem canonical_attempt_advance (a : Action) {s : State} (h : s.panel.Canonical) :
    (attempt a s).1.advance.panel.Canonical := by
  rw [advance_panel]
  exact canonical_attempt a h

theorem canonical_sent (acts : List Action) {s : State} (h : s.panel.Canonical) : (s.sent acts).panel.Canonical := by
  induction acts generalizing s with
  | nil => exact h
  | cons a rest ih => exact ih (canonical_attempt_advance a h)

/-- INIT alone writes the controller at its end, and what it writes is canonical. -/
theorem canonical_doneOf (d : Driver) (i : Instr) {s : State} (h : s.panel.Canonical) :
    (doneOf d i s).panel.Canonical := by
  cases i with
  | init delay => exact canonical_initDone _ _
  | _ => exact h

theorem canonical_runActs (d : Driver) (i : Instr) (acts : List Action) {s : State} (h : s.panel.Canonical) :
    (runActs (doneOf d i) acts s).panel.Canonical :=
  runActs_property (P := fun u => u.panel.Canonical) (canonical_doneOf d i (canonical_sent acts h))
    fun pre a _ => canonical_attempt a (canonical_sent pre h)

/-- A whole operation, NEW among them, keeps the law. -/
theorem inv_exec {i : Instr} {s t : State} (h : s.panel.Canonical) (hx : exec i s = .next t) : Inv t := by
  cases hn : isNew i with
  | false =>
    obtain ⟨d, -, rfl⟩ := exec_next_inv hx hn
    exact ⟨canonical_runActs d i _ h, seqInPlan_of_idle (runActs_seq (doneOf_seq d i) _ _)⟩
  | true =>
    obtain ⟨b, p, w, h', rfl⟩ := exists_new_of_isNew hn
    obtain ⟨-, -, rfl⟩ := execNew_next_inv hx
    exact ⟨canonical_unknown, seqInPlan_of_idle rfl⟩

/-- One event in the middle of an operation keeps the law: `SEQ` moves on only where its list has a next event. -/
theorem inv_continue {op : Instr} {k : Nat} {s t : State} (h : Inv s) (hs : s.seq = .running op k)
    (hc : s.continue op k = .next t) : Inv t := by
  obtain ⟨hpanel, hseq⟩ := h
  obtain ⟨d, a, hl, -, ⟨e, -, rfl⟩ | ⟨-, hlt, rfl⟩ | ⟨-, -, rfl⟩⟩ := continue_next_inv hc
  · exact ⟨canonical_attempt a hpanel, seqInPlan_of_idle rfl⟩
  · obtain ⟨-, -, -, hresp⟩ := (seqInPlan_running_iff hs).1 hseq
    refine ⟨canonical_attempt_advance a hpanel, (seqInPlan_running_iff (attempt_advance_seq hs a)).2 ⟨d, ?_, ?_, ?_⟩⟩
    · rw [advance_life, attempt_life, hl]
    · rw [advance_cfg, attempt_cfg]
      exact hlt
    · rw [advance_resp, attempt_resp, hresp]
  · exact ⟨canonical_doneOf d op (canonical_attempt_advance a hpanel), seqInPlan_of_idle (doneOf_seq d op _)⟩

/-- Settles O54, by everything a step can do (`step_next_inv`): one event (`inv_continue`), a whole operation
(`inv_exec`), or nothing. -/
theorem everyStepKeepsTheStateLaw : Obligations.EveryStepKeepsTheStateLaw := by
  intro s t h hstep
  have hpanel := h.1
  rcases step_next_inv hstep with ⟨op, k, hs, hc⟩ | ⟨-, bytes, i, -, -, hx⟩ | ⟨-, -, r, rest, i, -, -, hx⟩ | ⟨-, -, -, rfl⟩
  · exact inv_continue h hs hc
  · exact inv_exec (by exact hpanel) hx
  · exact inv_exec (by exact hpanel) hx
  · exact h

/-! ## No fault -/

theorem request_ne_fault (op : Instr) (plan : Driver → List Action) (done : Driver → State → State) (s : State)
    (f : Fault) : s.request op plan done ≠ .fault f := by
  cases hs : s.seq with
  | running op' k => rw [request_busy hs]; simp
  | idle =>
    cases hl : s.life with
    | live d => rw [request_live ⟨hs, hl⟩]; simp
    | absent | released => rw [request_not_live hs (by simp [hl])]; simp

theorem execNew_ne_fault (b : BusHandle) (p : Option PinHandle) (w h : Half) (s : State) (f : Fault) :
    execNew b p w h s ≠ .fault f := by
  simp only [execNew]
  split <;> simp

/-- The block has no faults of its own: an operation ends with a response or is refused (R200, R215). -/
theorem exec_ne_fault (i : Instr) (s : State) (f : Fault) : exec i s ≠ .fault f := by
  cases hn : isNew i with
  | true =>
    obtain ⟨b, p, w, h, rfl⟩ := exists_new_of_isNew hn
    exact execNew_ne_fault b p w h s f
  | false =>
    cases hwf : i.wf s.cfg with
    | true =>
      rw [exec_request hn hwf]
      exact request_ne_fault _ _ _ s f
    | false =>
      obtain ⟨r, hr⟩ := exec_refused_of_not_wf hwf
      simp [hr]

/-- Where `SEQ` lies in the list of a live operation, its next event is made. -/
theorem continue_ne_fault {op : Instr} {k : Nat} {s : State} {d : Driver} (hl : s.life = .live d)
    (hk : k < (planOf s.cfg d op).length) (f : Fault) : s.continue op k ≠ .fault f := by
  simp only [State.continue, hl, List.getElem?_eq_getElem hk]
  split
  · simp
  · split <;> simp

/-- Settles O55: the fault stands in `State.continue` alone, on branches that the law shuts out. -/
theorem noFaultUnderTheStateLaw : Obligations.NoFaultUnderTheStateLaw := by
  intro s f h
  cases hs : s.seq with
  | running op k =>
    obtain ⟨d, hl, hk, -⟩ := (seqInPlan_running_iff hs).1 h.2
    simp only [step, hs]
    exact continue_ne_fault hl hk f
  | idle =>
    simp only [step, hs]
    split
    · split
      · simp
      · exact exec_ne_fault _ _ f
    · simp
    · split
      · simp
      · exact exec_ne_fault _ _ f

/-! ## Every admitted request ends -/

theorem doneOf_resp_ne_none (d : Driver) (i : Instr) (s : State) : (doneOf d i s).resp ≠ none := by
  obtain ⟨v, hv⟩ := doneOf_resp_ok d i s
  simp [hv]

/-- Settles O13: the request is the run of its list (`exec_live`), field by field. -/
theorem everyAdmittedRequestEndsWithAResponse : Obligations.EveryAdmittedRequestEndsWithAResponse := by
  intro s d i hd hn hwf
  exact ⟨_, exec_live hd hn hwf, runActs_seq (doneOf_seq d i) _ _, runActs_resp (doneOf_resp_ne_none d i) _ _,
    runActs_cfg (doneOf_cfg d i) _ _, runActs_port (doneOf_port d i) _ _, runActs_placed (doneOf_placed d i) _ _⟩

/-! ## One step per event -/

/-- A failed event ends its operation (R203). -/
theorem continue_fails {op : Instr} {k : Nat} {s : State} {d : Driver} {a : Action} {e : ErrKind}
    (hl : s.life = .live d) (ha : (planOf s.cfg d op)[k]? = some a) (he : s.env.error a = some e) :
    s.continue op k = .next ((attempt a s).1.raise e) := by
  simp only [State.continue, hl, ha]
  rw [attempt_eq, he]

/-- An event answered ok moves `SEQ` on, or was the last and ends its operation (R30). -/
theorem continue_ok {op : Instr} {k : Nat} {s : State} {d : Driver} {a : Action}
    (hl : s.life = .live d) (ha : (planOf s.cfg d op)[k]? = some a) (he : s.env.error a = none) :
    s.continue op k = if k + 1 < (planOf s.cfg d op).length then .next (attempt a s).1.advance
      else .next (doneOf d op (attempt a s).1.advance) := by
  simp only [State.continue, hl, ha]
  rw [attempt_eq, he]

theorem step_running {s : State} {op : Instr} {k : Nat} (h : s.seq = .running op k) : step s = s.continue op k := by
  simp only [step, h]

theorem run_succ {s u : State} (n : Nat) (h : step s = .next u) :
    Host.Core.run Sys2Proof.core (n + 1) s = Host.Core.run Sys2Proof.core n u := by
  have h' : Sys2Proof.core.step s = .next u := h
  simp only [Host.Core.run, h']

/-- In at most `len` steps the machine goes from `s` to `t`, and on the way `SEQ` counts the events of `op` from `k`. -/
def ReachesInEvents (op : Instr) (k len : Nat) (s t : State) : Prop :=
  ∃ n, 0 < n ∧ n ≤ len ∧ Host.Core.run Sys2Proof.core n s = .next t ∧
    ∀ j, j < n → ∃ u : State, Host.Core.run Sys2Proof.core j s = .next u ∧ u.seq = .running op (k + j)

theorem reaches_of_step {op : Instr} {k len : Nat} {s t : State} (hlen : 0 < len) (hs : s.seq = .running op k)
    (h : step s = .next t) : ReachesInEvents op k len s t := by
  refine ⟨1, Nat.one_pos, hlen, run_succ 0 h, fun j hj => ?_⟩
  obtain rfl : j = 0 := by omega
  exact ⟨s, rfl, hs⟩

theorem reaches_cons {op : Instr} {k len : Nat} {s u t : State} (hs : s.seq = .running op k) (h : step s = .next u)
    (hr : ReachesInEvents op (k + 1) len u t) : ReachesInEvents op k (len + 1) s t := by
  obtain ⟨n, -, hn, hrun, hall⟩ := hr
  refine ⟨n + 1, n.succ_pos, by omega, (run_succ n h).trans hrun, fun j hj => ?_⟩
  cases j with
  | zero => exact ⟨s, rfl, hs⟩
  | succ j =>
    obtain ⟨v, hv, hseq⟩ := hall j (by omega)
    exact ⟨v, (run_succ j h).trans hv, by rw [hseq]; congr 1; omega⟩

/-- From the middle of an operation, the events still to come made one at a time reach what their run reaches. -/
theorem reaches_runActs {op : Instr} {d : Driver} {acts pre : List Action} {s : State} (hne : acts ≠ [])
    (hp : planOf s.cfg d op = pre ++ acts) (hs : s.seq = .running op pre.length) (hl : s.life = .live d) :
    ReachesInEvents op pre.length acts.length s (runActs (doneOf d op) acts s) := by
  induction acts generalizing pre s with
  | nil => exact absurd rfl hne
  | cons a rest ih =>
    have ha : (planOf s.cfg d op)[pre.length]? = some a := by simp [hp]
    cases he : s.env.error a with
    | some e =>
      rw [runActs_cons_fails he]
      exact reaches_of_step (by simp) hs ((step_running hs).trans (continue_fails hl ha he))
    | none =>
      have hstep := (step_running hs).trans (continue_ok hl ha he)
      rw [runActs_cons_ok he]
      cases rest with
      | nil =>
        rw [if_neg (by simp [hp])] at hstep
        exact reaches_of_step (by simp) hs hstep
      | cons b rest =>
        rw [if_pos (by simp [hp])] at hstep
        have hrest := ih (pre := pre ++ [a]) (s := (attempt a s).1.advance) (by simp) (by simp [hp])
          (by simp [attempt_advance_seq hs]) (by simp [hl])
        exact reaches_cons hs hstep (by simpa using hrest)

/-- Settles O52: the operation's run starts at the first event of its list (`reaches_runActs`). -/
theorem oneStepPerEventReachesTheSameState : Obligations.OneStepPerEventReachesTheSameState := by
  intro s t d i hd hx hne
  obtain ⟨-, -, rfl⟩ := exec_live_next hd hx
  simpa [ReachesInEvents] using reaches_runActs (pre := []) (s := s.start i) hne rfl rfl hd.2

/-! ## The registers of a live block -/

/-- What the end of an operation does to `LIFE`: SET_ORIENTATION stores its operand, RELEASE drops the Driver (R163,
R189), and every other end leaves it. -/
theorem doneOf_life_cases (d : Driver) (i : Instr) (s : State) :
    (doneOf d i s).life = s.life ∨
    (∃ o, i = .setOrientation o ∧ (doneOf d i s).life = .live { d with orient := o } ∧
      (doneOf d i s).resp = some (.ok .unit)) ∨
    (doneOf d i s).life = .released := by
  cases i with
  | setOrientation o => exact .inr (.inl ⟨o, rfl, rfl, rfl⟩)
  | release => exact .inr (.inr rfl)
  | _ => exact .inl rfl

/-- An operation that leaves a live block live ended on a live idle block, and kept its registers or was a successful
SET_ORIENTATION. -/
theorem exec_live_registers {i : Instr} {s t : State} {d d' : Driver} (hx : exec i s = .next t)
    (hl : s.life = .live d) (hl' : t.life = .live d') :
    d' = d ∨ ∃ o, i = .setOrientation o ∧ d' = { d with orient := o } ∧ t.resp = some (.ok .unit) := by
  have hn := exec_live_not_new hx hl
  obtain ⟨d₀, hd, -⟩ := exec_next_inv hx hn
  obtain rfl : d₀ = d := by simpa [hl] using hd.2.symm
  rcases exec_cases hd hn hx with ⟨-, rfl⟩ | ⟨pre, a, post, e, -, -, -, rfl⟩
  · rcases doneOf_life_cases d₀ i ((s.start i).sent (planOf s.cfg d₀ i)) with h | ⟨o, hi, h, hr⟩ | h
    · left; simpa [h, hl] using hl'.symm
    · exact .inr ⟨o, hi, by simpa [h] using hl'.symm, hr⟩
    · simp [h] at hl'
  · left; simpa [hl] using hl'.symm

/-- Settles O28: every other end of an operation, and every failure, keeps the registers (`exec_live_registers`). -/
theorem onlySetOrientationWritesARegister : Obligations.OnlySetOrientationWritesARegister := by
  intro s t i d d' hx hl hl' hne
  exact (exec_live_registers hx hl hl').resolve_left hne

/-- The two Drivers differ in `ORIENT` at most. -/
def SameButOrient (d d' : Driver) : Prop :=
  ∃ o, d' = { d with orient := o }

theorem sameButOrient_refl (d : Driver) : SameButOrient d d :=
  ⟨d.orient, rfl⟩

theorem exec_sameButOrient {i : Instr} {s t : State} {d d' : Driver} (hx : exec i s = .next t)
    (hl : s.life = .live d) (hl' : t.life = .live d') : SameButOrient d d' := by
  rcases exec_live_registers hx hl hl' with rfl | ⟨o, -, h, -⟩
  · exact sameButOrient_refl _
  · exact ⟨o, h⟩

theorem doneOf_sameButOrient {d d' : Driver} {i : Instr} {s : State} (hl : s.life = .live d)
    (hl' : (doneOf d i s).life = .live d') : SameButOrient d d' := by
  rcases doneOf_life_cases d i s with h | ⟨o, -, h, -⟩ | h
  · obtain rfl : d' = d := by simpa [h, hl] using hl'.symm
    exact sameButOrient_refl _
  · exact ⟨o, by simpa [h] using hl'.symm⟩
  · simp [h] at hl'

/-- One event leaves the registers alone; after the last one the operation's end follows. -/
theorem continue_sameButOrient {op : Instr} {k : Nat} {s t : State} {d d' : Driver}
    (hc : s.continue op k = .next t) (hl : s.life = .live d) (hl' : t.life = .live d') : SameButOrient d d' := by
  obtain ⟨d₀, a, hd, -, ⟨e, -, rfl⟩ | ⟨-, -, rfl⟩ | ⟨-, -, rfl⟩⟩ := continue_next_inv hc
  · obtain rfl : d' = d := by simpa [hl] using hl'.symm
    exact sameButOrient_refl _
  · obtain rfl : d' = d := by simpa [hl] using hl'.symm
    exact sameButOrient_refl _
  · obtain rfl : d₀ = d := by simpa [hl] using hd.symm
    exact doneOf_sameButOrient (by simp [hl]) hl'

/-- A step from a live block to a live block writes `ORIENT` at most (R23). -/
theorem step_sameButOrient {s t : State} {d d' : Driver} (h : step s = .next t) (hl : s.life = .live d)
    (hl' : t.life = .live d') : SameButOrient d d' := by
  rcases step_next_inv h with ⟨op, k, -, hc⟩ | ⟨-, bytes, i, -, -, hx⟩ | ⟨-, -, r, rest, i, -, -, hx⟩ | ⟨-, -, -, rfl⟩
  · exact continue_sameButOrient hc hl hl'
  · exact exec_sameButOrient hx hl hl'
  · exact exec_sameButOrient hx hl hl'
  · obtain rfl : d' = d := by simpa [hl] using hl'.symm
    exact sameButOrient_refl _

/-- Settles O51: `ORIENT` is the one register that a step can write (`step_sameButOrient`). -/
theorem aStepKeepsHandlesAndSize : Obligations.AStepKeepsHandlesAndSize := by
  intro s t d d' h hl hl'
  obtain ⟨o, rfl⟩ := step_sameButOrient h hl hl'
  exact ⟨rfl, rfl, rfl, rfl⟩

/-! ## What no operation's events depend on -/

/-- Of the registers, an event list looks at the presence of the reset pin alone (R23, R60, R165). -/
theorem planOf_congr {d d' : Driver} (h : d'.rst = d.rst) (c : Cfg) (i : Instr) : planOf c d' i = planOf c d i := by
  have hpulse : planHardReset c d' = planHardReset c d := by
    rw [planHardReset, planHardReset, Driver.hasRst, Driver.hasRst, h]
  cases i with
  | hardReset delay => exact hpulse
  | init delay => simp only [planOf, planInit, hpulse]
  | _ => rfl

/-- Of the registers, only ORIENTATION and RELEASE answer with any: `ORIENT`, and the handles (R160, R189). -/
theorem doneOf_resp_congr {d d' : Driver} {i : Instr} (hb : d'.bus = d.bus) (hr : d'.rst = d.rst)
    (hi : i ≠ .orientation) (s u : State) : (doneOf d' i u).resp = (doneOf d i s).resp := by
  cases i with
  | orientation => exact absurd rfl hi
  | release => simp [doneOf, hb, hr]
  | _ => rfl

/-- The two states agree on what decides an operation's events (configuration and oracle) and on what records them. -/
structure SameEvents (s u : State) : Prop where
  cfg : u.cfg = s.cfg
  env : u.env = s.env
  trace : u.trace = s.trace
  rstLine : u.rstLine = s.rstLine

theorem sameEvents_attempt (a : Action) {s u : State} (h : SameEvents s u) :
    SameEvents (attempt a s).1 (attempt a u).1 where
  cfg := by simp [h.cfg]
  env := by simp [h.env]
  trace := by simp [h.cfg, h.env, h.trace]
  rstLine := by
    cases a with
    | pin l => simp only [attempt, State.pinSet, h.env]; split <;> rfl
    | cmd | data | delay => rw [attempt_rstLine rfl, attempt_rstLine rfl, h.rstLine]

theorem sameEvents_advance {s u : State} (h : SameEvents s u) : SameEvents s.advance u.advance :=
  ⟨by simp [h.cfg], by simp [h.env], by simp [h.trace], by simp [h.rstLine]⟩

/-- Two runs of one list from such states end in the same way, so what relates their two ends, and the two states after a
failure, relates the runs. -/
theorem runActs_related {R : State → State → Prop} {done done' : State → State} {s u : State} (h : SameEvents s u)
    (hdone : ∀ s u, SameEvents s u → R (done s) (done' u))
    (hraise : ∀ e s u, SameEvents s u → R (s.raise e) (u.raise e)) (acts : List Action) :
    R (runActs done acts s) (runActs done' acts u) := by
  induction acts generalizing s u with
  | nil => exact hdone s u h
  | cons a rest ih =>
    have hattempt := sameEvents_attempt a h
    cases he : s.env.error a with
    | some e =>
      rw [runActs_cons_fails he, runActs_cons_fails (by rw [h.env, he])]
      exact hraise e _ _ hattempt
    | none =>
      rw [runActs_cons_ok he, runActs_cons_ok (by rw [h.env, he])]
      exact ih (sameEvents_advance hattempt)

theorem sameEvents_doneOf (d d' : Driver) (i : Instr) {s u : State} (h : SameEvents s u) :
    SameEvents (doneOf d i s) (doneOf d' i u) :=
  ⟨by simp [h.cfg], by simp [h.env], by simp [h.trace], by simp [h.rstLine]⟩

theorem sameEvents_raise (e : ErrKind) {s u : State} (h : SameEvents s u) : SameEvents (s.raise e) (u.raise e) :=
  ⟨h.cfg, h.env, h.trace, h.rstLine⟩

/-- Settles O49: the two runs have one list (`planOf_congr`) and one oracle, so they end alike (`runActs_related`). -/
theorem eventsDoNotDependOnOrientationOrSize : Obligations.EventsDoNotDependOnOrientationOrSize := by
  intro s t d d' i hd hbus hrst hx
  have hd' : LiveIdle { s with life := .live d' } d' := ⟨hd.1, rfl⟩
  obtain ⟨hn, hwf, ht⟩ := exec_live_next hd hx
  have hstart : SameEvents (s.start i) (State.start i { s with life := .live d' }) := ⟨rfl, rfl, rfl, rfl⟩
  obtain ⟨hsame, hresp⟩ := runActs_related (R := fun t u => SameEvents t u ∧ (i ≠ .orientation → u.resp = t.resp)) hstart
    (fun s u h => ⟨sameEvents_doneOf d d' i h, fun hi => doneOf_resp_congr hbus hrst hi s u⟩)
    (fun e s u h => ⟨sameEvents_raise e h, fun _ => rfl⟩) (planOf s.cfg d i)
  refine ⟨_, exec_live hd' hn hwf, ?_⟩
  rw [planOf_congr hrst, ht]
  exact ⟨hsame.trace, hsame.env, hsame.rstLine, hresp⟩

/-! ## Agreement -/

/-- A successful SET_ORIENTATION on an initialised controller: what the block stores and what the controller holds. -/
theorem setOrientation_ready {s : State} {d : Driver} {o : Orientation} (hd : LiveIdle s d) (hwf : s.cfg.wf = true)
    (hb : s.panel.bringup = .ready) (hok : s.env.allOk (planSetOrientation s.cfg o) = true) :
    ∃ t, exec (.setOrientation o) s = .next t ∧ Agree t ∧
      t.panel.fm = if s.panel.madctl = some (s.cfg.pattern o) then s.panel.fm else [] := by
  have hp : (planSetOrientation s.cfg o).all Action.noPin = true := by
    simp [planSetOrientation, planMadctl, Action.noPin]
  obtain ⟨u, hx, -, hcfg, -, -, -, -, -, hpanel⟩ := exec_emitted hd (i := .setOrientation o) rfl rfl hp hok
  have hbytes : wireView (okEvents s.cfg (planOf s.cfg d (.setOrientation o)))
      = stepBytes s.cfg .madctl [s.cfg.pattern o] := wireView_planOf s.cfg d (.setOrientation o)
  rw [hbytes, recvAll_madctl hwf s.dims hb] at hpanel
  refine ⟨_, hx, ⟨_, rfl, ?_⟩, ?_⟩
  · simp [doneOf, hpanel, hcfg]
  · simp [doneOf, hpanel]

theorem planHardReset_pin {d : Driver} {p : PinHandle} (h : d.rst = some p) (c : Cfg) :
    planHardReset c d
      = [.pin .high, .delay c.tRst1, .pin .low, .delay c.tRst2, .pin .high, .delay c.tRst3] := by
  simp [planHardReset, Driver.hasRst, h]

theorem attempt_delay_panel (us : Nat) (s : State) : (attempt (.delay us) s).1.panel = s.panel := rfl

/-- The pulse, every set of it answered ok, moves the controller with the line (R143). -/
theorem sent_pulse_panel {s : State} {t1 t2 t3 : Nat}
    (hok : s.env.allOk [.pin .high, .delay t1, .pin .low, .delay t2, .pin .high, .delay t3] = true) :
    (s.sent [.pin .high, .delay t1, .pin .low, .delay t2, .pin .high, .delay t3]).panel
      = ((s.panel.pinMoved .high).pinMoved .low).pinMoved .high := by
  simp only [allOk_cons, Env.saysOk, Env.after, Bool.and_eq_true, beq_iff_eq] at hok
  obtain ⟨h1, -, h2, -, h3, -⟩ := hok
  simp [attempt_delay_panel, attempt_pin_panel_ok, Env.after, h1, h2, h3]

/-- A pulse leaves a controller that an INIT has brought up taking commands, and nothing known of its registers (R243). -/
theorem pulse_ready {p : Panel} (h : p.bringup ≠ .uninit) :
    (((p.pinMoved .high).pinMoved .low).pinMoved .high).bringup = .ready := by
  cases hb : p.bringup with
  | uninit => exact absurd hb h
  | held | ready => simp [Panel.pinMoved, hb]

/-- A successful HARD_RESET with a reset pin. -/
theorem hardReset_pulse {s : State} {d : Driver} {delay : DelayProvider} {p : PinHandle} (hd : LiveIdle s d)
    (hr : d.rst = some p) (hok : s.env.allOk (planHardReset s.cfg d) = true) :
    ∃ u, exec (.hardReset delay) s = .next u ∧ LiveIdle u d ∧ u.cfg = s.cfg ∧
      u.env = s.env.afterAll (planHardReset s.cfg d) ∧
      u.panel = ((s.panel.pinMoved .high).pinMoved .low).pinMoved .high := by
  refine ⟨_, (exec_allOk hd (i := .hardReset delay) rfl rfl hok).1, ⟨rfl, ?_⟩, ?_, ?_, ?_⟩
  · simpa [doneOf] using hd.2
  · simp
  · simp [planOf]
  · rw [planHardReset_pin hr] at hok
    simp only [planOf, planHardReset_pin hr, doneOf, returnUnit_panel]
    exact sent_pulse_panel (s := s.start (.hardReset delay)) hok

/-- Settles O29: the pattern's step leaves the pattern in the register (`setOrientation_ready`), and the pulse leaves the
controller ready for it (`pulse_ready`). -/
theorem successfulSetOrientationRestoresAgreement : Obligations.SuccessfulSetOrientationRestoresAgreement := by
  intro s d o hd hwf
  refine ⟨fun hb hok => setOrientation_ready hd hwf hb hok, fun delay p hr hb hok => ?_⟩
  rw [allOk_append, Bool.and_eq_true] at hok
  obtain ⟨hpulse, hset⟩ := hok
  obtain ⟨u, hu, hlive, hcfg, henv, hpanel⟩ := hardReset_pulse (delay := delay) hd hr hpulse
  obtain ⟨t, ht, hagree, -⟩ := setOrientation_ready (o := o) hlive (by rw [hcfg, hwf])
    (by rw [hpanel]; exact pulse_ready hb) (by rw [hcfg, henv]; exact hset)
  exact ⟨u, t, hu, hlive.2, by rw [hpanel]; rfl, ht, hagree⟩

end Sys2Proof.Machine

/-! PROOFS. The statements of 20_memory.md: byte order, the operations that leave the bus alone, and what the pixel
writes, the scroll and the tearing settings do to the frame memory of the reference environment. -/

namespace Sys2Proof.Machine

/-- Settles O1: the two bytes are the field's two halves, and the receiver puts them together again (`ofBe_be16`). -/
theorem sixteenBitFieldsAreBigEndian : Obligations.SixteenBitFieldsAreBigEndian := by
  intro v
  refine ⟨v.extractLsb' 8 8, v.extractLsb' 0 8, rfl, ?_, ?_, ofBe_be16 v⟩
  · have hv := v.isLt
    simp only [BitVec.extractLsb'_toNat, Nat.shiftRight_eq_div_pow]
    omega
  · simp

/-- Settles O53: nothing is known of the controller, and no operation runs. -/
theorem resetMeetsTheStateLaw : Obligations.ResetMeetsTheStateLaw :=
  ⟨canonical_unknown, seqInPlan_of_idle rfl⟩

/-! ## Operations without a bus transaction -/

/-- The primitive asks the bus. -/
def Action.isBus : Action → Bool
  | .cmd _ => true
  | .data _ => true
  | .pin _ => false
  | .delay _ => false

/-- What is recorded for a primitive is a bus transaction exactly when the primitive is one, whatever is answered. -/
@[simp] theorem event_isBus (c : Cfg) (e : Env) (a : Action) : (a.event c e).isBus = a.isBus := by
  cases a <;> rfl

/-- From `s` to `t` no bus transaction is recorded and no answer of the bus is consulted. -/
def LeavesBus (s t : State) : Prop :=
  ∃ new, t.trace = s.trace ++ new ∧ new.all (fun e => !e.isBus) = true ∧
    t.env.bus = s.env.bus ∧ t.env.busPos = s.env.busPos

theorem leavesBus_of_eq {s t : State} (ht : t.trace = s.trace) (he : t.env = s.env) : LeavesBus s t :=
  ⟨[], by simp [ht], rfl, by rw [he], by rw [he]⟩

theorem LeavesBus.trans {s t u : State} (h : LeavesBus s t) (h' : LeavesBus t u) : LeavesBus s u := by
  obtain ⟨xs, htrace, hxs, hbus, hpos⟩ := h
  obtain ⟨ys, htrace', hys, hbus', hpos'⟩ := h'
  exact ⟨xs ++ ys, by rw [htrace', htrace, List.append_assoc], by rw [List.all_append, hxs, hys]; rfl,
    hbus'.trans hbus, hpos'.trans hpos⟩

theorem leavesBus_attempt {a : Action} (h : a.isBus = false) (s : State) : LeavesBus s (attempt a s).1 := by
  have henv : (s.env.after a).bus = s.env.bus ∧ (s.env.after a).busPos = s.env.busPos := by
    cases a with
    | cmd | data => cases h
    | pin | delay => exact ⟨rfl, rfl⟩
  rw [← attempt_env] at henv
  exact ⟨[a.event s.cfg s.env], attempt_trace a s, by simp [h], henv⟩

/-- A list without bus transactions leaves the bus alone, whether it reaches its end or a pin set of it fails. -/
theorem leavesBus_runActs {done : State → State} (hdone : ∀ u, LeavesBus u (done u)) {acts : List Action}
    (h : ∀ a ∈ acts, a.isBus = false) (s : State) : LeavesBus s (runActs done acts s) := by
  induction acts generalizing s with
  | nil => exact hdone s
  | cons a rest ih =>
    have ha := leavesBus_attempt (h a (by simp)) s
    cases he : s.env.error a with
    | some e =>
      rw [runActs_cons_fails he]
      exact ha.trans (leavesBus_of_eq rfl rfl)
    | none =>
      rw [runActs_cons_ok he]
      exact (ha.trans (leavesBus_of_eq (by simp) (by simp))).trans (ih (fun b hb => h b (by simp [hb])) _)

/-- The pulse is made of pin sets and delays (R143). -/
theorem planHardReset_isBus (c : Cfg) (d : Driver) : ∀ a ∈ planHardReset c d, a.isBus = false := by
  rw [planHardReset]
  split <;> simp [Action.isBus]

theorem leavesBus_exec {i : Instr} {s t : State} (hn : isNew i = false)
    (h : ∀ d, ∀ a ∈ planOf s.cfg d i, a.isBus = false) (hx : exec i s = .next t) : LeavesBus s t := by
  obtain ⟨d, -, rfl⟩ := exec_next_inv hx hn
  have hrun := leavesBus_runActs (fun u => leavesBus_of_eq (doneOf_trace d i u) (doneOf_env d i u)) (h d) (s.start i)
  exact (leavesBus_of_eq rfl rfl : LeavesBus s (s.start i)).trans hrun

/-- Settles O46: NEW has no list; the lists of the other three hold no bus transaction (`leavesBus_exec`). -/
theorem fourOperationsLeaveTheBusAlone : Obligations.FourOperationsLeaveTheBusAlone := by
  intro s t i hi hx
  rcases hi with hn | ⟨delay, rfl⟩ | rfl | rfl
  · obtain ⟨b, p, w, h, rfl⟩ := exists_new_of_isNew hn
    obtain ⟨-, -, rfl⟩ := execNew_next_inv hx
    exact leavesBus_of_eq rfl rfl
  · exact leavesBus_exec (i := .hardReset delay) rfl (planHardReset_isBus s.cfg) hx
  · exact leavesBus_exec rfl (fun d a ha => by cases ha) hx
  · exact leavesBus_exec rfl (fun d a ha => by cases ha) hx

/-! ## What the controller receives -/

/-- Nothing is known of a canonical controller that takes no commands (R236). -/
theorem eq_forget_of_not_ready {p : Panel} (h : p.Canonical) (hb : p.bringup ≠ .ready) : p = p.forget := by
  obtain ⟨-, -, hforget⟩ := h
  exact hforget hb

/-- A successful operation of bus transactions that returns unit: its bytes on the wire, and the controller that
received them. -/
theorem exec_delivers {i : Instr} {s : State} {d : Driver} (h : LiveIdle s d) (hn : isNew i = false)
    (hwf : i.wf s.cfg = true) (hp : (planOf s.cfg d i).all Action.noPin = true) (hdone : doneOf d i = returnUnit d)
    (hok : s.env.allOk (planOf s.cfg d i) = true) :
    ∃ t, exec i s = .next t ∧ t.resp = some (.ok .unit) ∧
      wireView t.trace = wireView s.trace ++ operationBytes s.cfg i ∧
      t.panel = s.panel.recvAll s.cfg s.dims (operationBytes s.cfg i) := by
  obtain ⟨t, hx, -, hr, -, -, -, -, -, htrace, -, hpanel⟩ := exec_returnUnit h hn hwf hp hdone hok
  rw [wireView_planOf] at hpanel
  exact ⟨t, hx, hr, by rw [htrace, wireView_append, wireView_planOf], hpanel⟩

theorem noPin_cmd_dataActs (n : WireName) (k : Cut) (bs : List Byte) :
    (Action.cmd n :: dataActs k bs).all Action.noPin = true := by
  rw [List.all_cons, noPin_dataActs]
  rfl

theorem noPin_cmd_tableActs (n : WireName) (k : Cut) (bs : List Byte) :
    (Action.cmd n :: tableActs k bs).all Action.noPin = true := by
  rw [List.all_cons, noPin_tableActs]
  rfl

theorem noPin_planSetAddressWindow (c : Cfg) (sx sy ex ey : Half) :
    (planSetAddressWindow c sx sy ex ey).all Action.noPin = true := by
  rw [planSetAddressWindow, List.all_append, planCaset, planRaset, noPin_cmd_dataActs, noPin_cmd_dataActs]
  rfl

/-- Only HARD_RESET and INIT drive the pin. -/
theorem noPin_planOf (c : Cfg) (d : Driver) {i : Instr} (hreset : ∀ dl, i ≠ .hardReset dl)
    (hinit : ∀ dl, i ≠ .init dl) : (planOf c d i).all Action.noPin = true := by
  cases i with
  | hardReset delay => exact absurd rfl (hreset delay)
  | init delay => exact absurd rfl (hinit delay)
  | setAddressWindow sx sy ex ey => exact noPin_planSetAddressWindow c sx sy ex ey
  | setPixel x y color =>
    rw [planOf, planSetPixel, List.all_append, noPin_planSetAddressWindow, noPin_cmd_dataActs]
    rfl
  | setPixels sx sy ex ey colors =>
    rw [planOf, planSetPixels, planRamwr, List.all_append, noPin_planSetAddressWindow, noPin_cmd_dataActs]
    rfl
  | setTearingEffect m =>
    cases m with
    | off => rfl
    | vertical => exact noPin_cmd_dataActs _ _ _
    | horizontalAndVertical => exact noPin_cmd_dataActs _ _ _
  | swreset | slpout | dispon | teoff | new | orientation | release => rfl
  | tuneA | tuneB | gammaPos | gammaNeg => exact noPin_cmd_tableActs _ _ _
  | caset | raset | ramwr | teon | madctl | vscad | colmod | setOrientation | setScrollOffset =>
    exact noPin_cmd_dataActs _ _ _

/-! ## Scroll and tearing -/

/-- The scroll start (R185) on a canonical controller: where it takes no commands, nothing was known and nothing is. -/
theorem recvAll_setScrollOffset {c : Cfg} (h : c.wf = true) (dims : Nat × Nat) {p : Panel} (hp : p.Canonical)
    (v : Half) :
    let q := p.recvAll c dims (operationBytes c (.setScrollOffset v))
    q.fm = p.fm ∧ q.madctl = p.madctl ∧ (p.bringup = .ready → q.scroll = some v ∧ q.tearing = p.tearing) := by
  have hbytes : operationBytes c (.setScrollOffset v) = stepBytes c .vscad (be16 v) := rfl
  by_cases hb : p.bringup = .ready
  · rw [hbytes, recvAll_vscad h dims hb]
    exact ⟨rfl, rfl, fun _ => ⟨rfl, rfl⟩⟩
  · rw [hbytes, recvAll_not_ready h (mem_names c (by simp)) dims _ hb (eq_forget_of_not_ready hp hb)]
    exact ⟨rfl, rfl, fun hr => absurd hr hb⟩

/-- The tearing setting (R187), on an initialised controller. -/
theorem recvAll_setTearingEffect_ready {c : Cfg} (h : c.wf = true) (dims : Nat × Nat) {p : Panel}
    (hb : p.bringup = .ready) (m : TeMode) :
    ∃ cmd args, p.recvAll c dims (operationBytes c (.setTearingEffect m))
      = { p with cmd := cmd, args := args, tearing := some m } := by
  cases m with
  | off => exact ⟨_, _, recvAll_teoff h dims hb⟩
  | vertical => exact ⟨_, _, recvAll_teon h dims hb .vertical⟩
  | horizontalAndVertical => exact ⟨_, _, recvAll_teon h dims hb .horizontalAndVertical⟩

/-- SET_TEARING_EFFECT sends one step, TEOFF's or TEON's. -/
theorem operationBytes_setTearingEffect (c : Cfg) (m : TeMode) :
    ∃ n ∈ c.names, ∃ ds, operationBytes c (.setTearingEffect m) = stepBytes c n ds := by
  cases m with
  | off => exact ⟨.teoff, mem_names c (by simp), _, rfl⟩
  | vertical | horizontalAndVertical => exact ⟨.teon, mem_names c (by simp), _, rfl⟩

/-- The tearing setting on a canonical controller. -/
theorem recvAll_setTearingEffect {c : Cfg} (h : c.wf = true) (dims : Nat × Nat) {p : Panel} (hp : p.Canonical)
    (m : TeMode) :
    let q := p.recvAll c dims (operationBytes c (.setTearingEffect m))
    q.fm = p.fm ∧ q.madctl = p.madctl ∧ (p.bringup = .ready → q.tearing = some m ∧ q.scroll = p.scroll) := by
  by_cases hb : p.bringup = .ready
  · obtain ⟨cmd, args, hq⟩ := recvAll_setTearingEffect_ready h dims hb m
    rw [hq]
    exact ⟨rfl, rfl, fun _ => ⟨rfl, rfl⟩⟩
  · obtain ⟨n, hn, ds, hbytes⟩ := operationBytes_setTearingEffect c m
    rw [hbytes, recvAll_not_ready h hn dims _ hb (eq_forget_of_not_ready hp hb)]
    exact ⟨rfl, rfl, fun hr => absurd hr hb⟩

/-- Settles O39: the controller received the setting's step (`exec_delivers`), which writes its own register alone. -/
theorem scrollAndTearingKeepTheFrameMemory : Obligations.ScrollAndTearingKeepTheFrameMemory := by
  intro s d hd hwf hp
  refine ⟨fun v hok => ?_, fun m hok => ?_⟩
  · obtain ⟨t, hx, hr, -, hpanel⟩ := exec_delivers hd rfl rfl (noPin_planOf s.cfg d (by simp) (by simp)) rfl hok
    exact ⟨t, hx, hr, by rw [hpanel]; exact recvAll_setScrollOffset hwf s.dims hp v⟩
  · obtain ⟨t, hx, hr, -, hpanel⟩ := exec_delivers hd rfl rfl (noPin_planOf s.cfg d (by simp) (by simp)) rfl hok
    exact ⟨t, hx, hr, by rw [hpanel]; exact recvAll_setTearingEffect hwf s.dims hp m⟩

/-! ## The window and the stream -/

/-- The window that SET_PIXELS' operands name. -/
def windowOf (sx sy ex ey : Half) : Window :=
  ⟨sx.toNat, ex.toNat, sy.toNat, ey.toNat⟩

/-- The controller after CASET and RASET: the four registers, and a frame memory that is kept for an admitted window
only (R63, R68). -/
theorem recvAll_setAddressWindow {c : Cfg} (h : c.wf = true) (dims : Nat × Nat) {p : Panel} (hb : p.bringup = .ready)
    (sx sy ex ey : Half) :
    p.recvAll c dims (frameBytes (encode c (.setAddressWindow sx sy ex ey)))
      = { p with
          cmd := some (c.opc .raset), args := be16 sy ++ be16 ey
          xs := some sx, xe := some ex, ys := some sy, ye := some ey
          fm := if p.accepts c dims (windowOf sx sy ex ey) then p.fm else [] } := by
  have hbytes : frameBytes (encode c (.setAddressWindow sx sy ex ey))
      = stepBytes c .caset (be16 sx ++ be16 ex) ++ stepBytes c .raset (be16 sy ++ be16 ey) := rfl
  have hfm : (if p.rowsFit c dims sy.toNat ey.toNat then
        if p.columnsFit c dims sx.toNat ex.toNat then p.fm else []
      else [])
      = if p.accepts c dims (windowOf sx sy ex ey) then p.fm else [] := by
    cases hcol : p.columnsFit c dims sx.toNat ex.toNat <;> cases hrow : p.rowsFit c dims sy.toNat ey.toNat <;>
      simp [Panel.accepts, windowOf, hcol, hrow]
  rw [hbytes, recvAll_append, recvAll_caset h dims hb, recvAll_raset h dims (by exact hb), ← hfm]
  rfl

/-- The controller receives the pixels of colours in order. -/
def Panel.pixels (c : Cfg) (dims : Nat × Nat) (colors : List Color) (p : Panel) : Panel :=
  colors.foldl (fun q v => q.pixel c dims v) p

@[simp] theorem pixels_nil (c : Cfg) (dims : Nat × Nat) (p : Panel) : p.pixels c dims [] = p := rfl

@[simp] theorem pixels_cons (c : Cfg) (dims : Nat × Nat) (v : Color) (colors : List Color) (p : Panel) :
    p.pixels c dims (v :: colors) = (Panel.pixel c dims v p).pixels c dims colors := rfl

theorem pixels_append (c : Cfg) (dims : Nat × Nat) (xs ys : List Color) (p : Panel) :
    p.pixels c dims (xs ++ ys) = (p.pixels c dims xs).pixels c dims ys :=
  List.foldl_append

/-- A pixel writes the frame memory and the pointer, and nothing else (R65). -/
theorem pixel_frame (c : Cfg) (dims : Nat × Nat) (v : Color) (p : Panel) :
    ∃ fm ptr, Panel.pixel c dims v p = { p with fm := fm, ptr := ptr } := by
  simp only [Panel.pixel]
  split
  · split
    · split
      · exact ⟨_, _, rfl⟩
      · split <;> exact ⟨_, _, rfl⟩
    · exact ⟨_, _, rfl⟩
  · exact ⟨_, _, rfl⟩

/-- The two bytes of a colour after RAMWR are one pixel. -/
theorem recvAll_colour {c : Cfg} (h : c.wf = true) (dims : Nat × Nat) {p : Panel} (hb : p.bringup = .ready)
    (hc : p.cmd = some (c.opc .ramwr)) (ha : p.args = []) (v : Color) :
    p.recvAll c dims ((be16 v).map .d) = Panel.pixel c dims v p := by
  have hn : WireName.ramwr ∈ c.names := mem_names c (by simp)
  have hp : { p with args := [] } = p := by rw [← ha]
  have hv : ofBe (v.extractLsb' 8 8) (v.extractLsb' 0 8) = v := ofBe_be16 v
  rw [be16, List.map_cons, recvAll_cons, recv_data h hn dims hb hc, ha]
  have hfirst : ∀ (b : Byte) (q : Panel), Panel.onData c dims .ramwr ([] ++ [b]) q = q := fun _ _ => rfl
  rw [hfirst, List.map_cons, recvAll_cons, recv_data h hn dims (by exact hb) (by exact hc)]
  show Panel.pixel c dims (ofBe _ _) { p with args := [] } = _
  rw [hp, hv]

theorem recvAll_stream {c : Cfg} (h : c.wf = true) (dims : Nat × Nat) (colors : List Color) {p : Panel}
    (hb : p.bringup = .ready) (hc : p.cmd = some (c.opc .ramwr)) (ha : p.args = []) :
    p.recvAll c dims ((beStream colors).map .d) = p.pixels c dims colors := by
  induction colors generalizing p with
  | nil => rfl
  | cons v rest ih =>
    obtain ⟨fm, ptr, hq⟩ := pixel_frame c dims v p
    have hstream : beStream (v :: rest) = be16 v ++ beStream rest := rfl
    rw [hstream, List.map_append, recvAll_append, recvAll_colour h dims hb hc ha, pixels_cons,
      ih (by rw [hq]; exact hb) (by rw [hq]; exact hc) (by rw [hq]; exact ha)]

/-- RAMWR: the command, then its pixels one by one. -/
theorem recvAll_ramwr {c : Cfg} (h : c.wf = true) (dims : Nat × Nat) {p : Panel} (hb : p.bringup = .ready)
    (colors : List Color) :
    p.recvAll c dims (stepBytes c .ramwr (beStream colors))
      = (Panel.onCommand c .ramwr { p with cmd := some (c.opc .ramwr), args := [] }).pixels c dims colors := by
  rw [stepBytes, recvAll_cons, recv_opc h (n := .ramwr) (mem_names c (by simp)) dims hb]
  exact recvAll_stream h dims colors hb rfl rfl

/-- The controller that SET_PIXELS' window and RAMWR leave, before the first pixel: the pointer stands at the window's
first pixel (R64). -/
def Panel.opened (c : Cfg) (dims : Nat × Nat) (sx sy ex ey : Half) (p : Panel) : Panel :=
  { p with
    cmd := some (c.opc .ramwr), args := []
    xs := some sx, xe := some ex, ys := some sy, ye := some ey
    ptr := some (sx.toNat, sy.toNat)
    fm := if p.accepts c dims (windowOf sx sy ex ey) then p.fm else [] }

theorem operationBytes_setPixels (c : Cfg) (sx sy ex ey : Half) (colors : List Color) :
    operationBytes c (.setPixels sx sy ex ey colors)
      = frameBytes (encode c (.setAddressWindow sx sy ex ey)) ++ stepBytes c .ramwr (beStream colors) := rfl

theorem recvAll_setPixels {c : Cfg} (h : c.wf = true) (dims : Nat × Nat) {p : Panel} (hb : p.bringup = .ready)
    (sx sy ex ey : Half) (colors : List Color) :
    p.recvAll c dims (operationBytes c (.setPixels sx sy ex ey colors))
      = (p.opened c dims sx sy ex ey).pixels c dims colors := by
  rw [operationBytes_setPixels, recvAll_append, recvAll_setAddressWindow h dims hb, recvAll_ramwr h dims (by exact hb)]
  rfl

/-! ## A window out of range -/

theorem accepts_iff {c : Cfg} {dims : Nat × Nat} {p : Panel} {w : Window} :
    p.accepts c dims w = true ↔ w.x0 ≤ w.x1 ∧ w.y0 ≤ w.y1 ∧
      ∀ o ∈ p.inForce c, w.x1 < (rangeOf c dims o).1 ∧ w.y1 < (rangeOf c dims o).2 := by
  simp only [Panel.accepts, Panel.columnsFit, Panel.rowsFit, Bool.and_eq_true, decide_eq_true_eq, List.all_eq_true]
  constructor
  · rintro ⟨⟨hx, hcol⟩, hy, hrow⟩
    exact ⟨hx, hy, fun o ho => ⟨hcol o ho, hrow o ho⟩⟩
  · rintro ⟨hx, hy, h⟩
    exact ⟨⟨hx, fun o ho => (h o ho).1⟩, hy, fun o ho => (h o ho).2⟩

/-- Through a window that R65 does not admit, a stream teaches nothing of a frame memory of which nothing is known. -/
theorem pixels_not_accepted {c : Cfg} {dims : Nat × Nat} {p : Panel}
    (h : ∀ w, p.window = some w → p.accepts c dims w = false) (hf : p.fm = []) (colors : List Color) :
    p.pixels c dims colors = p := by
  induction colors with
  | nil => rfl
  | cons v rest ih =>
    have hp : { p with fm := [] } = p := by rw [← hf]
    rw [pixels_cons, pixel_not_accepted h, hp, ih]

/-- Nothing is known of the frame memory after a window that is not admitted, with no colour at all too. -/
theorem recvAll_setPixels_not_accepted {c : Cfg} (h : c.wf = true) (dims : Nat × Nat) {p : Panel} (hp : p.Canonical)
    {sx sy ex ey : Half} (hw : p.accepts c dims (windowOf sx sy ex ey) = false) (colors : List Color) :
    (p.recvAll c dims (operationBytes c (.setPixels sx sy ex ey colors))).fm = [] := by
  by_cases hb : p.bringup = .ready
  · have hf : (p.opened c dims sx sy ex ey).fm = [] := by simp [Panel.opened, hw]
    rw [recvAll_setPixels h dims hb, pixels_not_accepted _ hf, hf]
    intro w hq
    obtain rfl : windowOf sx sy ex ey = w := Option.some.inj hq
    exact hw
  · have hforget := eq_forget_of_not_ready hp hb
    have hstep : ∀ {n}, n ∈ c.names → ∀ ds, p.recvAll c dims (stepBytes c n ds) = p :=
      fun hn ds => recvAll_not_ready h hn dims ds hb hforget
    rw [operationBytes_setPixels, encode, frameBytes, recvAll_append, recvAll_append,
      hstep (mem_names c (by simp)), hstep (mem_names c (by simp)), hstep (mem_names c (by simp)), hforget]
    rfl

/-- Settles O59: the block sends what it is given, and the controller admits no such window (`accepts_iff`). -/
theorem aWindowOutOfRangeForgetsTheFrameMemory : Obligations.AWindowOutOfRangeForgetsTheFrameMemory := by
  intro s d sx sy ex ey colors hd hwf hp hbad hok
  obtain ⟨t, hx, hr, hwire, hpanel⟩ :=
    exec_delivers hd rfl rfl (noPin_planOf s.cfg d (by simp) (by simp)) rfl hok
  have hw : s.panel.accepts s.cfg s.dims (windowOf sx sy ex ey) = false := by
    rw [Bool.eq_false_iff, Ne, accepts_iff]
    rintro ⟨hcol, hrow, hrange⟩
    rcases hbad with hrev | hrev | ⟨o, ho, hout⟩
    · exact absurd hcol (Nat.not_le.2 hrev)
    · exact absurd hrow (Nat.not_le.2 hrev)
    · obtain ⟨hx1, hy1⟩ := hrange o ho
      exact hout.elim (Nat.not_le.2 hx1) (Nat.not_le.2 hy1)
  refine ⟨t, hx, hr, ?_, ?_⟩
  · rw [hpanel, recvAll_setPixels_not_accepted hwf s.dims hp hw]
  · rw [hwire, operationBytes_setPixels, List.append_assoc, List.append_assoc, ← List.append_assoc (_ :: _)]
    rfl

/-! ## Writes at numbered keys -/

section
variable {β : Type}

/-- The values written one after the other, the first at the key of number `i`. -/
def writeCells (key : Nat → Nat) (i : Nat) (vs : List β) (m : List (Nat × β)) : List (Nat × β) :=
  (vs.zipIdx i).foldl (fun m vi => setCell (key vi.2) vi.1 m) m

@[simp] theorem writeCells_nil (key : Nat → Nat) (i : Nat) (m : List (Nat × β)) : writeCells key i [] m = m := rfl

@[simp] theorem writeCells_cons (key : Nat → Nat) (i : Nat) (v : β) (vs : List β) (m : List (Nat × β)) :
    writeCells key i (v :: vs) m = writeCells key (i + 1) vs (setCell (key i) v m) := rfl

theorem getCell_writeCells_other {key : Nat → Nat} {i k : Nat} {vs : List β}
    (h : ∀ j, j < vs.length → key (i + j) ≠ k) (m : List (Nat × β)) :
    getCell k (writeCells key i vs m) = getCell k m := by
  induction vs generalizing i m with
  | nil => rfl
  | cons v rest ih =>
    have hi : key i ≠ k := h 0 (by simp)
    rw [writeCells_cons, ih, getCell_setCell_other hi.symm]
    intro j hj
    have := h (j + 1) (by simpa using hj)
    rwa [Nat.add_comm j 1, ← Nat.add_assoc] at this

/-- A value is read back where no later one was written over it. -/
theorem getCell_writeCells {key : Nat → Nat} {i j : Nat} {vs : List β} (hj : j < vs.length)
    (h : ∀ l, j < l → l < vs.length → key (i + l) ≠ key (i + j)) (m : List (Nat × β)) :
    getCell (key (i + j)) (writeCells key i vs m) = some vs[j] := by
  induction vs generalizing i j m with
  | nil => cases hj
  | cons v rest ih =>
    have hshift : ∀ l, i + (l + 1) = i + 1 + l := by omega
    cases j with
    | zero =>
      rw [writeCells_cons, getCell_writeCells_other, Nat.add_zero, getCell_setCell_same]
      · rfl
      · intro l hl
        rw [← hshift]
        exact h (l + 1) (by omega) (by simpa using hl)
    | succ j =>
      rw [writeCells_cons, hshift, ih (by simpa using hj)]
      · rfl
      · intro l hjl hl
        rw [← hshift, ← hshift]
        exact h (l + 1) (by omega) (by simpa using hl)

end

theorem forgetCells_forgetCells {β : Type} (p : Nat → Bool) (m : List (Nat × β)) :
    forgetCells p (forgetCells p m) = forgetCells p m := by
  simp [forgetCells, List.filter_filter]

/-! ## The pixels of a window in row-major order -/

/-- The number of columns of a window that is not reversed. -/
def Window.width (w : Window) : Nat :=
  w.x1 - w.x0 + 1

/-- The number of rows. -/
def Window.height (w : Window) : Nat :=
  w.y1 - w.y0 + 1

/-- Where the pointer is after `i` pixels from the window's first one (R65); past the last row from the pixel number
`width * height` on. -/
def Window.cell (w : Window) (i : Nat) : Nat × Nat :=
  (w.x0 + i % w.width, w.y0 + i / w.width)

/-- The key of pixel number `i`. -/
def Window.key (w : Window) (i : Nat) : Nat :=
  pixelKey (w.cell i).1 (w.cell i).2

theorem width_pos (w : Window) : 0 < w.width :=
  Nat.succ_pos _

theorem height_pos (w : Window) : 0 < w.height :=
  Nat.succ_pos _

@[simp] theorem cell_zero (w : Window) : w.cell 0 = (w.x0, w.y0) := by
  simp [Window.cell]

/-- The column of every cell is one of the window's. -/
theorem cell_column_le {w : Window} (hx : w.x0 ≤ w.x1) (i : Nat) : (w.cell i).1 ≤ w.x1 := by
  have h := Nat.mod_lt i (width_pos w)
  simp only [Window.cell]
  simp only [Window.width] at h ⊢
  omega

theorem cell_row_le_iff {w : Window} (hy : w.y0 ≤ w.y1) (i : Nat) :
    (w.cell i).2 ≤ w.y1 ↔ i < w.width * w.height := by
  rw [Nat.mul_comm, ← Nat.div_lt_iff_lt_mul (width_pos w)]
  simp only [Window.cell, Window.height]
  omega

theorem cell_add_mul (w : Window) {r : Nat} (hr : r < w.width) (q : Nat) :
    w.cell (r + w.width * q) = (w.x0 + r, w.y0 + q) := by
  simp only [Window.cell, Nat.add_mul_mod_self_left, Nat.mod_eq_of_lt hr, Nat.add_mul_div_left _ _ (width_pos w),
    Nat.div_eq_of_lt hr, Nat.zero_add]

/-- The pointer's step (R65) goes from one cell to the next: in the row, or to the first column of the next row. -/
theorem advancePtr_cell {w : Window} (hx : w.x0 ≤ w.x1) (i : Nat) : advancePtr w (w.cell i) = w.cell (i + 1) := by
  obtain ⟨r, q, hr, rfl⟩ : ∃ r q, r < w.width ∧ r + w.width * q = i :=
    ⟨_, _, Nat.mod_lt i (width_pos w), Nat.mod_add_div i w.width⟩
  have hwidth : w.width = w.x1 - w.x0 + 1 := rfl
  rw [cell_add_mul w hr]
  by_cases hend : r + 1 < w.width
  · have hnext : r + w.width * q + 1 = (r + 1) + w.width * q := Nat.add_right_comm _ _ _
    rw [hnext, cell_add_mul w hend, advancePtr, if_pos (show w.x0 + r < w.x1 by omega)]
    rfl
  · have hnext : r + w.width * q + 1 = 0 + w.width * (q + 1) := by rw [Nat.mul_succ]; omega
    rw [hnext, cell_add_mul w (width_pos w), advancePtr, if_neg (show ¬ w.x0 + r < w.x1 by omega)]
    rfl

theorem cell_injective (w : Window) : Function.Injective w.cell := by
  intro i j h
  simp only [Window.cell, Prod.mk.injEq, Nat.add_left_cancel_iff] at h
  rw [← Nat.mod_add_div i w.width, ← Nat.mod_add_div j w.width, h.1, h.2]

theorem pixelKey_inj {col row col' row' : Nat} (hc : col < 65536) (hc' : col' < 65536)
    (h : pixelKey col row = pixelKey col' row') : (col, row) = (col', row') := by
  simp only [pixelKey] at h
  ext <;> simp only <;> omega

section
variable {w : Window} (hx : w.x0 ≤ w.x1) (hlt : w.x1 < 65536)
include hx hlt

/-- A pixel's key is that of the cell number `i` only if the pixel is that cell. -/
theorem eq_cell_of_key {col row i : Nat} (hc : col < 65536) (h : w.key i = pixelKey col row) : (col, row) = w.cell i :=
  (pixelKey_inj (Nat.lt_of_le_of_lt (cell_column_le hx i) hlt) hc h).symm

theorem key_injective : Function.Injective w.key := fun _ j h =>
  cell_injective w (eq_cell_of_key hx hlt (Nat.lt_of_le_of_lt (cell_column_le hx j) hlt) h).symm

end

theorem inWindow_pixelKey {w : Window} {col row : Nat} (hc : col < 65536) :
    inWindow w (pixelKey col row) = true ↔ w.x0 ≤ col ∧ col ≤ w.x1 ∧ w.y0 ≤ row ∧ row ≤ w.y1 := by
  have hmod : pixelKey col row % 65536 = col := by simp only [pixelKey]; omega
  have hdiv : pixelKey col row / 65536 = row := by simp only [pixelKey]; omega
  simp only [inWindow, hmod, hdiv, Bool.and_eq_true, decide_eq_true_eq, and_assoc]

/-- The cells of a window before its end lie in it. -/
theorem inWindow_key {w : Window} (hx : w.x0 ≤ w.x1) (hy : w.y0 ≤ w.y1) (hlt : w.x1 < 65536) {i : Nat}
    (hi : i < w.width * w.height) : inWindow w (w.key i) = true :=
  (inWindow_pixelKey (Nat.lt_of_le_of_lt (cell_column_le hx i) hlt)).2
    ⟨Nat.le_add_right _ _, cell_column_le hx i, Nat.le_add_right _ _, (cell_row_le_iff hy i).2 hi⟩

/-! ## One pixel through an admitted window -/

/-- The controller takes pixels through a window that R65 admits. -/
structure Panel.Streams (c : Cfg) (dims : Nat × Nat) (w : Window) (p : Panel) : Prop where
  ready : p.bringup = .ready
  window : p.window = some w
  admitted : p.accepts c dims w = true

section
variable {c : Cfg} {dims : Nat × Nat} {w : Window} {p : Panel}

theorem streams_write (h : p.Streams c dims w) (fm : List (Nat × Color)) (ptr : Option (Nat × Nat)) :
    { p with fm := fm, ptr := ptr }.Streams c dims w :=
  ⟨h.ready, h.window, h.admitted⟩

theorem Panel.Streams.columns (h : p.Streams c dims w) : w.x0 ≤ w.x1 :=
  (accepts_iff.1 h.admitted).1

theorem Panel.Streams.rows (h : p.Streams c dims w) : w.y0 ≤ w.y1 :=
  (accepts_iff.1 h.admitted).2.1

/-- Before the window's end a pixel is written at its cell, and the pointer goes to the next one (R65). -/
theorem pixel_inside (h : p.Streams c dims w) {i : Nat} (hp : p.ptr = some (w.cell i)) (hi : i < w.width * w.height)
    (v : Color) :
    Panel.pixel c dims v p = { p with fm := setCell (w.key i) v p.fm, ptr := some (w.cell (i + 1)) } := by
  have hrow := (cell_row_le_iff h.rows i).2 hi
  rw [← advancePtr_cell h.columns]
  simp only [Panel.pixel, h.ready, h.window, hp, h.admitted, hrow, if_true]
  rfl

/-- Under the reference choice a pixel past the window's end is written at its first cell (R66). -/
theorem pixel_wraps (h : p.Streams c dims w) (hov : c.overrun = .wrapToFirst) {i : Nat}
    (hp : p.ptr = some (w.cell i)) (hi : w.width * w.height ≤ i) (v : Color) :
    Panel.pixel c dims v p = { p with fm := setCell (w.key 0) v p.fm, ptr := some (w.cell 1) } := by
  have hrow : ¬ (w.cell i).2 ≤ w.y1 := by rw [cell_row_le_iff h.rows]; omega
  have hkey : w.key 0 = pixelKey w.x0 w.y0 := by rw [Window.key, cell_zero]
  rw [hkey, ← advancePtr_cell h.columns 0, cell_zero]
  simp only [Panel.pixel, h.ready, h.window, hp, h.admitted, hrow, hov, if_true, if_false]

/-- Under the safe choice it makes the window unknown and leaves the pointer (U3). -/
theorem pixel_forgets (h : p.Streams c dims w) (hov : c.overrun = .windowUnknown) {i : Nat}
    (hp : p.ptr = some (w.cell i)) (hi : w.width * w.height ≤ i) (v : Color) :
    Panel.pixel c dims v p = { p with fm := forgetCells (inWindow w) p.fm } := by
  have hrow : ¬ (w.cell i).2 ≤ w.y1 := by rw [cell_row_le_iff h.rows]; omega
  simp only [Panel.pixel, h.ready, h.window, hp, h.admitted, hrow, hov, if_true, if_false]

/-! ## A stream through an admitted window -/

/-- A stream that ends before the window does writes cell after cell. -/
theorem pixels_inside (h : p.Streams c dims w) {i : Nat} (hp : p.ptr = some (w.cell i)) {colors : List Color}
    (hlen : i + colors.length ≤ w.width * w.height) :
    p.pixels c dims colors
      = { p with fm := writeCells w.key i colors p.fm, ptr := some (w.cell (i + colors.length)) } := by
  induction colors generalizing p i with
  | nil => simp [← hp]
  | cons v rest ih =>
    rw [List.length_cons] at hlen
    rw [pixels_cons, pixel_inside h hp (by omega), ih (streams_write h _ _) rfl (by omega), List.length_cons,
      writeCells_cons, Nat.add_right_comm, Nat.add_assoc]

/-- Under the reference choice any pixel is written at the cell of its number modulo the window's size. -/
theorem pixel_modulo (h : p.Streams c dims w) (hov : c.overrun = .wrapToFirst) {i : Nat}
    (hp : p.ptr = some (w.cell i)) (hi : i ≤ w.width * w.height) (v : Color) :
    Panel.pixel c dims v p = { p with
      fm := setCell (w.key (i % (w.width * w.height))) v p.fm
      ptr := some (w.cell (i % (w.width * w.height) + 1)) } := by
  rcases Nat.lt_or_eq_of_le hi with hlt | rfl
  · rw [Nat.mod_eq_of_lt hlt, pixel_inside h hp hlt]
  · rw [Nat.mod_self, pixel_wraps h hov hp (Nat.le_refl _)]

/-- Under the reference choice a stream of any length goes round the window. `j` is the pointer's number since it was
last at the window's first pixel, `i` the colour's. -/
theorem pixels_modulo (h : p.Streams c dims w) (hov : c.overrun = .wrapToFirst) {i j : Nat}
    (hp : p.ptr = some (w.cell j)) (hj : j ≤ w.width * w.height)
    (hij : j % (w.width * w.height) = i % (w.width * w.height)) (colors : List Color) :
    (p.pixels c dims colors).fm = writeCells (fun i => w.key (i % (w.width * w.height))) i colors p.fm := by
  induction colors generalizing p i j with
  | nil => rfl
  | cons v rest ih =>
    have hnext : i % (w.width * w.height) + 1 ≤ w.width * w.height :=
      Nat.mod_lt i (Nat.mul_pos (width_pos w) (height_pos w))
    rw [pixels_cons, pixel_modulo h hov hp hj, hij, writeCells_cons, ih (streams_write h _ _) rfl hnext]
    exact Nat.mod_add_mod _ _ _

/-- Under the safe choice a stream that goes on past the window's end leaves the window unknown. -/
theorem pixels_past (h : p.Streams c dims w) (hov : c.overrun = .windowUnknown) {i : Nat}
    (hp : p.ptr = some (w.cell i)) (hi : w.width * w.height ≤ i) {colors : List Color} (hne : colors ≠ []) :
    p.pixels c dims colors = { p with fm := forgetCells (inWindow w) p.fm } := by
  induction colors generalizing p with
  | nil => exact absurd rfl hne
  | cons v rest ih =>
    rw [pixels_cons, pixel_forgets h hov hp hi]
    by_cases hr : rest = []
    · rw [hr, pixels_nil]
    · rw [ih (streams_write h _ _) (by exact hp) hr, forgetCells_forgetCells]

/-- Under the safe choice the colours that fit are written, and the first one past the window's end makes it unknown. -/
theorem pixels_overlong (h : p.Streams c dims w) (hov : c.overrun = .windowUnknown) (hp : p.ptr = some (w.cell 0))
    {colors : List Color} (hlong : w.width * w.height < colors.length) :
    (p.pixels c dims colors).fm
      = forgetCells (inWindow w) (writeCells w.key 0 (colors.take (w.width * w.height)) p.fm) := by
  have hfits : 0 + (colors.take (w.width * w.height)).length = w.width * w.height := by
    rw [Nat.zero_add, List.length_take_of_le (Nat.le_of_lt hlong)]
  have hrest : colors.drop (w.width * w.height) ≠ [] := by simpa using hlong
  have hsplit : p.pixels c dims colors
      = (p.pixels c dims (colors.take (w.width * w.height))).pixels c dims (colors.drop (w.width * w.height)) := by
    rw [← pixels_append, List.take_append_drop]
  rw [hsplit, pixels_inside h hp (Nat.le_of_eq hfits), hfits,
    pixels_past (streams_write h _ _) hov rfl (Nat.le_refl _) hrest]

end

/-! ## SET_PIXELS through an admitted window -/

/-- The cell of a number taken modulo the window's size: the column modulo the width, the row modulo the height (R66). -/
theorem key_mod (w : Window) (i : Nat) :
    w.key (i % (w.width * w.height)) = pixelKey (w.x0 + i % w.width) (w.y0 + i / w.width % w.height) := by
  rw [Window.key, Window.cell, Nat.mod_mul_right_mod, Nat.mod_mul_right_div_self]

/-- A successful SET_PIXELS whose window an initialised controller admits is a stream from the window's first pixel over
the frame memory as it was. -/
theorem exec_setPixels_admitted {s : State} {d : Driver} {sx sy ex ey : Half} {colors : List Color} (hd : LiveIdle s d)
    (hwf : s.cfg.wf = true) (hb : s.panel.bringup = .ready) (hx : sx.toNat ≤ ex.toNat) (hy : sy.toNat ≤ ey.toNat)
    (hrange : ∀ o ∈ s.panel.inForce s.cfg,
      ex.toNat < (rangeOf s.cfg s.dims o).1 ∧ ey.toNat < (rangeOf s.cfg s.dims o).2)
    (hok : s.env.allOk (planOf s.cfg d (.setPixels sx sy ex ey colors)) = true) :
    ∃ (t : State) (p : Panel), exec (.setPixels sx sy ex ey colors) s = .next t ∧
      t.panel = p.pixels s.cfg s.dims colors ∧
      p.Streams s.cfg s.dims (windowOf sx sy ex ey) ∧ p.ptr = some ((windowOf sx sy ex ey).cell 0) ∧
      p.fm = s.panel.fm := by
  have hw : s.panel.accepts s.cfg s.dims (windowOf sx sy ex ey) = true := accepts_iff.2 ⟨hx, hy, hrange⟩
  obtain ⟨t, ht, -, -, hpanel⟩ := exec_delivers hd rfl rfl (noPin_planOf s.cfg d (by simp) (by simp)) rfl hok
  exact ⟨t, s.panel.opened s.cfg s.dims sx sy ex ey, ht, by rw [hpanel, recvAll_setPixels hwf s.dims hb],
    ⟨hb, rfl, hw⟩, by rw [cell_zero]; rfl, if_pos hw⟩

/-- Settles O56: the stream ends before the window does (`pixels_inside`), and no two of its pixels have one key. -/
theorem setPixelsFillsItsWindowInRowMajorOrder : Obligations.SetPixelsFillsItsWindowInRowMajorOrder := by
  intro s d sx sy ex ey colors hd hwf hb hx hy hrange width hlen hok
  obtain ⟨t, p, ht, hpanel, hstreams, hptr, hfm⟩ := exec_setPixels_admitted hd hwf hb hx hy hrange hok
  rw [pixels_inside hstreams hptr (by rw [Nat.zero_add]; exact hlen), hfm] at hpanel
  refine ⟨t, ht, fun i hi => ?_, fun col row hcol hother => ?_⟩
  · rw [Panel.pixelAt, hpanel]
    have hread := getCell_writeCells (key := (windowOf sx sy ex ey).key) (i := 0) hi
      (fun l hl _ h => absurd (key_injective hx ex.isLt h) (by omega)) s.panel.fm
    rwa [Nat.zero_add] at hread
  · rw [Panel.pixelAt, hpanel]
    refine getCell_writeCells_other (fun j hj hkey => ?_) _
    rw [Nat.zero_add] at hkey
    exact hother j hj (eq_cell_of_key hx ex.isLt hcol hkey)

/-- Settles O57: the stream goes round the window (`pixels_modulo`). -/
theorem overlongStreamWrapsUnderTheReferenceChoice : Obligations.OverlongStreamWrapsUnderTheReferenceChoice := by
  intro s d sx sy ex ey colors hd hwf hov hb hx hy hrange width height hok
  obtain ⟨t, p, ht, hpanel, hstreams, hptr, hfm⟩ := exec_setPixels_admitted hd hwf hb hx hy hrange hok
  refine ⟨t, ht, ?_⟩
  rw [hpanel, pixels_modulo hstreams hov hptr (Nat.zero_le _) rfl, hfm, funext (key_mod _)]
  rfl

/-- Settles O58: what the colours that fit have written in the window is forgotten with it (`pixels_overlong`), and
outside it they write nothing (`inWindow_key`). -/
theorem overlongStreamForgetsTheWindowUnderTheSafeChoice :
    Obligations.OverlongStreamForgetsTheWindowUnderTheSafeChoice := by
  intro s d sx sy ex ey colors hd hwf hov hb hx hy hrange hlong hok
  obtain ⟨t, p, ht, hpanel, hstreams, hptr, hfm⟩ := exec_setPixels_admitted hd hwf hb hx hy hrange hok
  refine ⟨t, ht, fun col row hcol => ?_⟩
  rw [Panel.pixelAt, hpanel, pixels_overlong hstreams hov hptr hlong, hfm, getCell_forgetCells]
  by_cases hin : inWindow (windowOf sx sy ex ey) (pixelKey col row) = true
  · rw [if_pos hin]
    exact (if_pos ((inWindow_pixelKey hcol).1 hin)).symm
  · rw [if_neg hin]
    refine Eq.trans ?_ (if_neg (fun h => hin ((inWindow_pixelKey hcol).2 h))).symm
    refine getCell_writeCells_other (fun j hj hkey => hin ?_) _
    rw [← hkey, Nat.zero_add]
    exact inWindow_key hx hy ex.isLt (Nat.lt_of_lt_of_le hj (List.length_take_le _ _))

end Sys2Proof.Machine

/-! PROOFS. The statements of 30_encoding.md: the wire formats and the request port read both ways, so that decoding and
encoding undo each other, that a stream splits where its commands stand, what the port refuses and what comes in there,
and that every command byte is an opcode of the Instruction Set. -/

namespace Sys2Proof.Machine

/-! ## The readers of the wire formats (R81) -/

theorem readW0_eq_ok {i j : Instr} {ds : List Byte} : readW0 i ds = .ok j ↔ ds = [] ∧ i = j := by
  cases ds <;> simp [readW0]

theorem readW1_eq_ok {f : Byte → Except Reject Instr} {j : Instr} {ds : List Byte} :
    readW1 f ds = .ok j ↔ ∃ p, ds = [p] ∧ f p = .ok j := by
  rw [readW1.eq_def]
  split <;> simp_all

theorem readW2_eq_ok {f : Half → Instr} {j : Instr} {ds : List Byte} :
    readW2 f ds = .ok j ↔ ∃ v, ds = be16 v ∧ f v = j := by
  constructor
  · intro h
    rw [readW2.eq_def] at h
    split at h
    · exact ⟨_, (be16_ofBe _ _).symm, Except.ok.inj h⟩
    · cases h
  · rintro ⟨v, rfl, rfl⟩
    rw [be16, readW2, ofBe_be16]

theorem readW4_eq_ok {f : Half → Half → Instr} {j : Instr} {ds : List Byte} :
    readW4 f ds = .ok j ↔ ∃ v w, ds = be16 v ++ be16 w ∧ f v w = j := by
  constructor
  · intro h
    rw [readW4.eq_def] at h
    split at h
    · exact ⟨_, _, by rw [be16_ofBe, be16_ofBe]; rfl, Except.ok.inj h⟩
    · cases h
  · rintro ⟨v, w, rfl, rfl⟩
    simp only [be16, List.cons_append, List.nil_append, readW4, ofBe_be16]

theorem readWS_eq_ok {f : List Color → Instr} {j : Instr} {ds : List Byte} :
    readWS f ds = .ok j ↔ ∃ cs, ds = beStream cs ∧ f cs = j := by
  constructor
  · intro h
    rw [readWS] at h
    split at h
    · exact ⟨_, (beStream_ofBeStream ‹_›).symm, Except.ok.inj h⟩
    · cases h
  · rintro ⟨cs, rfl, rfl⟩
    rw [readWS, ofBeStream_beStream]

theorem readWT_eq_ok {i j : Instr} {table ds : List Byte} : readWT i table ds = .ok j ↔ ds = table ∧ i = j := by
  rw [readWT]
  split <;> simp_all

theorem readTeon_eq_ok {p : Byte} {j : Instr} : readTeon p = .ok j ↔ ∃ m, p = teByte m ∧ .teon m = j := by
  constructor
  · intro h
    rw [readTeon] at h
    split at h
    · exact ⟨_, ‹_›, Except.ok.inj h⟩
    · split at h
      · exact ⟨_, ‹_›, Except.ok.inj h⟩
      · cases h
  · rintro ⟨m, rfl, rfl⟩
    cases m <;> rfl

theorem readParameter_eq_ok {c : Cfg} {f : Byte → Instr} {p : Byte} {j : Instr} :
    readParameter c f p = .ok j ↔ (f p).wf c = true ∧ f p = j := by
  rw [readParameter]
  split <;> simp_all

/-! ## Protocol steps (R80) -/

/-- The name and the payload of a wire instruction's one protocol step; a row that is no member of the Instruction Set
has none. -/
def protocolStep (c : Cfg) : Instr → Option (WireName × List Byte)
  | .swreset => some (.swreset, [])
  | .slpout => some (.slpout, [])
  | .dispon => some (.dispon, [])
  | .caset sx ex => some (.caset, be16 sx ++ be16 ex)
  | .raset sy ey => some (.raset, be16 sy ++ be16 ey)
  | .ramwr colors => some (.ramwr, beStream colors)
  | .teoff => some (.teoff, [])
  | .teon m => some (.teon, [teByte m])
  | .madctl p => some (.madctl, [p])
  | .vscad offset => some (.vscad, be16 offset)
  | .colmod p => some (.colmod, [p])
  | .tuneA k => some (.tuneA k, c.tuneAPayload k)
  | .tuneB k => some (.tuneB k, c.tuneBPayload k)
  | .gammaPos => some (.gammaPos, c.gammaPos)
  | .gammaNeg => some (.gammaNeg, c.gammaNeg)
  | .new _ _ _ _ | .hardReset _ | .init _ | .orientation | .setOrientation _ | .setPixel _ _ _ | .setPixels _ _ _ _ _
  | .setScrollOffset _ | .setTearingEffect _ | .release | .setAddressWindow _ _ _ _ => none

theorem isWire_eq_isSome (c : Cfg) (i : Instr) : isWire i = (protocolStep c i).isSome := by
  cases i <;> rfl

theorem protocolStep_of_isWire (c : Cfg) {i : Instr} (h : isWire i = true) :
    ∃ n ds, protocolStep c i = some (n, ds) := by
  rw [isWire_eq_isSome c, Option.isSome_iff_exists] at h
  obtain ⟨⟨n, ds⟩, hi⟩ := h
  exact ⟨n, ds, hi⟩

/-- The frame of a wire instruction is its protocol step: the command byte, then the payload. -/
theorem encode_of_protocolStep {c : Cfg} {i : Instr} {n : WireName} {ds : List Byte}
    (h : protocolStep c i = some (n, ds)) : encode c i = .wire (stepBytes c n ds) := by
  cases i <;> cases h <;> rfl

theorem mem_names_of_protocolStep {c : Cfg} {i : Instr} {n : WireName} {ds : List Byte}
    (h : protocolStep c i = some (n, ds)) (hwf : i.wf c = true) : n ∈ c.names := by
  cases i with
  | tuneA k => cases h; exact tuneA_mem_names.2 (of_decide_eq_true hwf)
  | tuneB k => cases h; exact tuneB_mem_names.2 (of_decide_eq_true hwf)
  | _ => cases h <;> exact mem_names c (by simp)

/-- The format of a member reads exactly the payloads of its well-formed instructions (R81, R92). -/
theorem decodeNamed_eq_ok {c : Cfg} {n : WireName} {ds : List Byte} {i : Instr} (hn : n ∈ c.names) :
    decodeNamed c n ds = .ok i ↔ protocolStep c i = some (n, ds) ∧ i.wf c = true := by
  constructor
  · intro h
    cases n with
    | swreset | slpout | dispon | teoff => obtain ⟨rfl, rfl⟩ := readW0_eq_ok.1 h; exact ⟨rfl, rfl⟩
    | caset | raset => obtain ⟨v, w, rfl, rfl⟩ := readW4_eq_ok.1 h; exact ⟨rfl, rfl⟩
    | ramwr => obtain ⟨cs, rfl, rfl⟩ := readWS_eq_ok.1 h; exact ⟨rfl, rfl⟩
    | vscad => obtain ⟨v, rfl, rfl⟩ := readW2_eq_ok.1 h; exact ⟨rfl, rfl⟩
    | teon =>
      obtain ⟨p, rfl, hp⟩ := readW1_eq_ok.1 h
      obtain ⟨m, rfl, rfl⟩ := readTeon_eq_ok.1 hp
      exact ⟨rfl, rfl⟩
    | madctl | colmod =>
      obtain ⟨p, rfl, hp⟩ := readW1_eq_ok.1 h
      obtain ⟨hwf, rfl⟩ := readParameter_eq_ok.1 hp
      exact ⟨rfl, hwf⟩
    | tuneA k => obtain ⟨rfl, rfl⟩ := readWT_eq_ok.1 h; exact ⟨rfl, decide_eq_true (tuneA_mem_names.1 hn)⟩
    | tuneB k => obtain ⟨rfl, rfl⟩ := readWT_eq_ok.1 h; exact ⟨rfl, decide_eq_true (tuneB_mem_names.1 hn)⟩
    | gammaPos | gammaNeg => obtain ⟨rfl, rfl⟩ := readWT_eq_ok.1 h; exact ⟨rfl, rfl⟩
  · rintro ⟨h, hwf⟩
    cases i with
    | swreset | slpout | dispon | teoff => cases h; rfl
    | caset v w | raset v w => cases h; exact readW4_eq_ok.2 ⟨v, w, rfl, rfl⟩
    | ramwr cs => cases h; exact readWS_eq_ok.2 ⟨cs, rfl, rfl⟩
    | vscad v => cases h; exact readW2_eq_ok.2 ⟨v, rfl, rfl⟩
    | teon m => cases h; exact readW1_eq_ok.2 ⟨_, rfl, readTeon_eq_ok.2 ⟨m, rfl, rfl⟩⟩
    | madctl p | colmod p => cases h; exact readW1_eq_ok.2 ⟨p, rfl, readParameter_eq_ok.2 ⟨hwf, rfl⟩⟩
    | tuneA | tuneB | gammaPos | gammaNeg => cases h; exact readWT_eq_ok.2 ⟨rfl, rfl⟩
    | _ => cases h

/-- A wire instruction's protocol step decodes to it; the opcodes being distinct, no other name is read (R88). -/
theorem decodeStep_protocolStep {c : Cfg} (hc : c.wf = true) {i : Instr} {n : WireName} {ds : List Byte}
    (h : protocolStep c i = some (n, ds)) (hwf : i.wf c = true) : decodeStep c (c.opc n) ds = .ok i := by
  have hn := mem_names_of_protocolStep h hwf
  simp only [decodeStep, nameOf_opc hc hn]
  exact (decodeNamed_eq_ok hn).2 ⟨h, hwf⟩

/-- What decodes as a protocol step is the step of a well-formed instruction, under any configuration. -/
theorem protocolStep_of_decodeStep {c : Cfg} {b : Byte} {ds : List Byte} {i : Instr} (h : decodeStep c b ds = .ok i) :
    ∃ n, c.opc n = b ∧ protocolStep c i = some (n, ds) ∧ i.wf c = true := by
  rw [decodeStep] at h
  split at h
  · obtain ⟨hn, hb⟩ := nameOf_some ‹_›
    exact ⟨_, hb, (decodeNamed_eq_ok hn).1 h⟩
  · cases h

/-! ## Streams of protocol steps (R80, R97) -/

/-- The tagged bytes of a sequence of wire instructions. -/
def streamBytes (c : Cfg) (is : List Instr) : List WireByte :=
  is.flatMap fun i => frameBytes (encode c i)

theorem streamBytes_cons {c : Cfg} {i : Instr} {n : WireName} {ds : List Byte} (h : protocolStep c i = some (n, ds))
    (is : List Instr) : streamBytes c (i :: is) = .c (c.opc n) :: (ds.map .d ++ streamBytes c is) := by
  rw [streamBytes, List.flatMap_cons, encode_of_protocolStep h]
  rfl

/-- A stream of wire instructions begins with a command byte. -/
theorem commandNext_streamBytes (c : Cfg) {is : List Instr} (h : ∀ i ∈ is, isWire i = true) :
    commandNext (streamBytes c is) := by
  cases is with
  | nil => trivial
  | cons i rest =>
    obtain ⟨n, ds, hi⟩ := protocolStep_of_isWire c (h i (by simp))
    rw [streamBytes_cons hi]
    trivial

/-- Each instruction of a stream has a byte of its own, so a stream's length is fuel enough to split it. -/
theorem length_le_streamBytes (c : Cfg) {is : List Instr} (h : ∀ i ∈ is, isWire i = true) :
    is.length ≤ (streamBytes c is).length := by
  induction is with
  | nil => exact Nat.zero_le _
  | cons i rest ih =>
    obtain ⟨n, ds, hi⟩ := protocolStep_of_isWire c (h i (by simp))
    have hrest := ih fun j hj => h j (by simp [hj])
    simp only [streamBytes_cons hi, List.length_cons, List.length_append]
    omega

theorem decodeSteps_streamBytes {c : Cfg} (hc : c.wf = true) {is : List Instr} {fuel : Nat}
    (h : ∀ i ∈ is, isWire i = true ∧ i.wf c = true) (hfuel : is.length ≤ fuel) :
    decodeSteps c fuel (streamBytes c is) = .ok is := by
  induction is generalizing fuel with
  | nil => cases fuel <;> rfl
  | cons i rest ih =>
    obtain ⟨hwire, hwf⟩ := h i (by simp)
    obtain ⟨n, ds, hi⟩ := protocolStep_of_isWire c hwire
    have hrest : ∀ j ∈ rest, isWire j = true ∧ j.wf c = true := fun j hj => h j (by simp [hj])
    cases fuel with
    | zero => cases hfuel
    | succ fuel =>
      rw [streamBytes_cons hi]
      exact decodeSteps_step (commandNext_streamBytes c fun j hj => (hrest j hj).1) (decodeStep_protocolStep hc hi hwf)
        (ih hrest (Nat.le_of_succ_le_succ hfuel))

theorem decodeStream_streamBytes {c : Cfg} (hc : c.wf = true) {is : List Instr}
    (h : ∀ i ∈ is, isWire i = true ∧ i.wf c = true) : decodeStream c (streamBytes c is) = .ok is :=
  decodeSteps_streamBytes hc h (length_le_streamBytes c fun i hi => (h i hi).1)

/-- Settles O5, by induction on the list of instructions (`decodeSteps_streamBytes`): the payload of the first ends at
the command byte of the next. -/
theorem wireViewSplitsIntoItsInstructions : Obligations.WireViewSplitsIntoItsInstructions :=
  fun _ _ hc h => decodeStream_streamBytes hc h

theorem takeData_append_dropData (bs : List WireByte) : (takeData bs).map .d ++ dropData bs = bs := by
  induction bs with
  | nil => rfl
  | cons b rest ih =>
    cases b with
    | c b => rfl
    | d b => rw [takeData, dropData, List.map_cons, List.cons_append, ih]

/-- A stream that decodes is the stream of what it decodes to, well-formed wire instructions all. -/
theorem streamBytes_of_decodeSteps {c : Cfg} {fuel : Nat} {bs : List WireByte} {is : List Instr}
    (h : decodeSteps c fuel bs = .ok is) : streamBytes c is = bs ∧ ∀ i ∈ is, isWire i = true ∧ i.wf c = true := by
  induction fuel, bs using decodeSteps.induct (c := c) generalizing is with
  | case1 fuel => cases fuel <;> cases h <;> exact ⟨rfl, by simp⟩
  | case2 fuel b rest => cases fuel <;> cases h
  | case3 b rest => cases h
  | case4 fuel b rest r hstep => simp only [decodeSteps, hstep, reduceCtorEq] at h
  | case5 fuel b rest i hstep r hrest => simp only [decodeSteps, hstep, hrest, reduceCtorEq] at h
  | case6 fuel b rest i hstep is' hrest ih =>
    simp only [decodeSteps, hstep, hrest, Except.ok.injEq] at h
    subst h
    obtain ⟨n, rfl, hi, hwf⟩ := protocolStep_of_decodeStep hstep
    obtain ⟨hbytes, hall⟩ := ih hrest
    refine ⟨by rw [streamBytes_cons hi, hbytes, takeData_append_dropData], ?_⟩
    rintro j (_ | ⟨_, hj⟩)
    · exact ⟨by rw [isWire_eq_isSome c, hi]; rfl, hwf⟩
    · exact hall j hj

/-! ## The bits of a request (R95) -/

/-- The bits of operand fields of the given widths, each most significant bit first. -/
def operandBits (widths values : List Nat) : List Bool :=
  (List.zipWith msbBits widths values).flatten

/-- There is one value for each field, and it fits the field's width. -/
inductive FieldsFit : List Nat → List Nat → Prop where
  | nil : FieldsFit [] []
  | cons {n v : Nat} {ns vs : List Nat} (hlt : v < 2 ^ n) (hfit : FieldsFit ns vs) : FieldsFit (n :: ns) (v :: vs)

theorem ofMsbBits_lt (bits : List Bool) : ofMsbBits bits < 2 ^ bits.length := by
  have h := ofMsbBits_msbBits bits.length (ofMsbBits bits)
  rw [msbBits_ofMsbBits] at h
  exact h ▸ Nat.mod_lt _ (Nat.two_pow_pos _)

/-- The fields read from a bit string are the values that fit and whose bits it holds, and no others. -/
theorem readFields_eq_some {widths values : List Nat} {bits : List Bool} :
    readFields widths bits = some values ↔ FieldsFit widths values ∧ bits = operandBits widths values := by
  constructor
  · intro h
    induction widths generalizing bits values with
    | nil =>
      cases bits with
      | nil => cases h; exact ⟨.nil, rfl⟩
      | cons => cases h
    | cons n ns ih =>
      rw [readFields] at h
      split at h
      · cases h
      · rename_i hlen
        obtain ⟨vs, hvs, rfl⟩ := Option.map_eq_some_iff.1 h
        obtain ⟨hfit, hdrop⟩ := ih hvs
        have htake : (bits.take n).length = n := List.length_take_of_le (Nat.le_of_not_lt hlen)
        have hlt := ofMsbBits_lt (bits.take n)
        have hbits := msbBits_ofMsbBits (bits.take n)
        rw [htake] at hlt hbits
        refine ⟨.cons hlt hfit, ?_⟩
        calc bits = bits.take n ++ bits.drop n := (List.take_append_drop n bits).symm
          _ = msbBits n (ofMsbBits (bits.take n)) ++ operandBits ns vs := by rw [hbits, hdrop]
  · rintro ⟨hfit, rfl⟩
    induction hfit with
    | nil => rfl
    | cons hlt _ ih =>
      rw [operandBits, List.zipWith_cons_cons, List.flatten_cons, readFields_msbBits, Nat.mod_eq_of_lt hlt]
      exact congrArg _ ih

/-- The codes 0x0 to 0x9 are the only ones with an operand format (R95, R96). -/
theorem requestFields_eq_none {op : Nat} (h : 0xA ≤ op) : requestFields op = none := by
  match op, h with
  | _ + 10, _ => rfl

theorem opsel_lt {op : Nat} {widths : List Nat} (h : requestFields op = some widths) : op < 0xA := by
  refine Nat.lt_of_not_le fun hop => ?_
  rw [requestFields_eq_none hop] at h
  cases h

/-- A request decodes exactly when its bits are an `OPSEL` and operand fields of that operation's format, and those make
an instruction. -/
theorem decodeRequest_eq_ok {bits : List Bool} {side : Side} {i : Instr} :
    decodeRequest bits side = .ok i ↔ ∃ op widths values, requestFields op = some widths ∧ FieldsFit widths values ∧
      bits = msbBits 4 op ++ operandBits widths values ∧ requestOf op values side = .ok i := by
  constructor
  · intro h
    rw [decodeRequest] at h
    split at h
    · cases h
    · rename_i hlen
      have htake : (bits.take 4).length = 4 := List.length_take_of_le (Nat.le_of_not_lt hlen)
      have hop := msbBits_ofMsbBits (bits.take 4)
      rw [htake] at hop
      dsimp only at h
      split at h
      · cases h
      · rename_i widths hwidths
        split at h
        · cases h
        · rename_i values hvalues
          obtain ⟨hfit, hdrop⟩ := readFields_eq_some.1 hvalues
          exact ⟨_, widths, values, hwidths, hfit, by rw [hop, ← hdrop, List.take_append_drop], h⟩
  · rintro ⟨op, widths, values, hwidths, hfit, rfl, h⟩
    have hop : op % 2 ^ 4 = op := Nat.mod_eq_of_lt (by have := opsel_lt hwidths; omega)
    have htake : (msbBits 4 op ++ operandBits widths values).take 4 = msbBits 4 op :=
      List.take_left' (length_msbBits 4 op)
    have hdrop : (msbBits 4 op ++ operandBits widths values).drop 4 = operandBits widths values :=
      List.drop_left' (length_msbBits 4 op)
    have hlen : ¬ (msbBits 4 op ++ operandBits widths values).length < 4 := by simp
    simp only [decodeRequest, if_neg hlen, htake, hdrop, ofMsbBits_msbBits, hop, hwidths,
      readFields_eq_some.2 ⟨hfit, rfl⟩, h]

/-! ## Host operations as requests (R95) -/

theorem toNat_half {n : Nat} (h : n < 2 ^ 16) : (half n).toNat = n :=
  Nat.mod_eq_of_lt h

theorem half_toNat_eq (v : Half) : half v.toNat = v :=
  (BitVec.ofNat_toNat 16 v).trans (BitVec.setWidth_eq v)

theorem code_ofCode {n : Nat} (h : n < 4) : (Orientation.ofCode n).code = n := by
  match n, h with
  | 0, _ | 1, _ | 2, _ | 3, _ => rfl

theorem ofCode_code (o : Orientation) : Orientation.ofCode o.code = o := by
  cases o <;> rfl

theorem teMode_ofCode_eq_some {n : Nat} {m : TeMode} : TeMode.ofCode n = some m ↔ m.code = n := by
  constructor
  · intro h
    rw [TeMode.ofCode.eq_def] at h
    split at h <;> cases h <;> rfl
  · rintro rfl
    cases m <;> rfl

theorem wf_of_isHostOp (c : Cfg) {i : Instr} (h : isHostOp i = true) : i.wf c = true := by
  cases i with
  | madctl | colmod | tuneA | tuneB => cases h
  | _ => rfl

/-- The frame of a host operation holds its `OPSEL` and its operand fields, and a request of those is the operation. -/
theorem encode_hostOp (c : Cfg) {i : Instr} (h : isHostOp i = true) :
    ∃ op widths values side, requestFields op = some widths ∧ FieldsFit widths values ∧
      encode c i = .host (msbBits 4 op ++ operandBits widths values) side ∧ requestOf op values side = .ok i := by
  cases i with
  | hardReset | init | orientation | release => exact ⟨_, [], [], _, rfl, .nil, rfl, rfl⟩
  | new bus pin width height =>
    exact ⟨0x0, [16, 16], [width.toNat, height.toNat], _, rfl, .cons width.isLt (.cons height.isLt .nil), rfl,
      by simp only [requestOf, half_toNat_eq]⟩
  | setOrientation o =>
    exact ⟨0x4, [2], [o.code], _, rfl, .cons (by cases o <;> decide) .nil, rfl, by simp only [requestOf, ofCode_code]⟩
  | setPixel x y color =>
    exact ⟨0x5, [16, 16, 16], [x.toNat, y.toNat, color.toNat], _, rfl,
      .cons x.isLt (.cons y.isLt (.cons color.isLt .nil)), rfl, by simp only [requestOf, half_toNat_eq]⟩
  | setPixels sx sy ex ey colors =>
    exact ⟨0x6, [16, 16, 16, 16], [sx.toNat, sy.toNat, ex.toNat, ey.toNat], _, rfl,
      .cons sx.isLt (.cons sy.isLt (.cons ex.isLt (.cons ey.isLt .nil))), rfl, by simp only [requestOf, half_toNat_eq]⟩
  | setScrollOffset offset =>
    exact ⟨0x7, [16], [offset.toNat], _, rfl, .cons offset.isLt .nil, rfl, by simp only [requestOf, half_toNat_eq]⟩
  | setTearingEffect m =>
    exact ⟨0x8, [2], [m.code], _, rfl, .cons (by cases m <;> decide) .nil, rfl,
      by simp only [requestOf, teMode_ofCode_eq_some.2 rfl]⟩
  | _ => cases h

/-- Operands that fit 16-bit fields are written as they are. -/
theorem requestBits_half (op : Nat) {widths values : List Nat} (h16 : ∀ n ∈ widths, n = 16)
    (hfit : FieldsFit widths values) :
    requestBits op (values.map half) = msbBits 4 op ++ operandBits widths values := by
  suffices h : ((values.map half).flatMap fun v => msbBits 16 v.toNat) = operandBits widths values by
    rw [requestBits, h]
  induction hfit with
  | nil => rfl
  | cons hlt _ ih =>
    obtain rfl := h16 _ List.mem_cons_self
    rw [List.map_cons, List.flatMap_cons, ih fun n hn => h16 n (List.mem_cons_of_mem _ hn), toNat_half hlt]
    rfl

/-- What a request makes of operands that fit is a host operation whose frame holds that `OPSEL` and those operands. -/
theorem encode_of_requestOf (c : Cfg) {op : Nat} {widths values : List Nat} {side : Side} {i : Instr}
    (hw : requestFields op = some widths) (hfit : FieldsFit widths values) (h : requestOf op values side = .ok i) :
    isHostOp i = true ∧ ∃ side', encode c i = .host (msbBits 4 op ++ operandBits widths values) side' := by
  rw [requestOf.eq_def] at h
  split at h
  case h_5 o =>
    cases hw
    cases h
    obtain _ | ⟨ho, -⟩ := hfit
    exact ⟨rfl, Side.idle, by rw [encode, code_ofCode ho]; rfl⟩
  case h_9 m =>
    cases hw
    split at h
    · rename_i hm
      cases h
      exact ⟨rfl, Side.idle, by rw [← teMode_ofCode_eq_some.1 hm]; rfl⟩
    · cases h
  case h_11 => cases h
  -- every other operation has 16-bit fields alone, or none
  all_goals
    cases hw
    cases h
    exact ⟨rfl, _, congrArg (Frame.host · _) (requestBits_half _ (by simp) hfit)⟩

/-- A request that decodes is a host operation with the bits of its frame. -/
theorem hostOp_of_decodeRequest (c : Cfg) {bits : List Bool} {side : Side} {i : Instr}
    (h : decodeRequest bits side = .ok i) : isHostOp i = true ∧ ∃ side', encode c i = .host bits side' := by
  obtain ⟨op, widths, values, hw, hfit, rfl, hi⟩ := decodeRequest_eq_ok.1 h
  exact encode_of_requestOf c hw hfit hi

theorem decode_encode_hostOp (c : Cfg) {i : Instr} (h : isHostOp i = true) : decode c (encode c i) = .ok i := by
  obtain ⟨op, widths, values, side, hw, hfit, henc, hi⟩ := encode_hostOp c h
  rw [henc]
  exact decodeRequest_eq_ok.2 ⟨op, widths, values, hw, hfit, rfl, hi⟩

/-! ## Frames: decoding and encoding undo each other -/

theorem decode_wire_of_decodeStream {c : Cfg} {bs : List WireByte} {is : List Instr} (h : decodeStream c bs = .ok is) :
    decode c (.wire bs) = oneRow is := by
  rw [decode, h]

theorem decodeStream_of_decode_wire {c : Cfg} {bs : List WireByte} {i : Instr} (h : decode c (.wire bs) = .ok i) :
    ∃ is, decodeStream c bs = .ok is ∧ oneRow is = .ok i := by
  rw [decode] at h
  split at h
  · cases h
  · exact ⟨_, ‹_›, h⟩

theorem oneRow_ok_cases {is : List Instr} {i : Instr} (h : oneRow is = .ok i) :
    is = [i] ∨ ∃ sx sy ex ey, is = [.caset sx ex, .raset sy ey] ∧ i = .setAddressWindow sx sy ex ey := by
  rw [oneRow.eq_def] at h
  split at h
  · cases h; exact .inl rfl
  · cases h; exact .inr ⟨_, _, _, _, rfl, rfl⟩
  · cases h

theorem encode_of_isWire (c : Cfg) {i : Instr} (h : isWire i = true) : encode c i = .wire (streamBytes c [i]) := by
  obtain ⟨n, ds, hi⟩ := protocolStep_of_isWire c h
  rw [streamBytes_cons hi, encode_of_protocolStep hi]
  simp [streamBytes, stepBytes]

/-- The window step's frame is CASET, then RASET (R170). -/
theorem encode_setAddressWindow (c : Cfg) (sx sy ex ey : Half) :
    encode c (.setAddressWindow sx sy ex ey) = .wire (streamBytes c [.caset sx ex, .raset sy ey]) := rfl

theorem wire_or_host_or_window (i : Instr) :
    isWire i = true ∨ isHostOp i = true ∨ ∃ sx sy ex ey, i = .setAddressWindow sx sy ex ey := by
  cases i with
  | setAddressWindow sx sy ex ey => exact .inr (.inr ⟨sx, sy, ex, ey, rfl⟩)
  | swreset | slpout | dispon | caset | raset | ramwr | teoff | teon | madctl | vscad | colmod | tuneA | tuneB
  | gammaPos | gammaNeg => exact .inl rfl
  | _ => exact .inr (.inl rfl)

/-- Settles O3, by the three kinds of row: a wire instruction is a stream of one, the window step a stream of two, a
host operation the fields of its request. -/
theorem decodeOfEncodeIsTheInstruction : Obligations.DecodeOfEncodeIsTheInstruction := by
  intro c i hc hwf
  rcases wire_or_host_or_window i with hw | hh | ⟨sx, sy, ex, ey, rfl⟩
  · rw [encode_of_isWire c hw, decode_wire_of_decodeStream (decodeStream_streamBytes hc (by simp [hw, hwf])), oneRow]
  · exact decode_encode_hostOp c hh
  · rw [encode_setAddressWindow,
      decode_wire_of_decodeStream (decodeStream_streamBytes hc (by simp [isWire, Instr.wf])), oneRow]

/-- Settles O4: a stream that decodes is that of its instructions (`streamBytes_of_decodeSteps`), and a request that
decodes is that of its operation (`hostOp_of_decodeRequest`). -/
theorem encodeOfDecodeIsTheFrame : Obligations.EncodeOfDecodeIsTheFrame := by
  intro c i
  constructor
  · intro bytes h
    obtain ⟨is, hs, hrow⟩ := decodeStream_of_decode_wire h
    obtain ⟨rfl, hall⟩ := streamBytes_of_decodeSteps hs
    rcases oneRow_ok_cases hrow with rfl | ⟨sx, sy, ex, ey, rfl, rfl⟩
    · obtain ⟨hwire, hwf⟩ := hall i List.mem_cons_self
      exact ⟨encode_of_isWire c hwire, hwf⟩
    · exact ⟨encode_setAddressWindow c sx sy ex ey, rfl⟩
  · intro bits side h
    obtain ⟨hhost, hframe⟩ := hostOp_of_decodeRequest c h
    exact ⟨hframe, wf_of_isHostOp c hhost⟩

/-- Settles O2, by evaluating the decoder on the eight frames. -/
theorem writtenOutWordsDecode : Obligations.WrittenOutWordsDecode :=
  ⟨rfl, rfl, rfl, rfl, rfl, rfl, rfl, rfl⟩

/-! ## What the host port refuses and takes -/

/-- A request that does not decode is refused, with the decoder's reason. -/
theorem step_badRequest {s : State} {r : Request} {rest : List Request} {e : Reject} (hs : s.seq = .idle)
    (hp : s.placed = none) (hq : s.port = r :: rest) (hd : decode s.cfg (.host r.bits r.side) = .error e) :
    step s = .refused (.badRequest e) := by
  simp only [step, hs, hp, hq, hd]

theorem decodeRequest_reserved {bits : List Bool} (side : Side) (hlen : 4 ≤ bits.length)
    (hop : 0xA ≤ ofMsbBits (bits.take 4)) : decodeRequest bits side = .error .reservedOpsel := by
  simp only [decodeRequest, if_neg (Nat.not_lt.2 hlen), requestFields_eq_none hop]

/-- Settles O6: neither code decodes (`decodeRequest_reserved` for `OPSEL`), so the step refuses the request. -/
theorem reservedRequestCodesAreRefused : Obligations.ReservedRequestCodesAreRefused := by
  intro s bits side rest hs hp hq
  constructor
  · intro hlen hop
    exact step_badRequest hs hp hq (decodeRequest_reserved side hlen hop)
  · rintro rfl
    exact step_badRequest hs hp hq rfl

theorem exec_placed {i : Instr} {s t : State} (h : exec i s = .next t) : t.placed = s.placed := by
  cases hn : isNew i with
  | false =>
    obtain ⟨d, -, rfl⟩ := exec_next_inv h hn
    exact runActs_placed (doneOf_placed d i) _ (s.start i)
  | true =>
    obtain ⟨b, p, w, h', rfl⟩ := exists_new_of_isNew hn
    obtain ⟨-, -, rfl⟩ := execNew_next_inv h
    rfl

theorem continue_placed {op : Instr} {k : Nat} {s t : State} (h : s.continue op k = .next t) : t.placed = s.placed := by
  obtain ⟨d, a, -, -, ⟨e, -, rfl⟩ | ⟨-, -, rfl⟩ | ⟨-, -, rfl⟩⟩ := continue_next_inv h <;> simp

/-- Where nothing is placed, nothing is placed after a step, in the middle of an operation too. -/
theorem step_placed_none {s t : State} (hp : s.placed = none) (h : step s = .next t) : t.placed = none := by
  rcases step_next_inv h with
    ⟨op, k, -, hc⟩ | ⟨-, bytes, i, hplaced, -, -⟩ | ⟨-, -, r, rest, i, -, -, hx⟩ | ⟨-, -, -, rfl⟩
  · exact (continue_placed hc).trans hp
  · rw [hp] at hplaced
    cases hplaced
  · exact (exec_placed hx).trans hp
  · exact hp

/-- Settles O60, by what a request can decode to (`hostOp_of_decodeRequest`) and everything a step can do
(`step_next_inv`). -/
theorem hostRequestsAreHostOperations : Obligations.HostRequestsAreHostOperations := by
  refine ⟨fun c bits side i h => (hostOp_of_decodeRequest c h).1, ?_, fun s t => step_placed_none⟩
  intro s t hs hp h
  rcases step_next_inv h with
    ⟨op, k, hrun, -⟩ | ⟨-, bytes, i, hplaced, -, -⟩ | ⟨-, -, r, rest, i, hq, hd, hx⟩ | ⟨-, -, -, ht⟩
  · rw [hs] at hrun
    cases hrun
  · rw [hp] at hplaced
    cases hplaced
  · exact .inr ⟨r, rest, i, hq, hd, (hostOp_of_decodeRequest s.cfg hd).1, hx⟩
  · exact .inl ht

/-! ## The command bytes of an operation (R90) -/

/-- Every event that a run adds to the trace is recorded for a primitive of its list, whatever was answered. -/
theorem runActs_new_events {done : State → State} (hdone : ∀ u, (done u).trace = u.trace) (acts : List Action)
    (s : State) :
    ∃ new, (runActs done acts s).trace = s.trace ++ new ∧ ∀ ev ∈ new, ∃ a ∈ acts, ∃ e, ev = a.event s.cfg e := by
  induction acts generalizing s with
  | nil => exact ⟨[], by rw [runActs, hdone, List.append_nil], by simp⟩
  | cons a rest ih =>
    cases he : s.env.error a with
    | some e =>
      refine ⟨[a.event s.cfg s.env], by rw [runActs_cons_fails he, raise_trace, attempt_trace], fun ev hev => ?_⟩
      exact ⟨a, List.mem_cons_self, s.env, List.mem_singleton.1 hev⟩
    | none =>
      obtain ⟨new, htrace, hnew⟩ := ih (attempt a s).1.advance
      rw [advance_trace, attempt_trace, List.append_assoc] at htrace
      rw [advance_cfg, attempt_cfg] at hnew
      refine ⟨a.event s.cfg s.env :: new, by rw [runActs_cons_ok he, htrace]; rfl, fun ev hev => ?_⟩
      rcases List.mem_cons.1 hev with rfl | hev
      · exact ⟨a, List.mem_cons_self, s.env, rfl⟩
      · obtain ⟨b, hb, e, rfl⟩ := hnew ev hev
        exact ⟨b, List.mem_cons_of_mem a hb, e, rfl⟩

@[simp] theorem cmd_not_mem_dataActs (n : WireName) (k : Cut) (bs : List Byte) : .cmd n ∉ dataActs k bs := by
  simp [dataActs]

@[simp] theorem cmd_not_mem_tableActs (n : WireName) (k : Cut) (bs : List Byte) : .cmd n ∉ tableActs k bs := by
  rw [tableActs]
  split <;> simp

@[simp] theorem cmd_not_mem_planHardReset (n : WireName) (c : Cfg) (d : Driver) : .cmd n ∉ planHardReset c d := by
  rw [planHardReset]
  split <;> simp

theorem initTable_names {c : Cfg} {t : InitStep} (h : t ∈ initTable c) : t.name ∈ c.names := by
  simp only [initTable, tuneASteps, tuneBSteps, List.mem_append, List.mem_map, List.mem_range, List.mem_cons,
    List.not_mem_nil, or_false] at h
  rcases h with (((rfl | ⟨k, hk, rfl⟩) | rfl) | ⟨k, hk, rfl⟩) | rfl | rfl
  · exact mem_names c (by simp)
  · exact tuneA_mem_names.2 hk
  · exact mem_names c (by simp)
  · exact tuneB_mem_names.2 hk
  · exact mem_names c (by simp)
  · exact mem_names c (by simp)

theorem cmd_mem_planInit {c : Cfg} {d : Driver} {n : WireName} (h : .cmd n ∈ planInit c d) : n ∈ c.names := by
  have hcases : n = .swreset ∨ (∃ t ∈ initTable c, n = t.name) ∨ n = .slpout ∨ n = .dispon := by
    simpa [planInit, planSwreset, planSlpout, planDispon, initStepActs, or_assoc] using h
  rcases hcases with rfl | ⟨t, ht, rfl⟩ | rfl | rfl
  · exact mem_names c (by simp)
  · exact initTable_names ht
  · exact mem_names c (by simp)
  · exact mem_names c (by simp)

/-- Each command of an operation's list is a member of the Instruction Set: a tuning step in INIT or in its own row,
which exists; in every other list a name that is no tuning step. -/
theorem cmd_mem_planOf {c : Cfg} {d : Driver} {i : Instr} {n : WireName} (hwf : i.wf c = true)
    (h : .cmd n ∈ planOf c d i) : n ∈ c.names := by
  cases i with
  | init delay => exact cmd_mem_planInit h
  | tuneA k =>
    obtain rfl : n = .tuneA k := by simpa [planOf, planTuneA] using h
    exact tuneA_mem_names.2 (of_decide_eq_true hwf)
  | tuneB k =>
    obtain rfl : n = .tuneB k := by simpa [planOf, planTuneB] using h
    exact tuneB_mem_names.2 (of_decide_eq_true hwf)
  | setTearingEffect m =>
    have hn : n = .teoff ∨ n = .teon := by
      cases m <;> simp_all [planOf, planSetTearingEffect, planTeoff, planTeon]
    rcases hn with rfl | rfl <;> exact mem_names c (by simp)
  | _ =>
    refine mem_names c fun k => ⟨?_, ?_⟩ <;> rintro rfl <;>
      simp [planOf, planSwreset, planSlpout, planDispon, planCaset, planRaset, planRamwr, planTeoff, planTeon,
        planMadctl, planVscad, planColmod, planGammaPos, planGammaNeg, planSetOrientation, planSetPixel, planSetPixels,
        planSetAddressWindow, planSetScrollOffset] at h

theorem opc_mem_opcodeList {c : Cfg} {n : WireName} (h : n ∈ c.names) : c.opc n ∈ c.opcodeList := by
  rw [← names_map_opc]
  exact List.mem_map_of_mem h

/-- A command event is recorded for a command alone, with that command's opcode. -/
theorem event_eq_cmd {c : Cfg} {e : Env} {a : Action} {b : Byte} {r : BusAnswer} (h : .cmd b r = a.event c e) :
    ∃ n, a = .cmd n ∧ b = c.opc n := by
  cases a <;> cases h
  exact ⟨_, rfl, rfl⟩

/-- Settles O45: NEW records nothing; every other operation records events of its list (`runActs_new_events`), whose
commands are members of the set (`cmd_mem_planOf`). -/
theorem commandBytesBelongToTheClosedSet : Obligations.CommandBytesBelongToTheClosedSet := by
  intro s t i hwf hx
  cases hn : isNew i with
  | true =>
    obtain ⟨b, p, w, h', rfl⟩ := exists_new_of_isNew hn
    obtain ⟨-, -, rfl⟩ := execNew_next_inv hx
    exact ⟨[], (List.append_nil _).symm, by simp⟩
  | false =>
    obtain ⟨d, -, rfl⟩ := exec_next_inv hx hn
    obtain ⟨new, htrace, hnew⟩ := runActs_new_events (doneOf_trace d i) (planOf s.cfg d i) (s.start i)
    refine ⟨new, htrace, fun b r hev => ?_⟩
    obtain ⟨a, ha, e, hevent⟩ := hnew _ hev
    obtain ⟨n, rfl, rfl⟩ := event_eq_cmd hevent
    exact opc_mem_opcodeList (cmd_mem_planOf hwf ha)

end Sys2Proof.Machine

/-! PROOFS. The statements of 40_wire_instructions.md: every member of the Instruction Set run on its own sends its
command byte and its payload, and what the model refuses to send. -/

namespace Sys2Proof.Machine

/-! ## A protocol step on its own -/

theorem isNew_of_isWire {i : Instr} (h : isWire i = true) : isNew i = false := by
  cases i <;> cases h <;> rfl

/-- A protocol step writes no register and returns unit (R110). -/
theorem doneOf_of_isWire (d : Driver) {i : Instr} (h : isWire i = true) : doneOf d i = returnUnit d := by
  cases i <;> cases h <;> rfl

/-- What a member of the Instruction Set puts on the wire is its frame (R80). -/
theorem operationBytes_of_isWire (c : Cfg) {i : Instr} (h : isWire i = true) :
    operationBytes c i = frameBytes (encode c i) := by
  cases i <;> cases h <;> rfl

/-- R110: a member of the Instruction Set, all of whose transactions are answered ok, sends its frame by the
transactions of its list, writes no register and ends with Ok. -/
theorem exec_wire (i : Instr) {s : State} {d : Driver} {acts : List Action} (hd : LiveIdle s d) (hi : isWire i = true)
    (hwf : i.wf s.cfg = true) (hplan : planOf s.cfg d i = acts) (hok : s.env.allOk acts = true) :
    ∃ t, exec i s = .next t ∧ t.life = s.life ∧ t.resp = some (.ok .unit) ∧ Emitted acts s t ∧
      wireView t.trace = wireView s.trace ++ frameBytes (encode s.cfg i) := by
  subst hplan
  have hpin : (planOf s.cfg d i).all Action.noPin = true :=
    noPin_planOf s.cfg d (by rintro dl rfl; cases hi) (by rintro dl rfl; cases hi)
  obtain ⟨t, hx, hlife, hresp, hem⟩ := exec_returnUnit hd (isNew_of_isWire hi) hwf hpin (doneOf_of_isWire d hi) hok
  refine ⟨t, hx, hlife, hresp, hem, ?_⟩
  obtain ⟨-, -, -, -, -, htrace, -⟩ := hem
  rw [htrace, wireView_append, wireView_planOf, operationBytes_of_isWire s.cfg hi]

/-! ## Formats W0 to W4 -/

/-- Settles O40: the frame of each of the four rows is its command byte (`exec_wire`). -/
theorem commandsWithoutPayloadSendOneByte : Obligations.CommandsWithoutPayloadSendOneByte := by
  intro s d i n b hd hmem hbus
  have hok : s.env.allOk [.cmd n] = true := by simp [Env.saysOk, hbus]
  simp only [List.mem_cons, Prod.mk.injEq, List.not_mem_nil, or_false] at hmem
  rcases hmem with ⟨rfl, rfl, rfl⟩ | ⟨rfl, rfl, rfl⟩ | ⟨rfl, rfl, rfl⟩ | ⟨rfl, rfl, rfl⟩
  · exact exec_wire .swreset hd rfl rfl rfl hok
  · exact exec_wire .slpout hd rfl rfl rfl hok
  · exact exec_wire .dispon hd rfl rfl rfl hok
  · exact exec_wire .teoff hd rfl rfl rfl hok

/-- R92: MADCTL with a byte that is no value of its parameter. -/
theorem exec_madctl_refused {p : Byte} {s : State} (h : (Instr.madctl p).wf s.cfg = false) :
    exec (.madctl p) s = .refused .payloadOutsideParameter :=
  if_neg (by simp [h])

/-- R92: COLMOD with a byte that is no value of its parameter. -/
theorem exec_colmod_refused {p : Byte} {s : State} (h : (Instr.colmod p).wf s.cfg = false) :
    exec (.colmod p) s = .refused .payloadOutsideParameter :=
  if_neg (by simp [h])

/-- Settles O41: each frame is the opcode and one byte (`exec_wire`); TEON's payloads are both values of its parameter,
so only MADCTL and COLMOD have one to refuse. -/
theorem oneByteRegisterWritesSendTwoBytes : Obligations.OneByteRegisterWritesSendTwoBytes := by
  intro s d i n b p hd hrow
  rcases hrow with ⟨rfl, rfl, rfl⟩ | ⟨rfl, rfl, rfl⟩ | ⟨rfl, rfl, rfl, rfl⟩ | ⟨rfl, rfl, rfl, rfl⟩
  · exact ⟨fun hwf => exec_wire (.madctl p) hd rfl hwf rfl, exec_madctl_refused⟩
  · exact ⟨fun hwf => exec_wire (.colmod p) hd rfl hwf rfl, exec_colmod_refused⟩
  · exact ⟨fun hwf => exec_wire (.teon .vertical) hd rfl hwf rfl, nofun⟩
  · exact ⟨fun hwf => exec_wire (.teon .horizontalAndVertical) hd rfl hwf rfl, nofun⟩

/-- Settles O42: each frame holds the operands as they are (`exec_wire`), and none of the three checks them (R54). -/
theorem sixteenBitRegisterWritesSendTheirFields : Obligations.SixteenBitRegisterWritesSendTheirFields := by
  intro s d x y hd
  exact ⟨exec_wire (.caset x y) hd rfl rfl rfl, exec_wire (.raset x y) hd rfl rfl rfl,
    exec_wire (.vscad x) hd rfl rfl rfl⟩

/-! ## Format WS -/

theorem chunksOf_ne_nil (n fuel : Nat) (bs : List Byte) : chunksOf n fuel bs ≠ [] := by
  cases fuel with
  | zero => exact List.cons_ne_nil _ _
  | succ fuel =>
    rw [chunksOf]
    split <;> exact List.cons_ne_nil _ _

theorem cutInto_ne_nil (rep : Nat) (sizes : List Nat) (bs : List Byte) : cutInto rep sizes bs ≠ [] := by
  cases sizes with
  | nil => exact chunksOf_ne_nil rep _ bs
  | cons n sizes =>
    rw [cutInto]
    split <;> exact List.cons_ne_nil _ _

/-- R82, D16: a payload makes a DATA transaction under every cutting, an empty one too. -/
theorem dataActs_ne_nil (k : Cut) (bs : List Byte) : dataActs k bs ≠ [] :=
  mt List.map_eq_nil_iff.1 (cutInto_ne_nil k.rep (firstSizes k bs) bs)

/-- Settles O43: the stream's transactions are at least one (`dataActs_ne_nil`), and RAMWR's frame
holds the stream (`exec_wire`). -/
theorem memoryWriteSendsItsStream : Obligations.MemoryWriteSendsItsStream := by
  intro s d colors hd acts
  have hpos : 0 < (dataActs s.cfg.split.ws (colors.flatMap be16)).length :=
    List.length_pos_iff.2 (dataActs_ne_nil _ _)
  exact ⟨Nat.succ_le_succ hpos, exec_wire (.ramwr colors) hd rfl rfl rfl⟩

/-! ## Format WT -/

theorem cmd_tableActs (n : WireName) (k : Cut) (table : List Byte) :
    .cmd n :: tableActs k table = if table = [] then [Action.cmd n] else .cmd n :: dataActs k table := by
  rw [tableActs]
  split <;> rfl

/-- R122: step `k` of `INIT_TUNE_A`, where the list has it, has the opcode and the payload that stand there. -/
theorem tuneA_step {c : Cfg} {k : Nat} {u : TuneStep} (h : c.tuneA[k]? = some u) :
    (Instr.tuneA k).wf c = true ∧ c.opc (.tuneA k) = u.opcode ∧ c.tuneAPayload k = u.payload := by
  obtain ⟨hk, -⟩ := List.getElem?_eq_some_iff.1 h
  exact ⟨decide_eq_true hk, by rw [Cfg.opc, h]; rfl, by rw [Cfg.tuneAPayload, h]; rfl⟩

/-- R123: step `k` of `INIT_TUNE_B` likewise. -/
theorem tuneB_step {c : Cfg} {k : Nat} {u : TuneStep} (h : c.tuneB[k]? = some u) :
    (Instr.tuneB k).wf c = true ∧ c.opc (.tuneB k) = u.opcode ∧ c.tuneBPayload k = u.payload := by
  obtain ⟨hk, -⟩ := List.getElem?_eq_some_iff.1 h
  exact ⟨decide_eq_true hk, by rw [Cfg.opc, h]; rfl, by rw [Cfg.tuneBPayload, h]; rfl⟩

/-- Settles O44: each frame is the row's opcode and its table, which `tableActs` cuts (`exec_wire`, `cmd_tableActs`). -/
theorem tableStepsSendTheirTables : Obligations.TableStepsSendTheirTables := by
  intro s d i n b table hd hrow acts hok
  rcases hrow with ⟨k, u, hu, rfl, rfl, hb, htable⟩ | ⟨k, u, hu, rfl, rfl, hb, htable⟩ |
    ⟨rfl, rfl, rfl, rfl⟩ | ⟨rfl, rfl, rfl, rfl⟩
  · obtain ⟨hwf, hopc, hpayload⟩ := tuneA_step hu
    rw [← hopc] at hb
    rw [← hpayload] at htable
    subst hb htable
    exact exec_wire (.tuneA k) hd rfl hwf (cmd_tableActs _ _ _) hok
  · obtain ⟨hwf, hopc, hpayload⟩ := tuneB_step hu
    rw [← hopc] at hb
    rw [← hpayload] at htable
    subst hb htable
    exact exec_wire (.tuneB k) hd rfl hwf (cmd_tableActs _ _ _) hok
  · exact exec_wire .gammaPos hd rfl rfl (cmd_tableActs _ _ _) hok
  · exact exec_wire .gammaNeg hd rfl rfl (cmd_tableActs _ _ _) hok

/-- Settles O12: the refusing branch of either meaning, at and past the length of its list. -/
theorem tuningNamesPastTheListAreRefused : Obligations.TuningNamesPastTheListAreRefused := by
  intro s k
  exact ⟨fun h => if_neg (Nat.not_lt.2 h), fun h => if_neg (Nat.not_lt.2 h)⟩

end Sys2Proof.Machine

/-! PROOFS. The statements of 41_construction_reset_init.md: what NEW constructs, what HARD_RESET does to the pin and where
it stops, INIT's events, its bytes and their number, and the controller that a successful INIT leaves. -/

namespace Sys2Proof.Machine

/-! ## NEW -/

/-- NEW on an idle block that is not live (R24, R140). -/
theorem execNew_idle {b : BusHandle} {p : Option PinHandle} {w h : Half} {s : State} (hs : s.seq = .idle)
    (hl : s.life = .absent ∨ s.life = .released) :
    exec (.new b p w h) s = .next ((s.construct b p w h).respond .unit) := by
  rcases hl with hl | hl <;> simp only [exec, execNew, hs, hl]

/-- Settles O14: the fields of `State.construct` and of the response (`execNew_idle`). -/
theorem newConstructsThePortraitDriver : Obligations.NewConstructsThePortraitDriver := by
  intro s bus pin width height hs hl
  exact ⟨_, execNew_idle hs hl, rfl, rfl, rfl, rfl, rfl, rfl, rfl, rfl⟩

/-! ## HARD_RESET -/

/-- Settles O17: without a pin the list is empty, so the operation begins and ends with nothing between. -/
theorem hardResetWithoutAPinIsANoOp : Obligations.HardResetWithoutAPinIsANoOp := by
  intro s d delay hd hr
  have hplan : planOf s.cfg d (.hardReset delay) = [] := by simp [planOf, planHardReset, Driver.hasRst, hr]
  have hseq : s.seq = .idle := hd.1
  rw [exec_live hd rfl rfl, hplan]
  exact congrArg Host.Outcome.next (state_ext rfl rfl hseq.symm rfl rfl rfl rfl rfl rfl rfl)

/-- A request all of whose events are answered ok, and whose end writes no register and returns unit: everything it leaves
but the controller. -/
theorem exec_succeeds {i : Instr} {s : State} {d : Driver} (h : LiveIdle s d) (hn : isNew i = false)
    (hwf : i.wf s.cfg = true) (hlife : ∀ u, (doneOf d i u).life = u.life)
    (hresp : ∀ u, (doneOf d i u).resp = some (.ok .unit)) (hok : s.env.allOk (planOf s.cfg d i) = true) :
    ∃ t, exec i s = .next t ∧ t.life = s.life ∧ t.resp = some (.ok .unit) ∧ t.seq = .idle ∧
      t.trace = s.trace ++ okEvents s.cfg (planOf s.cfg d i) ∧
      wireView t.trace = wireView s.trace ++ operationBytes s.cfg i ∧
      t.rstLine = lineAfter (planOf s.cfg d i) s.rstLine ∧ t.env = s.env.afterAll (planOf s.cfg d i) ∧
      t.cfg = s.cfg ∧ t.port = s.port ∧ t.placed = s.placed := by
  obtain ⟨hx, hwire⟩ := exec_allOk h hn hwf hok
  have hok' : (s.start i).env.allOk (planOf s.cfg d i) = true := hok
  refine ⟨_, hx, ?_, hresp _, by simp, ?_, hwire, ?_, by simp, by simp, by simp, by simp⟩
  · rw [hlife, sent_life, start_life]
  · rw [doneOf_trace, sent_trace hok', start_trace, start_cfg]
  · rw [doneOf_rstLine, sent_rstLine_ok hok', start_rstLine]

/-- Settles O15: the pulse's list, whose last set drives the line high (`exec_succeeds`). -/
theorem hardResetPulsesThePin : Obligations.HardResetPulsesThePin := by
  intro s d p delay hd hr acts hok
  have hplan : planOf s.cfg d (.hardReset delay) = acts := planHardReset_pin hr s.cfg
  rw [← hplan] at hok
  obtain ⟨t, hx, hlife, hresp, hseq, htrace, -, hline, henv, hcfg, hport, hplaced⟩ :=
    exec_succeeds hd (i := .hardReset delay) rfl rfl (fun _ => rfl) (fun _ => rfl) hok
  rw [hplan] at htrace hline henv
  exact ⟨t, hx, hlife, hresp, hseq, htrace, hline, henv, hcfg, hport, hplaced⟩

/-- What a pin set raises carries the pin's own value (R200). -/
theorem error_pin_eq_some {e : Env} {l : Level} {err : ErrKind} (h : e.error (.pin l) = some err) :
    ∃ v, e.pinAnswer = .fail v ∧ err = .pinError v := by
  cases ha : e.pinAnswer with
  | ok => simp [Env.error, ha] at h
  | fail v => exact ⟨v, rfl, by simpa [Env.error, ha] using h.symm⟩

/-- What makes no bus transaction and fails is a pin set: a delay cannot fail (R12). -/
theorem pin_of_error {e : Env} {a : Action} {err : ErrKind} (hbus : a.isBus = false) (h : e.error a = some err) :
    ∃ l, a = .pin l := by
  cases a with
  | pin l => exact ⟨l, rfl⟩
  | cmd | data => cases hbus
  | delay => cases h

/-- A request ended by a pin set that fails (R145): everything it leaves but the controller. -/
theorem exec_stops_at_pin {i : Instr} {s : State} {d : Driver} {pre post : List Action} {l : Level} {v : PinErr}
    (hd : LiveIdle s d) (hn : isNew i = false) (hwf : i.wf s.cfg = true)
    (hp : planOf s.cfg d i = pre ++ .pin l :: post) (hok : s.env.allOk pre = true)
    (hv : (s.env.afterAll pre).pinAnswer = .fail v) :
    ∃ t, exec i s = .next t ∧ t.resp = some (.err (.pinError v)) ∧
      t.trace = s.trace ++ okEvents s.cfg pre ++ [.pin l (.fail v)] ∧ t.rstLine = .unknown ∧ t.life = s.life ∧
      t.seq = .idle ∧ t.cfg = s.cfg ∧ t.port = s.port ∧ t.placed = s.placed := by
  have he : (s.env.afterAll pre).error (.pin l) = some (.pinError v) := by simp [Env.error, hv]
  have hok' : (s.start i).env.allOk pre = true := hok
  refine ⟨_, exec_fails hd hn hwf hp hok he, rfl, ?_, ?_, by simp, rfl, by simp, by simp, by simp⟩
  · rw [raise_trace, attempt_trace, sent_trace hok', sent_env]
    simp [Action.event, hv]
  · exact attempt_pin_rstLine_fail (by simpa using hv)

/-- Settles O18: of the pulse's events only a pin set can fail (`pin_of_error`), and it ends the operation
(`exec_stops_at_pin`). -/
theorem hardResetStopsAtTheFailedPinSet : Obligations.HardResetStopsAtTheFailedPinSet := by
  intro s d p delay pre post a e hd hr hacts hok he
  have hplan : planHardReset s.cfg d = pre ++ a :: post := (planHardReset_pin hr s.cfg).trans hacts
  obtain ⟨l, rfl⟩ := pin_of_error (planHardReset_isBus s.cfg d a (by simp [hplan])) he
  obtain ⟨v, hv, rfl⟩ := error_pin_eq_some he
  obtain ⟨t, hx, hresp, hrest⟩ := exec_stops_at_pin hd (i := .hardReset delay) rfl rfl hplan hok hv
  exact ⟨t, l, v, hx, rfl, rfl, hresp, hrest⟩

/-! ## INIT's list and bytes -/

/-- The tagged bytes of a step as a parameter list holds it: its opcode and its payload (R147). -/
def tuneBytes (u : TuneStep) : List WireByte :=
  .c u.opcode :: u.payload.map .d

/-- The steps named by the indices of a parameter list send what stands there. -/
theorem flatMap_range_stepBytes {c : Cfg} {steps : List TuneStep} {name : Nat → WireName} {payload : Nat → List Byte}
    (h : ∀ k u, steps[k]? = some u → c.opc (name k) = u.opcode ∧ payload k = u.payload) :
    (List.range steps.length).flatMap (fun k => stepBytes c (name k) (payload k)) = steps.flatMap tuneBytes := by
  rw [List.flatMap_def, List.flatMap_def]
  refine congrArg List.flatten (List.ext_getElem (by simp) fun k _ hk => ?_)
  rw [List.length_map] at hk
  obtain ⟨hopc, hpayload⟩ := h k steps[k] (List.getElem?_eq_getElem hk)
  simp [stepBytes, tuneBytes, hopc, hpayload]

theorem tuneASteps_bytes (c : Cfg) :
    ((tuneASteps c).flatMap fun t => stepBytes c t.name t.payload) = c.tuneA.flatMap tuneBytes := by
  rw [tuneASteps, List.flatMap_map]
  exact flatMap_range_stepBytes fun _ _ hu => (tuneA_step hu).2

theorem tuneBSteps_bytes (c : Cfg) :
    ((tuneBSteps c).flatMap fun t => stepBytes c t.name t.payload) = c.tuneB.flatMap tuneBytes := by
  rw [tuneBSteps, List.flatMap_map]
  exact flatMap_range_stepBytes fun _ _ hu => (tuneB_step hu).2

/-- The two gamma steps, opcode and payload. -/
def gammaSteps (c : Cfg) : List TuneStep :=
  [⟨c.opcodes.gammaPos, c.gammaPos⟩, ⟨c.opcodes.gammaNeg, c.gammaNeg⟩]

theorem gammaSteps_bytes (c : Cfg) :
    (gammaSteps c).flatMap tuneBytes = stepBytes c .gammaPos c.gammaPos ++ stepBytes c .gammaNeg c.gammaNeg := by
  rw [gammaSteps, List.flatMap_cons, List.flatMap_singleton]
  rfl

/-- INIT's bytes with the tuning groups as the parameter lists hold them (R147). -/
theorem initBytes_eq (c : Cfg) :
    initBytes c = stepBytes c .swreset [] ++ (stepBytes c .madctl [c.initMadctl] ++ (c.tuneA.flatMap tuneBytes
      ++ (stepBytes c .colmod [c.initColmod] ++ (c.tuneB.flatMap tuneBytes
      ++ ((gammaSteps c).flatMap tuneBytes ++ (stepBytes c .slpout [] ++ stepBytes c .dispon [])))))) := by
  simp only [initBytes, initTable, List.flatMap_append, tuneASteps_bytes, tuneBSteps_bytes, List.append_assoc]
  rfl

/-- INIT's list with the groups of `INIT_TABLE` written out (R146, R147). -/
theorem planInit_eq (c : Cfg) (d : Driver) :
    planInit c d = planHardReset c d ++ [.cmd .swreset, .delay 150000]
      ++ (.cmd .madctl :: tableActs c.split.w1 [c.initMadctl])
      ++ (List.range c.tuneA.length).flatMap (fun k => .cmd (.tuneA k) :: tableActs c.split.wt (c.tuneAPayload k))
      ++ (.cmd .colmod :: tableActs c.split.w1 [c.initColmod])
      ++ (List.range c.tuneB.length).flatMap (fun k => .cmd (.tuneB k) :: tableActs c.split.wt (c.tuneBPayload k))
      ++ (.cmd .gammaPos :: tableActs c.split.wt c.gammaPos) ++ (.cmd .gammaNeg :: tableActs c.split.wt c.gammaNeg)
      ++ [.cmd .slpout, .cmd .dispon, .delay 10000] := by
  simp [planInit, initTable, tuneASteps, tuneBSteps, List.flatMap_map, initStepActs, planSwreset, planSlpout, planDispon,
    tSwreset, tDispon]

/-! ## The reset line -/

theorem lineAfter_append (xs ys : List Action) (r : RstLine) :
    lineAfter (xs ++ ys) r = lineAfter ys (lineAfter xs r) :=
  List.foldl_append

/-- Events that are no pin set leave the line alone (R35). -/
theorem lineAfter_noPin {acts : List Action} (h : acts.all Action.noPin = true) (r : RstLine) : lineAfter acts r = r := by
  induction acts with
  | nil => rfl
  | cons a rest ih =>
    rw [List.all_cons, Bool.and_eq_true] at h
    obtain ⟨ha, hrest⟩ := h
    cases a with
    | pin l => cases ha
    | cmd | data | delay => exact ih hrest

/-- The pulse ends with the line high; without a reset pin nothing moves it (R143, R144). -/
theorem lineAfter_planHardReset (c : Cfg) (d : Driver) (r : RstLine) :
    lineAfter (planHardReset c d) r = if d.rst.isSome then .high else r := by
  rw [planHardReset, Driver.hasRst]
  split <;> rfl

/-- INIT's list after the pulse: SWRESET to the final settle time (R146). -/
def planAfterPulse (c : Cfg) : List Action :=
  planSwreset ++ [.delay tSwreset] ++ ((initTable c).flatMap initStepActs ++ (planSlpout ++ planDispon ++ [.delay tDispon]))

theorem planInit_eq_pulse_append (c : Cfg) (d : Driver) : planInit c d = planHardReset c d ++ planAfterPulse c := by
  simp only [planInit, planAfterPulse, List.append_assoc]

theorem noPin_planAfterPulse (c : Cfg) : (planAfterPulse c).all Action.noPin = true := by
  have hsteps : ((initTable c).flatMap initStepActs).all Action.noPin = true := by
    rw [List.all_flatMap, List.all_eq_true]
    exact fun t _ => noPin_cmd_tableActs _ _ _
  simp only [planAfterPulse, List.all_append, hsteps]
  rfl

theorem lineAfter_planInit (c : Cfg) (d : Driver) (r : RstLine) :
    lineAfter (planInit c d) r = if d.rst.isSome then .high else r := by
  rw [planInit_eq_pulse_append, lineAfter_append, lineAfter_noPin (noPin_planAfterPulse c), lineAfter_planHardReset]

/-- Settles O19: the list is INIT's (`planInit_eq`), the bytes are INIT's (`initBytes_eq`), and its end writes no
register (`exec_succeeds`). -/
theorem initEmitsItsWholeSequenceInOrder : Obligations.InitEmitsItsWholeSequenceInOrder := by
  intro s d delay hd c pulse acts hok
  have hplan : planOf s.cfg d (.init delay) = acts := planInit_eq s.cfg d
  rw [← hplan] at hok
  obtain ⟨t, hx, hlife, hresp, hseq, htrace, hwire, hline, henv, hcfg, hport, hplaced⟩ :=
    exec_succeeds hd (i := .init delay) rfl rfl (fun _ => rfl) (fun _ => rfl) hok
  have hbytes : operationBytes s.cfg (.init delay) = initBytes s.cfg := rfl
  have hhigh : t.rstLine = if d.rst.isSome then .high else s.rstLine := hline.trans (lineAfter_planInit s.cfg d s.rstLine)
  rw [hplan] at htrace henv
  refine ⟨t, hx, hlife, hresp, hseq, htrace, ?_, hhigh, henv, hcfg, hport, hplaced⟩
  rw [hwire, hbytes, initBytes_eq, gammaSteps_bytes]
  simp only [List.append_assoc]
  rfl

/-! ## INIT's number of events -/

theorem okEvent_isBus (c : Cfg) (a : Action) : (a.okEvent c).isBus = a.isBus := by
  cases a <;> rfl

theorem length_filter_okEvents (c : Cfg) (acts : List Action) :
    ((okEvents c acts).filter Event.isBus).length = (acts.filter Action.isBus).length := by
  have hbus : Event.isBus ∘ Action.okEvent c = Action.isBus := funext (okEvent_isBus c)
  rw [okEvents, List.filter_map, hbus, List.length_map]

theorem length_planHardReset (c : Cfg) (d : Driver) :
    (planHardReset c d).length = 6 * if d.rst.isSome then 1 else 0 := by
  rw [planHardReset, Driver.hasRst]
  split <;> rfl

/-- The steps of `INIT_TABLE` are bus transactions throughout. -/
theorem initSteps_isBus (ts : List InitStep) : ∀ a ∈ ts.flatMap initStepActs, a.isBus = true := by
  intro a ha
  obtain ⟨t, -, ha⟩ := List.mem_flatMap.1 ha
  rw [initStepActs, tableActs, dataActs] at ha
  split at ha <;> rcases List.mem_cons.1 ha with rfl | ha
  · rfl
  · cases ha
  · rfl
  · obtain ⟨bs, -, rfl⟩ := List.mem_map.1 ha
    rfl

/-- Besides the transactions of `INIT_TABLE` there are SWRESET, SLPOUT and DISPON, and two delays (R150). -/
theorem length_planAfterPulse (c : Cfg) : (planAfterPulse c).length = ((initTable c).flatMap initStepActs).length + 5 := by
  simp only [planAfterPulse, planSwreset, planSlpout, planDispon, List.length_append, List.length_cons, List.length_nil]
  omega

theorem length_filter_planInit (c : Cfg) (d : Driver) :
    ((planInit c d).filter Action.isBus).length = ((initTable c).flatMap initStepActs).length + 3 := by
  have hpulse : (planHardReset c d).filter Action.isBus = [] :=
    List.filter_eq_nil_iff.2 fun a ha => by simp [planHardReset_isBus c d a ha]
  have hsteps : ((initTable c).flatMap initStepActs).filter Action.isBus = (initTable c).flatMap initStepActs :=
    List.filter_eq_self.2 (initSteps_isBus _)
  simp only [planInit_eq_pulse_append, planAfterPulse, List.filter_append, hpulse, hsteps, List.length_append]
  -- Outside the pulse and `INIT_TABLE`: SWRESET and a delay, SLPOUT and DISPON and a delay.
  show 0 + (1 + 0 + (((initTable c).flatMap initStepActs).length + 2)) = _
  omega

theorem length_initTable (c : Cfg) : (initTable c).length = 4 + c.tuneA.length + c.tuneB.length := by
  simp [initTable, tuneASteps, tuneBSteps]
  omega

/-- Under the default cutting a payload that is not empty is one transaction (R82). -/
theorem tableActs_whole {bs : List Byte} (h : bs ≠ []) : tableActs ⟨[], 0, []⟩ bs = [.data bs] := by
  rw [tableActs, if_neg h, dataActs]
  simp [firstSizes]

/-- Steps with a payload make two transactions each under the default cutting. -/
theorem length_initSteps {ts : List InitStep} (h : ∀ t ∈ ts, t.cut = ⟨[], 0, []⟩ ∧ t.payload ≠ []) :
    (ts.flatMap initStepActs).length = 2 * ts.length := by
  induction ts with
  | nil => rfl
  | cons t rest ih =>
    obtain ⟨hcut, hpayload⟩ := h t (by simp)
    rw [List.flatMap_cons, List.length_append, ih fun u hu => h u (by simp [hu]), initStepActs, hcut,
      tableActs_whole hpayload, List.length_cons, List.length_cons, List.length_cons, List.length_nil]
    omega

/-- The steps of `INIT_TABLE` when no parameter list holds an empty payload, under the default cutting. -/
theorem initTable_step {c : Cfg} (hsplit : c.split = DataSplit.standard) (hA : ∀ u ∈ c.tuneA, u.payload ≠ [])
    (hB : ∀ u ∈ c.tuneB, u.payload ≠ []) (hpos : c.gammaPos ≠ []) (hneg : c.gammaNeg ≠ []) {t : InitStep}
    (ht : t ∈ initTable c) : t.cut = ⟨[], 0, []⟩ ∧ t.payload ≠ [] := by
  simp only [initTable, tuneASteps, tuneBSteps, hsplit, List.mem_append, List.mem_map, List.mem_range, List.mem_cons,
    List.not_mem_nil, or_false] at ht
  rcases ht with (((rfl | ⟨k, hk, rfl⟩) | rfl) | ⟨k, hk, rfl⟩) | rfl | rfl
  · exact ⟨rfl, List.cons_ne_nil _ _⟩
  · obtain ⟨-, -, hpayload⟩ := tuneA_step (List.getElem?_eq_getElem hk)
    exact ⟨rfl, by rw [hpayload]; exact hA _ (List.getElem_mem hk)⟩
  · exact ⟨rfl, List.cons_ne_nil _ _⟩
  · obtain ⟨-, -, hpayload⟩ := tuneB_step (List.getElem?_eq_getElem hk)
    exact ⟨rfl, by rw [hpayload]; exact hB _ (List.getElem_mem hk)⟩
  · exact ⟨rfl, hpos⟩
  · exact ⟨rfl, hneg⟩

/-- Settles O20: the events are those of INIT's list; each step of `INIT_TABLE` makes two (`length_initSteps`), and the
rest is the pulse and five more. -/
theorem initEventCount : Obligations.InitEventCount := by
  intro s d delay hd hsplit hA hB hpos hneg hok
  obtain ⟨t, hx, -, -, -, htrace, -⟩ := exec_succeeds hd (i := .init delay) rfl rfl (fun _ => rfl) (fun _ => rfl) hok
  have htable : ((initTable s.cfg).flatMap initStepActs).length = 2 * (4 + s.cfg.tuneA.length + s.cfg.tuneB.length) := by
    rw [length_initSteps fun t ht => initTable_step hsplit hA hB hpos hneg ht, length_initTable]
  refine ⟨t, _, hx, htrace, ?_, ?_⟩
  · rw [okEvents, List.length_map, planOf, planInit_eq_pulse_append, List.length_append, length_planHardReset,
      length_planAfterPulse, htable]
    omega
  · rw [length_filter_okEvents, planOf, length_filter_planInit, htable]
    omega

/-! ## The controller after INIT -/

/-- The step is a tuning or gamma step of the configuration. -/
def IsTableStep (c : Cfg) (u : TuneStep) : Prop :=
  ∃ n ∈ c.names, c.opc n = u.opcode ∧ ((∃ k, n = .tuneA k) ∨ (∃ k, n = .tuneB k) ∨ n = .gammaPos ∨ n = .gammaNeg)

theorem isTableStep_tuneA {c : Cfg} {u : TuneStep} (h : u ∈ c.tuneA) : IsTableStep c u := by
  obtain ⟨k, hk⟩ := List.mem_iff_getElem?.1 h
  obtain ⟨hwf, hopc, -⟩ := tuneA_step hk
  exact ⟨.tuneA k, tuneA_mem_names.2 (of_decide_eq_true hwf), hopc, .inl ⟨k, rfl⟩⟩

theorem isTableStep_tuneB {c : Cfg} {u : TuneStep} (h : u ∈ c.tuneB) : IsTableStep c u := by
  obtain ⟨k, hk⟩ := List.mem_iff_getElem?.1 h
  obtain ⟨hwf, hopc, -⟩ := tuneB_step hk
  exact ⟨.tuneB k, tuneB_mem_names.2 (of_decide_eq_true hwf), hopc, .inr (.inl ⟨k, rfl⟩)⟩

theorem isTableStep_gamma {c : Cfg} {u : TuneStep} (h : u ∈ gammaSteps c) : IsTableStep c u := by
  rw [gammaSteps, List.mem_cons, List.mem_singleton] at h
  rcases h with rfl | rfl
  · exact ⟨.gammaPos, mem_names c (by simp), rfl, .inr (.inr (.inl rfl))⟩
  · exact ⟨.gammaNeg, mem_names c (by simp), rfl, .inr (.inr (.inr rfl))⟩

/-- The table registers after steps in order. -/
def writeTables (us : List TuneStep) (m : List (Nat × List Byte)) : List (Nat × List Byte) :=
  us.foldl (fun m u => setCell u.opcode.toNat u.payload m) m

theorem writeTables_cons (u : TuneStep) (us : List TuneStep) (m : List (Nat × List Byte)) :
    writeTables (u :: us) m = writeTables us (setCell u.opcode.toNat u.payload m) := rfl

theorem writeTables_append (us vs : List TuneStep) (m : List (Nat × List Byte)) :
    writeTables (us ++ vs) m = writeTables vs (writeTables us m) :=
  List.foldl_append

theorem getCell_writeTables_other {k : Nat} {us : List TuneStep} (h : ∀ u ∈ us, k ≠ u.opcode.toNat)
    (m : List (Nat × List Byte)) : getCell k (writeTables us m) = getCell k m := by
  induction us generalizing m with
  | nil => rfl
  | cons u rest ih =>
    rw [writeTables_cons, ih fun v hv => h v (by simp [hv]), getCell_setCell_other (h u (by simp))]

/-- Under distinct opcodes no step overwrites another's register. -/
theorem getCell_writeTables {us : List TuneStep} (hnd : (us.map TuneStep.opcode).Nodup) {u : TuneStep} (hu : u ∈ us)
    (m : List (Nat × List Byte)) : getCell u.opcode.toNat (writeTables us m) = some u.payload := by
  induction us generalizing m with
  | nil => cases hu
  | cons v rest ih =>
    rw [List.map_cons, List.nodup_cons] at hnd
    obtain ⟨hv, hrest⟩ := hnd
    rw [writeTables_cons]
    rcases List.mem_cons.1 hu with rfl | hu
    · have hother : ∀ w ∈ rest, u.opcode.toNat ≠ w.opcode.toNat := fun w hw he =>
        hv (BitVec.eq_of_toNat_eq he ▸ List.mem_map_of_mem hw)
      rw [getCell_writeTables_other hother, getCell_setCell_same]
    · exact ih hrest hu _

/-- Table steps write their registers; beside these only the last command and its payload are new. -/
theorem recvAll_tableSteps {c : Cfg} (h : c.wf = true) (dims : Nat × Nat) {us : List TuneStep}
    (hus : ∀ u ∈ us, IsTableStep c u) {p : Panel} (hb : p.bringup = .ready) :
    ∃ cmd args, p.recvAll c dims (us.flatMap tuneBytes)
      = { p with cmd := cmd, args := args, tables := writeTables us p.tables } := by
  induction us generalizing p with
  | nil => exact ⟨p.cmd, p.args, rfl⟩
  | cons u rest ih =>
    obtain ⟨n, hn, hopc, htable⟩ := hus u (by simp)
    have hbytes : tuneBytes u = stepBytes c n u.payload := by rw [tuneBytes, stepBytes, hopc]
    rw [List.flatMap_cons, recvAll_append, hbytes, recvAll_table h dims hb hn htable, hopc, writeTables_cons]
    exact ih (fun v hv => hus v (by simp [hv])) hb

/-- The tuning and gamma steps of INIT, in order. -/
def tableSteps (c : Cfg) : List TuneStep :=
  c.tuneA ++ c.tuneB ++ gammaSteps c

theorem tableSteps_nodup {c : Cfg} (h : c.wf = true) : ((tableSteps c).map TuneStep.opcode).Nodup := by
  have hsub : ((tableSteps c).map TuneStep.opcode).Sublist c.opcodeList := by
    simp only [tableSteps, gammaSteps, Cfg.opcodeList, List.map_append, List.append_assoc]
    exact List.sublist_append_right _ _
  exact (wf_opcodes h).sublist hsub

/-- An initialised controller of which INIT has written the memory access control, the colour mode and tables, and of
which nothing else but the last command is known. -/
def initWritten (c : Cfg) (cmd : Option Byte) (args : List Byte) (colmod : Option Byte)
    (tables : List (Nat × List Byte)) : Panel :=
  { Panel.unknown with
    bringup := .ready, cmd := cmd, args := args, madctl := some c.initMadctl, colmod := colmod, tables := tables }

theorem recvAll_tableSteps_initWritten {c : Cfg} (h : c.wf = true) (dims : Nat × Nat) {us : List TuneStep}
    (hus : ∀ u ∈ us, IsTableStep c u) (cmd : Option Byte) (args : List Byte) (colmod : Option Byte)
    (tables : List (Nat × List Byte)) :
    ∃ cmd' args', (initWritten c cmd args colmod tables).recvAll c dims (us.flatMap tuneBytes)
      = initWritten c cmd' args' colmod (writeTables us tables) :=
  recvAll_tableSteps h dims hus rfl

/-- The controller after INIT's bytes (R151, R231): SWRESET and MADCTL, then each group of `INIT_TABLE` in turn, then
SLPOUT and DISPON. -/
theorem initDone_eq {c : Cfg} (h : c.wf = true) (dims : Nat × Nat) :
    Panel.initDone c dims = { initWritten c (some (c.opc .dispon)) [] (some c.initColmod) (writeTables (tableSteps c) [])
      with asleep := some false, displayOn := some true } := by
  have hmadctl : (Panel.recvAll c dims (stepBytes c .swreset []) { Panel.unknown with bringup := .ready }).recvAll c dims
      (stepBytes c .madctl [c.initMadctl]) = initWritten c (some (c.opc .madctl)) [c.initMadctl] none [] := by
    rw [recvAll_swreset h dims rfl, recvAll_madctl h dims rfl]
    rfl
  have hcolmod : ∀ cmd args tables,
      (initWritten c cmd args none tables).recvAll c dims (stepBytes c .colmod [c.initColmod])
        = initWritten c (some (c.opc .colmod)) [c.initColmod] (some c.initColmod) tables := fun _ _ _ =>
    recvAll_colmod h dims rfl (wf_colmod16 h)
  obtain ⟨_, _, hA⟩ := recvAll_tableSteps_initWritten h dims (fun _ => isTableStep_tuneA) (some (c.opc .madctl))
    [c.initMadctl] none []
  obtain ⟨cmd, args, hB⟩ := recvAll_tableSteps_initWritten h dims (fun _ => isTableStep_tuneB) (some (c.opc .colmod))
    [c.initColmod] (some c.initColmod) (writeTables c.tuneA [])
  obtain ⟨_, _, hG⟩ := recvAll_tableSteps_initWritten h dims (fun _ => isTableStep_gamma) cmd args
    (some c.initColmod) (writeTables c.tuneB (writeTables c.tuneA []))
  rw [Panel.initDone, initBytes_eq]
  simp only [recvAll_append, hmadctl, hA, hcolmod, hB, hG, tableSteps, writeTables_append]
  rw [recvAll_slpout h dims rfl, recvAll_dispon h dims rfl]
  rfl

/-- A successful INIT writes no register and leaves the controller that received its bytes (D15, R236). -/
theorem exec_init_panel {s : State} {d : Driver} {delay : DelayProvider} (hd : LiveIdle s d)
    (hok : s.env.allOk (planOf s.cfg d (.init delay)) = true) :
    ∃ t, exec (.init delay) s = .next t ∧ t.life = s.life ∧ t.cfg = s.cfg ∧ t.panel = Panel.initDone s.cfg s.dims := by
  have hdims : (s.start (.init delay)).dims = s.dims := dims_of_life (start_life _ s)
  obtain ⟨hx, -⟩ := exec_allOk hd (i := .init delay) rfl rfl hok
  exact ⟨_, hx, by simp [doneOf], by simp, by simp [doneOf, hdims]⟩

/-- Settles O30: the controller is what INIT's bytes leave (`initDone_eq`), and the table registers have distinct keys, so
each holds its own step's payload (`getCell_writeTables`). -/
theorem initLeavesTheControllerAsWritten : Obligations.InitLeavesTheControllerAsWritten := by
  intro s d delay hd hwf hok c steps
  obtain ⟨t, hx, hlife, hcfg, hpanel⟩ := exec_init_panel hd hok
  rw [initDone_eq hwf] at hpanel
  have hlive : t.life = .live d := hlife.trans hd.2
  refine ⟨t, writeTables (tableSteps s.cfg) [], hx, hlive, hpanel, ?_, ?_, fun hmadctl => ⟨d, hlive, ?_⟩⟩
  · exact fun u hu => getCell_writeTables (tableSteps_nodup hwf) hu []
  · exact fun k hk => getCell_writeTables_other hk []
  · rw [hpanel, hcfg, ← hmadctl]
    rfl

end Sys2Proof.Machine

/-! PROOFS. The statements of 42_orientation.md: ORIENTATION reads the stored orientation, SET_ORIENTATION stores it
after its two-byte step, and a failure of that step leaves it as it was. -/

namespace Sys2Proof.Machine

/-! ## ORIENTATION -/

/-- Settles O25: the list is empty, so the operation begins and ends with nothing between. -/
theorem orientationReturnsTheRegister : Obligations.OrientationReturnsTheRegister := by
  intro s d hd
  have hseq : s.seq = .idle := hd.1
  rw [exec_live hd rfl rfl]
  exact congrArg Host.Outcome.next (state_ext rfl rfl hseq.symm rfl rfl rfl rfl rfl rfl rfl)

/-! ## SET_ORIENTATION -/

/-- Settles O26: the step's two bytes reach the wire (`exec_emitted`), and then the end of the operation stores `o`. -/
theorem setOrientationStoresOnSuccess : Obligations.SetOrientationStoresOnSuccess := by
  intro s d o hd acts hok
  obtain ⟨u, hx, -, hcfg, hport, hplaced, hline, htrace, henv, hpanel⟩ :=
    exec_emitted hd (i := .setOrientation o) rfl rfl (noPin_cmd_dataActs _ _ _) hok
  refine ⟨_, hx, rfl, rfl, ⟨hcfg, hport, hplaced, rfl, hline, htrace, henv, hpanel⟩, ?_⟩
  rw [doneOf_trace, htrace, wireView_append, wireView_planOf]
  rfl

/-! ## A failed transaction -/

/-- What fails and is no pin set is a transaction, which raises a transport error (R200). -/
theorem error_of_noPin {e : Env} {a : Action} {err : ErrKind} (hpin : a.noPin = true) (h : e.error a = some err) :
    err = .transportError := by
  cases a with
  | cmd | data =>
    simp only [Env.error] at h
    split at h
    · cases h
    · exact (Option.some.inj h).symm
  | pin => cases hpin
  | delay => cases h

/-- What was not answered ok adds nothing to the wire view (R14). -/
theorem wire_of_isFail {ev : Event} (h : ev.isFail = true) : ev.wire = [] := by
  cases ev with
  | cmd b r | data bs r =>
    cases r with
    | ok => cases h
    | fail => rfl
  | pin | delay => rfl

/-- A request ended by a transaction that fails (R14, R203): its response, the registers, the bytes answered ok, and a
controller of which nothing is known (U5). -/
theorem exec_stops_at_transaction {i : Instr} {s : State} {d : Driver} {pre post : List Action} {a : Action}
    {e : ErrKind} (hd : LiveIdle s d) (hn : isNew i = false) (hwf : i.wf s.cfg = true)
    (hp : planOf s.cfg d i = pre ++ a :: post) (hpin : a.noPin = true) (hok : s.env.allOk pre = true)
    (he : (s.env.afterAll pre).error a = some e) :
    ∃ t, exec i s = .next t ∧ t.resp = some (.err .transportError) ∧ t.life = s.life ∧
      wireView t.trace = wireView s.trace ++ wireView (okEvents s.cfg pre) ∧
      ∃ b, t.panel = { Panel.unknown with bringup := b } := by
  obtain rfl := error_of_noPin hpin he
  have hok' : (s.start i).env.allOk pre = true := hok
  have he' : ((s.start i).sent pre).env.error a = some .transportError := by simpa using he
  obtain ⟨b, hpanel, -⟩ := attempt_fail_panel he'
  refine ⟨_, exec_fails hd hn hwf hp hok he, rfl, by simp, ?_, b, hpanel⟩
  have hlost : wireView [a.event ((s.start i).sent pre).cfg ((s.start i).sent pre).env] = [] := by
    rw [wireView, List.flatMap_singleton, wire_of_isFail (event_isFail he')]
  rw [raise_trace, attempt_trace, wireView_append, hlost, List.append_nil, sent_trace hok', wireView_append,
    start_trace, start_cfg]

/-- Settles O27: no event of the list is a pin set, so what fails is a transaction (`exec_stops_at_transaction`). -/
theorem failedSetOrientationKeepsTheRegisters : Obligations.FailedSetOrientationKeepsTheRegisters := by
  intro s d o pre post a e hd hacts hok he
  have hplan : planOf s.cfg d (.setOrientation o) = pre ++ a :: post := hacts
  have hpin : a.noPin = true := List.all_eq_true.1 (noPin_cmd_dataActs .madctl _ _) a (by rw [hacts]; simp)
  obtain ⟨t, hx, hresp, hlife, hwire, b, hpanel⟩ := exec_stops_at_transaction hd rfl rfl hplan hpin hok he
  exact ⟨t, hx, hresp, hlife.trans hd.2, hwire, by rw [hpanel]; rfl⟩

end Sys2Proof.Machine

/-! PROOFS. The statements of 43_pixel_write_and_window.md: the bytes of the window and of the two pixel writes, that one
of these is a case of the other, and that no memory write reaches the wire without its window. -/

namespace Sys2Proof.Machine

/-! ## The window and the pixel writes on the wire -/

/-- A request of bus transactions that returns unit and writes no register, all of its transactions answered ok: the
frame of its list, and its bytes on the wire. -/
theorem exec_emits {i : Instr} {s : State} {d : Driver} {acts : List Action} (hd : LiveIdle s d) (hn : isNew i = false)
    (hwf : i.wf s.cfg = true) (hp : (planOf s.cfg d i).all Action.noPin = true) (hdone : doneOf d i = returnUnit d)
    (hplan : planOf s.cfg d i = acts) (hok : s.env.allOk acts = true) :
    ∃ t, exec i s = .next t ∧ t.life = s.life ∧ t.resp = some (.ok .unit) ∧ Emitted acts s t ∧
      wireView t.trace = wireView s.trace ++ operationBytes s.cfg i ∧
      t.panel = s.panel.recvAll s.cfg s.dims (operationBytes s.cfg i) := by
  subst hplan
  obtain ⟨t, hx, hlife, hresp, hem⟩ := exec_returnUnit hd hn hwf hp hdone hok
  refine ⟨t, hx, hlife, hresp, hem, ?_⟩
  obtain ⟨-, -, -, -, -, htrace, -, hpanel⟩ := hem
  rw [wireView_planOf] at hpanel
  exact ⟨by rw [htrace, wireView_append, wireView_planOf], hpanel⟩

/-- Settles O31: the window step's bytes are its frame (`exec_emits`), which an initialised controller reads into its four
window registers (`recvAll_setAddressWindow`). -/
theorem setAddressWindowSendsTenBytes : Obligations.SetAddressWindowSendsTenBytes := by
  intro s d sx sy ex ey hd c acts hok
  obtain ⟨t, hx, hlife, hresp, hem, hwire, hpanel⟩ := exec_emits (i := .setAddressWindow sx sy ex ey) hd rfl rfl
    (noPin_planSetAddressWindow s.cfg sx sy ex ey) rfl rfl hok
  refine ⟨t, hx, hlife, hresp, hem, ?_, fun hwf hb => ?_⟩
  · rw [hwire, List.append_assoc]
    rfl
  · have hrecv := hpanel.trans (recvAll_setAddressWindow hwf s.dims hb sx sy ex ey)
    simp [hrecv]

/-- Settles O33: the list is the operation's, whose bytes are the window's frame and RAMWR's with the colours as one
payload in input order (`exec_emits`). -/
theorem setPixelsStreamsEveryColourInOrder : Obligations.SetPixelsStreamsEveryColourInOrder := by
  intro s d sx sy ex ey colors hd c acts hok
  obtain ⟨t, hx, hlife, hresp, hem, hwire, -⟩ := exec_emits (i := .setPixels sx sy ex ey colors) hd rfl rfl
    (noPin_planOf s.cfg d (by simp) (by simp)) rfl rfl hok
  refine ⟨t, hx, hlife, hresp, hem, ?_⟩
  rw [hwire, List.append_assoc, List.append_assoc, ← List.append_assoc (_ :: _)]
  rfl

/-! ## SET_PIXEL as SET_PIXELS -/

/-- Two requests but NEW with one list and one end, both INIT or neither, have the same outcome from every state: what
`SEQ` names while they run is gone when they end. -/
theorem exec_congr {i j : Instr} {s : State} (hi : isNew i = false) (hj : isNew j = false) (hwfi : i.wf s.cfg = true)
    (hwfj : j.wf s.cfg = true) (hplan : ∀ d, planOf s.cfg d i = planOf s.cfg d j) (hdone : ∀ d, doneOf d i = doneOf d j)
    (hinit : (Seq.running i 0).inInit = (Seq.running j 0).inInit) : exec i s = exec j s := by
  cases hs : s.seq with
  | running op k => rw [exec_request hi hwfi, exec_request hj hwfj, request_busy hs, request_busy hs]
  | idle =>
    cases hl : s.life with
    | live d =>
      rw [exec_live ⟨hs, hl⟩ hi hwfi, exec_live ⟨hs, hl⟩ hj hwfj, hplan, hdone]
      exact congrArg Host.Outcome.next
        (runActs_seq_irrelevant _ (s.start j) (.running i 0) hinit (doneOf_seq_irrelevant d j))
    | absent | released =>
      have hnot : ∀ d, s.life ≠ .live d := by simp [hl]
      rw [exec_request hi hwfi, exec_request hj hwfj, request_not_live hs hnot, request_not_live hs hnot]

/-- Settles O34: the two have one list (`beStream_singleton`) and one end (`exec_congr`). -/
theorem setPixelIsSetPixelsOfOneColour : Obligations.SetPixelIsSetPixelsOfOneColour := by
  intro s x y color
  refine exec_congr rfl rfl rfl rfl (fun d => ?_) (fun _ => rfl) rfl
  rw [planOf, planOf, planSetPixel, planSetPixels, planRamwr, beStream_singleton]

/-- Settles O32: it is the case of one colour (O34) of what SET_PIXELS sends (O33). -/
theorem setPixelSendsItsThirteenBytes : Obligations.SetPixelSendsItsThirteenBytes := by
  intro s d x y color hd c acts hok
  rw [setPixelIsSetPixelsOfOneColour]
  exact setPixelsStreamsEveryColourInOrder s d x y x y [color] hd hok

/-! ## The window before every memory write -/

/-- What an operation has added to the wire when it ends, with an error or without, is the front part of its bytes: the
event that fails adds nothing (R14, R203). -/
theorem exec_wire_prefix {i : Instr} {s t : State} (hx : exec i s = .next t) :
    ∃ new, t.trace = s.trace ++ new ∧ wireView new <+: operationBytes s.cfg i := by
  cases hn : isNew i with
  | true =>
    obtain ⟨b, p, w, h, rfl⟩ := exists_new_of_isNew hn
    obtain ⟨-, -, rfl⟩ := execNew_next_inv hx
    exact ⟨[], (List.append_nil _).symm, List.nil_prefix⟩
  | false =>
    obtain ⟨d, hd, -⟩ := exec_next_inv hx hn
    rw [← wireView_planOf s.cfg d i]
    rcases exec_cases hd hn hx with ⟨hok, rfl⟩ | ⟨pre, a, post, e, hplan, hok, he, rfl⟩
    · refine ⟨okEvents s.cfg (planOf s.cfg d i), ?_, List.prefix_rfl⟩
      rw [doneOf_trace, sent_trace (by simpa using hok), start_trace, start_cfg]
    · refine ⟨okEvents s.cfg pre ++ [a.event s.cfg (s.env.afterAll pre)], ?_, ?_⟩
      · rw [raise_trace, attempt_trace, sent_trace (by simpa using hok)]
        simp
      · have hlost : wireView [a.event s.cfg (s.env.afterAll pre)] = [] := by
          rw [wireView, List.flatMap_singleton, wire_of_isFail (event_isFail he)]
        rw [wireView_append, hlost, List.append_nil, hplan, okEvents_append, wireView_append]
        exact List.prefix_append _ _

/-- Each RAMWR command of the bytes has the ten bytes of a window directly before it (R171). -/
def WindowBeforeRamwr (c : Cfg) (bytes : List WireByte) : Prop :=
  ∀ pre post, bytes = pre ++ .c (c.opc .ramwr) :: post →
    ∃ front sx sy ex ey, pre = front ++ frameBytes (encode c (.setAddressWindow sx sy ex ey))

theorem windowBeforeRamwr_of_prefix {c : Cfg} {xs ys : List WireByte} (h : xs <+: ys) (hy : WindowBeforeRamwr c ys) :
    WindowBeforeRamwr c xs := by
  rintro pre post rfl
  obtain ⟨rest, rfl⟩ := h
  exact hy pre (post ++ rest) (by rw [List.append_assoc]; rfl)

theorem windowBeforeRamwr_of_not_mem {c : Cfg} {bytes : List WireByte} (h : .c (c.opc .ramwr) ∉ bytes) :
    WindowBeforeRamwr c bytes := by
  rintro pre post rfl
  exact absurd (List.mem_append_right pre List.mem_cons_self) h

theorem c_mem_stepBytes {c : Cfg} {n : WireName} {ds : List Byte} {b : Byte} :
    .c b ∈ stepBytes c n ds ↔ b = c.opc n := by
  simp [stepBytes]

/-- Under distinct opcodes RAMWR's byte begins no other member's step (R88). -/
theorem ramwr_not_mem_stepBytes {c : Cfg} (h : c.wf = true) {n : WireName} (hn : n ∈ c.names) (hne : n ≠ .ramwr)
    (ds : List Byte) : .c (c.opc .ramwr) ∉ stepBytes c n ds := fun hmem =>
  hne (opc_injective h hn (mem_names c (by simp)) (c_mem_stepBytes.1 hmem).symm)

/-- The bytes of one step that is no tuning step and not RAMWR. -/
theorem windowBeforeRamwr_stepBytes {c : Cfg} (h : c.wf = true) (n : WireName) (hn : ∀ k, n ≠ .tuneA k ∧ n ≠ .tuneB k)
    (hne : n ≠ .ramwr) (ds : List Byte) : WindowBeforeRamwr c (stepBytes c n ds) :=
  windowBeforeRamwr_of_not_mem (ramwr_not_mem_stepBytes h (mem_names c hn) hne ds)

theorem ramwr_not_mem_window {c : Cfg} (h : c.wf = true) (sx sy ex ey : Half) :
    .c (c.opc .ramwr) ∉ frameBytes (encode c (.setAddressWindow sx sy ex ey)) := by
  rw [encode, frameBytes, List.mem_append, not_or]
  exact ⟨ramwr_not_mem_stepBytes h (mem_names c (by simp)) (by simp) _,
    ramwr_not_mem_stepBytes h (mem_names c (by simp)) (by simp) _⟩

/-- What stands before an element that occurs once in a list is determined. -/
theorem front_unique_of_once {α : Type} {x : α} {front back front' back' : List α} (hfront : x ∉ front)
    (hback : x ∉ back) (h : front ++ x :: back = front' ++ x :: back') : front = front' := by
  rcases List.append_eq_append_iff.1 h with ⟨between, rfl, hrest⟩ | ⟨between, rfl, hrest⟩
  · cases between with
    | nil => exact (List.append_nil front).symm
    | cons b between =>
      obtain ⟨-, rfl⟩ := List.cons.inj hrest
      exact absurd (List.mem_append_right between List.mem_cons_self) hback
  · cases between with
    | nil => exact List.append_nil front'
    | cons b between =>
      obtain ⟨rfl, -⟩ := List.cons.inj hrest
      exact absurd (List.mem_append_right front' List.mem_cons_self) hfront

/-- A window and the memory write after it hold one RAMWR command, and the window stands before that. -/
theorem windowBeforeRamwr_window_append {c : Cfg} (h : c.wf = true) (sx sy ex ey : Half) (ds : List Byte) :
    WindowBeforeRamwr c (frameBytes (encode c (.setAddressWindow sx sy ex ey)) ++ stepBytes c .ramwr ds) := by
  intro pre post heq
  have hdata : .c (c.opc .ramwr) ∉ ds.map WireByte.d := by simp
  have hpre := front_unique_of_once (ramwr_not_mem_window h sx sy ex ey) hdata heq
  exact ⟨[], sx, sy, ex, ey, hpre.symm⟩

/-- INIT writes no pixel (R147). -/
theorem initTable_name_ne_ramwr {c : Cfg} {t : InitStep} (h : t ∈ initTable c) : t.name ≠ .ramwr := by
  simp only [initTable, tuneASteps, tuneBSteps, List.mem_append, List.mem_map, List.mem_cons, List.not_mem_nil,
    or_false] at h
  rcases h with (((rfl | ⟨k, -, rfl⟩) | rfl) | ⟨k, -, rfl⟩) | rfl | rfl <;> nofun

theorem ramwr_not_mem_initBytes {c : Cfg} (h : c.wf = true) : .c (c.opc .ramwr) ∉ initBytes c := by
  have hother : ∀ n : WireName, (∀ k, n ≠ .tuneA k ∧ n ≠ .tuneB k) → n ≠ .ramwr →
      .c (c.opc .ramwr) ∉ stepBytes c n [] :=
    fun n hn hne => ramwr_not_mem_stepBytes h (mem_names c hn) hne []
  simp only [initBytes, List.mem_append, not_or, List.mem_flatMap, not_exists, not_and]
  exact ⟨⟨hother _ (by simp) nofun, fun t ht =>
      ramwr_not_mem_stepBytes h (initTable_names ht) (initTable_name_ne_ramwr ht) _⟩,
    hother _ (by simp) nofun, hother _ (by simp) nofun⟩

/-- Of the host operations the two pixel writes alone send RAMWR, and both send their window first (R172, R174). -/
theorem windowBeforeRamwr_operationBytes {c : Cfg} (h : c.wf = true) {i : Instr} (hi : isHostOp i = true) :
    WindowBeforeRamwr c (operationBytes c i) := by
  cases i with
  | setPixel x y color => exact windowBeforeRamwr_window_append h x y x y (be16 color)
  | setPixels sx sy ex ey colors => exact windowBeforeRamwr_window_append h sx sy ex ey (beStream colors)
  | init delay => exact windowBeforeRamwr_of_not_mem (ramwr_not_mem_initBytes h)
  | setOrientation o => exact windowBeforeRamwr_stepBytes h .madctl (by simp) nofun _
  | setScrollOffset offset => exact windowBeforeRamwr_stepBytes h .vscad (by simp) nofun _
  | setTearingEffect m =>
    cases m with
    | off => exact windowBeforeRamwr_stepBytes h .teoff (by simp) nofun _
    | vertical | horizontalAndVertical => exact windowBeforeRamwr_stepBytes h .teon (by simp) nofun _
  | new | hardReset | orientation | release => exact windowBeforeRamwr_of_not_mem List.not_mem_nil
  | _ => cases hi

/-- Settles O35: what is on the wire is the front part of the operation's bytes (`exec_wire_prefix`), and in these each
memory write follows its window (`windowBeforeRamwr_operationBytes`). -/
theorem windowDirectlyBeforeEveryMemoryWrite : Obligations.WindowDirectlyBeforeEveryMemoryWrite := by
  intro s t i hwf hi hx
  obtain ⟨new, htrace, hprefix⟩ := exec_wire_prefix hx
  refine ⟨new, htrace, fun pre post heq => ?_⟩
  obtain ⟨front, sx, sy, ex, ey, hpre⟩ :=
    windowBeforeRamwr_of_prefix hprefix (windowBeforeRamwr_operationBytes hwf hi) pre post heq
  exact ⟨front, sx, sy, ex, ey, by rw [hpre, List.append_assoc]; rfl⟩

end Sys2Proof.Machine

/-! PROOFS. The statements of 44_scroll_tearing_release.md: the scroll offset and the tearing mode are relayed as they
are given, and RELEASE leaves a block that admits NEW alone. -/

namespace Sys2Proof.Machine

/-! ## The two relays -/

/-- Settles O36: the list is VSCAD's step with the offset (`exec_emits`), which leaves the frame memory of a canonical
controller as it was (`recvAll_setScrollOffset`). -/
theorem setScrollOffsetSendsTheOffset : Obligations.SetScrollOffsetSendsTheOffset := by
  intro s d offset hd acts hok
  obtain ⟨t, hx, hlife, hresp, hem, hwire, hpanel⟩ := exec_emits (i := .setScrollOffset offset) hd rfl rfl
    (noPin_cmd_dataActs _ _ _) rfl rfl hok
  refine ⟨t, hx, hlife, hresp, hem, hwire, fun hwf hp => ?_⟩
  obtain ⟨hfm, -, -⟩ := recvAll_setScrollOffset hwf s.dims hp offset
  rw [hpanel, hfm]

/-- Settles O37: each mode's list is its own step, TEOFF's or TEON's with one byte (`exec_emits`). -/
theorem setTearingEffectRelaysTheMode : Obligations.SetTearingEffectRelaysTheMode := by
  intro s d m hd acts hok
  have hplan : planOf s.cfg d (.setTearingEffect m) = acts := by cases m <;> rfl
  obtain ⟨t, hx, hlife, hresp, hem, hwire, -⟩ := exec_emits hd rfl rfl
    (noPin_planOf s.cfg d (by simp) (by simp)) rfl hplan hok
  refine ⟨t, hx, hlife, hresp, hem, hwire.trans ?_⟩
  cases m <;> rfl

/-! ## RELEASE -/

/-- RELEASE on a live idle block: its list is empty, so the operation begins and ends with nothing between (R189). -/
theorem exec_release {s : State} {d : Driver} (hd : LiveIdle s d) :
    exec .release s = .next { s with life := .released, resp := some (.ok (.handles d.bus d.rst)) } := by
  have hseq : s.seq = .idle := hd.1
  rw [exec_live hd rfl rfl]
  exact congrArg Host.Outcome.next (state_ext rfl rfl hseq.symm rfl rfl rfl rfl rfl rfl rfl)

/-- An idle block that is not live admits NEW alone (R24, R215). -/
theorem exec_not_live {i : Instr} {s : State} (hs : s.seq = .idle) (hl : ∀ d, s.life ≠ .live d) (hn : isNew i = false)
    (hwf : i.wf s.cfg = true) : exec i s = .refused .notAdmitted := by
  rw [exec_request hn hwf, request_not_live hs hl]

/-- Settles O38: RELEASE leaves an idle block (`exec_release`) whose `LIFE` is not Live, so only NEW is admitted
(`exec_not_live`). -/
theorem releaseReturnsTheHandles : Obligations.ReleaseReturnsTheHandles := by
  intro s d hd t
  exact ⟨exec_release hd, fun i => exec_not_live (s := t) hd.1 nofun⟩

end Sys2Proof.Machine

/-! PROOFS. The statements of 60_exceptions.md: which requests are refused, where the first failing event ends an
operation, which errors an operation can end with, what an error leaves of the block and of the controller, and the delays
an operation asks for. -/

namespace Sys2Proof.Machine

/-! ## Admission -/

/-- NEW on an idle block that is live (R24, R215). -/
theorem execNew_live {b : BusHandle} {p : Option PinHandle} {w h : Half} {s : State} {d : Driver} (hd : LiveIdle s d) :
    exec (.new b p w h) s = .refused .notAdmitted := by
  obtain ⟨hs, hl⟩ := hd
  simp only [exec, execNew, hs, hl]

/-- Settles O10: NEW looks at `LIFE` itself (`execNew_live`), every other row is a request, which does
(`exec_not_live`). -/
theorem requestsOutsideTheirLifecycleAreRefused : Obligations.RequestsOutsideTheirLifecycleAreRefused := by
  intro s hs
  exact ⟨fun _ _ _ _ _ hl => execNew_live ⟨hs, hl⟩, fun _ hn hwf hl => exec_not_live hs hl hn hwf⟩

/-! ## The first failure -/

/-- Settles O21: the request ends at that event (`exec_fails`), and the fields are those of a list answered ok, then of
one failed event. -/
theorem firstFailureEndsTheOperation : Obligations.FirstFailureEndsTheOperation := by
  intro s d i pre post a e hd hn hwf hp hok he
  have hok' : (s.start i).env.allOk pre = true := hok
  have he' : ((s.start i).sent pre).env.error a = some e := by simpa using he
  refine ⟨_, exec_fails hd hn hwf hp hok he, rfl, rfl, by simp, ?_, event_isFail he, ?_, ?_, by simp, by simp, by simp⟩
  · rw [raise_trace, attempt_trace, sent_trace hok']
    simp
  · rw [raise_rstLine, attempt_rstLine_fail he', sent_rstLine_ok hok']
    cases a <;> rfl
  · simp [Env.afterAll]

/-! ## Which operation raises which error -/

/-- Of all primitives only a pin set raises a PinError (R202). -/
theorem pin_of_pinError {e : Env} {a : Action} {v : PinErr} (h : e.error a = some (.pinError v)) : ∃ l, a = .pin l := by
  cases a with
  | pin l => exact ⟨l, rfl⟩
  | cmd | data | delay => cases error_of_noPin rfl h

/-- The pulse is there with a reset pin alone (R144). -/
theorem rst_of_mem_planHardReset {c : Cfg} {d : Driver} {a : Action} (h : a ∈ planHardReset c d) :
    ∃ p, d.rst = some p := by
  rw [planHardReset] at h
  split at h
  · exact Option.isSome_iff_exists.1 ‹_›
  · cases h

/-- The pin sets of an operation are those of the pulse, which HARD_RESET and INIT make (R143, R146). -/
theorem pin_mem_planOf {c : Cfg} {d : Driver} {i : Instr} {l : Level} (h : .pin l ∈ planOf c d i) :
    ((∃ dl, i = .hardReset dl) ∨ ∃ dl, i = .init dl) ∧ .pin l ∈ planHardReset c d := by
  have notPin : ∀ {acts : List Action}, acts.all Action.noPin = true → .pin l ∉ acts :=
    fun hp hl => Bool.false_ne_true (List.all_eq_true.1 hp _ hl)
  cases i with
  | hardReset dl => exact ⟨.inl ⟨dl, rfl⟩, h⟩
  | init dl =>
    rw [planOf, planInit_eq_pulse_append, List.mem_append] at h
    exact ⟨.inr ⟨dl, rfl⟩, h.resolve_right (notPin (noPin_planAfterPulse c))⟩
  | _ => exact absurd h (notPin (noPin_planOf c d nofun nofun))

/-- Settles O22: an error is the one of an event of the operation's list (`exec_error_inv`). The lists of ORIENTATION and
RELEASE are empty; a PinError comes from a pin set of the pulse (`pin_mem_planOf`), and the pulse makes no bus
transaction. -/
theorem errorKindsByOperation : Obligations.ErrorKindsByOperation := by
  intro s t i e hx hr
  obtain ⟨hn, d, pre, a, post, hd, hp, -, he, -⟩ := exec_error_inv hx hr
  have hmem : a ∈ planOf s.cfg d i := by simp [hp]
  refine ⟨hn, ?_, ?_, ?_, ?_⟩
  · rintro rfl
    cases hmem
  · rintro rfl
    cases hmem
  · rintro v rfl
    obtain ⟨l, rfl⟩ := pin_of_pinError he
    obtain ⟨hi, hpulse⟩ := pin_mem_planOf hmem
    obtain ⟨p, hrst⟩ := rst_of_mem_planHardReset hpulse
    exact ⟨hi, d, p, hd.2, hrst⟩
  · rintro ⟨dl, rfl⟩
    obtain ⟨l, rfl⟩ := pin_of_error (planHardReset_isBus s.cfg d a hmem) he
    obtain ⟨v, -, hv⟩ := error_pin_eq_some he
    exact ⟨v, hv⟩

/-! ## What an error leaves -/

/-- Settles O23: an error comes from an event of a live idle block's operation (`exec_error_inv`), and neither the events
before it nor `raise` write a register. -/
theorem anErrorLeavesTheRegisters : Obligations.AnErrorLeavesTheRegisters := by
  intro s t i e hx hr
  obtain ⟨-, d, pre, a, post, hd, -, -, -, rfl⟩ := exec_error_inv hx hr
  exact ⟨d, hd, rfl, by simpa using hd.2⟩

/-- No byte makes a controller take commands that took none (R236). -/
theorem ready_of_recv {c : Cfg} {dims : Nat × Nat} {p : Panel} {b : WireByte}
    (h : (p.recv c dims b).bringup = .ready) : p.bringup = .ready := by
  cases b with
  | c b =>
    rw [Panel.recv, Panel.recvCmd] at h
    split at h
    · cases h
    · split at h
      · assumption
      · exact h
      · exact h
  | d b =>
    rw [Panel.recv, Panel.recvData] at h
    split at h
    · exact h
    · exact h
    · assumption

theorem ready_of_recvAll {c : Cfg} {dims : Nat × Nat} {bs : List WireByte} {p : Panel}
    (h : (p.recvAll c dims bs).bringup = .ready) : p.bringup = .ready := by
  induction bs generalizing p with
  | nil => exact h
  | cons b rest ih => exact ready_of_recv (ih h)

/-- Nor do transactions and delays answered ok; a pin set can (`Panel.pinMoved`). -/
theorem ready_of_sent {acts : List Action} {s : State} (hp : acts.all Action.noPin = true)
    (hok : s.env.allOk acts = true) (h : (s.sent acts).panel.bringup = .ready) : s.panel.bringup = .ready := by
  rw [sent_panel hp hok] at h
  exact ready_of_recvAll h

/-- Settles O24: all but one clause is what a single failed event leaves (`attempt_fail_panel`). That the events before it
made nothing ready needs them to hold no pin set: after INIT the controller is not initialised, after HARD_RESET's one
error, a PinError, it takes no commands, and no other operation drives the pin (`noPin_planOf`). -/
theorem anErrorLeavesTheControllerUnknown : Obligations.AnErrorLeavesTheControllerUnknown := by
  intro s t i e hx hr
  obtain ⟨-, -, -, -, hreset⟩ := errorKindsByOperation s t i e hx hr
  obtain ⟨-, d, pre, a, post, hd, hp, hok, he, rfl⟩ := exec_error_inv hx hr
  have he' : ((s.start i).sent pre).env.error a = some e := by simpa using he
  obtain ⟨b, hpanel, hready, hinit, hpin⟩ := attempt_fail_panel he'
  rw [sent_inInit, start_seq] at hinit
  rw [raise_panel, hpanel]
  refine ⟨rfl, fun hb => ?_, ?_, hpin⟩
  · have hacts : (planOf s.cfg d i).all Action.noPin = true := by
      refine noPin_planOf s.cfg d ?_ ?_
      · rintro dl rfl
        obtain ⟨v, hv⟩ := hreset ⟨dl, rfl⟩
        exact hpin v hv hb
      · rintro dl rfl
        cases (hinit rfl).symm.trans hb
    rw [hp, List.all_append, Bool.and_eq_true] at hacts
    exact ready_of_sent (s := s.start i) hacts.1 hok (hready hb)
  · rintro dl rfl
    exact hinit rfl

/-! ## The delays requested -/

/-- The microseconds a primitive asks for. -/
def Action.delayUs : Action → Option Nat
  | .delay us => some us
  | .cmd _ => none
  | .data _ => none
  | .pin _ => none

/-- The delays a list asks for, in order. -/
def delaysOf (acts : List Action) : List Nat :=
  acts.filterMap Action.delayUs

/-- What is recorded for a primitive asks for what the primitive does, whatever is answered. -/
theorem event_delayUs (c : Cfg) (e : Env) (a : Action) : (a.event c e).delayUs = a.delayUs := by
  cases a <;> rfl

theorem okEvent_delayUs (c : Cfg) (a : Action) : (a.okEvent c).delayUs = a.delayUs := by
  cases a <;> rfl

/-- A delay cannot fail (R12). -/
theorem delayUs_of_error {e : Env} {a : Action} {err : ErrKind} (h : e.error a = some err) : a.delayUs = none := by
  cases a with
  | delay => cases h
  | cmd | data | pin => rfl

theorem delayUs_of_isBus {a : Action} (h : a.isBus = true) : a.delayUs = none := by
  cases a with
  | cmd | data => rfl
  | pin | delay => cases h

theorem filterMap_delayUs_okEvents (c : Cfg) (acts : List Action) :
    (okEvents c acts).filterMap Event.delayUs = delaysOf acts := by
  rw [okEvents, List.filterMap_map, delaysOf]
  exact congrArg (List.filterMap · acts) (funext (okEvent_delayUs c))

@[simp] theorem delaysOf_append (xs ys : List Action) : delaysOf (xs ++ ys) = delaysOf xs ++ delaysOf ys :=
  List.filterMap_append

theorem delaysOf_isBus {acts : List Action} (h : ∀ a ∈ acts, a.isBus = true) : delaysOf acts = [] :=
  List.filterMap_eq_nil_iff.2 fun a ha => delayUs_of_isBus (h a ha)

@[simp] theorem delaysOf_nil : delaysOf [] = [] := rfl

@[simp] theorem delaysOf_cmd_cons (n : WireName) (rest : List Action) : delaysOf (.cmd n :: rest) = delaysOf rest := rfl

@[simp] theorem delaysOf_dataActs (k : Cut) (bs : List Byte) : delaysOf (dataActs k bs) = [] := by
  refine delaysOf_isBus fun a ha => ?_
  obtain ⟨chunk, -, rfl⟩ := List.mem_map.1 ha
  rfl

@[simp] theorem delaysOf_tableActs (k : Cut) (bs : List Byte) : delaysOf (tableActs k bs) = [] := by
  rw [tableActs]
  split
  · rfl
  · exact delaysOf_dataActs k bs

/-- The three waits of the pulse, with a reset pin only (R143, R144). -/
theorem delaysOf_planHardReset (c : Cfg) (d : Driver) :
    delaysOf (planHardReset c d) = if d.rst.isSome then [c.tRst1, c.tRst2, c.tRst3] else [] := by
  rw [planHardReset, Driver.hasRst]
  split <;> rfl

/-- `INIT_TABLE` asks for none; the two settle times of INIT stand around it (R146). -/
theorem delaysOf_planAfterPulse (c : Cfg) : delaysOf (planAfterPulse c) = [150000, 10000] := by
  have hsteps : delaysOf ((initTable c).flatMap initStepActs) = [] := delaysOf_isBus (initSteps_isBus _)
  rw [planAfterPulse, delaysOf_append, delaysOf_append, delaysOf_append, hsteps]
  rfl

/-- The delays of each operation on this Driver when no event of it fails (R220). -/
def requestedDelays (c : Cfg) (d : Driver) : Instr → List Nat
  | .hardReset _ => if d.rst.isSome then [c.tRst1, c.tRst2, c.tRst3] else []
  | .init _ => (if d.rst.isSome then [c.tRst1, c.tRst2, c.tRst3] else []) ++ [150000, 10000]
  | _ => []

theorem delaysOf_planOf (c : Cfg) (d : Driver) (i : Instr) : delaysOf (planOf c d i) = requestedDelays c d i := by
  cases i with
  | hardReset dl => exact delaysOf_planHardReset c d
  | init dl =>
    rw [planOf, planInit_eq_pulse_append, delaysOf_append, delaysOf_planHardReset, delaysOf_planAfterPulse, requestedDelays]
  | setTearingEffect m =>
    cases m <;> simp [planOf, planSetTearingEffect, planTeoff, planTeon, requestedDelays]
  | _ =>
    simp [planOf, planSwreset, planSlpout, planDispon, planCaset, planRaset, planRamwr, planTeoff, planTeon, planMadctl,
      planVscad, planColmod, planTuneA, planTuneB, planGammaPos, planGammaNeg, planSetOrientation, planSetPixel,
      planSetPixels, planSetAddressWindow, planSetScrollOffset, requestedDelays]

/-- The delays that an operation on a live idle block has asked for when it ends: all those of its list, or, when an event
failed, those before that event. -/
theorem exec_delays {i : Instr} {s t : State} {d : Driver} (hd : LiveIdle s d) (hx : exec i s = .next t) :
    ∃ new, t.trace = s.trace ++ new ∧ new.filterMap Event.delayUs <+: delaysOf (planOf s.cfg d i) ∧
      (∀ v, t.resp = some (.ok v) → new.filterMap Event.delayUs = delaysOf (planOf s.cfg d i)) := by
  rcases exec_cases hd (exec_live_not_new hx hd.2) hx with ⟨hok, rfl⟩ | ⟨pre, a, post, e, hp, hok, he, rfl⟩
  · refine ⟨okEvents s.cfg (planOf s.cfg d i), ?_, ?_⟩
    · rw [doneOf_trace, sent_trace (by simpa using hok), start_trace, start_cfg]
    · rw [filterMap_delayUs_okEvents]
      exact ⟨List.prefix_rfl, fun _ _ => rfl⟩
  · refine ⟨okEvents s.cfg pre ++ [a.event s.cfg (s.env.afterAll pre)], ?_, ?_, nofun⟩
    · rw [raise_trace, attempt_trace, sent_trace (by simpa using hok)]
      simp
    · have hlast : (a.event s.cfg (s.env.afterAll pre)).delayUs = none := by
        rw [event_delayUs, delayUs_of_error he]
      rw [List.filterMap_append, filterMap_delayUs_okEvents, List.filterMap_cons_none hlast, List.filterMap_nil,
        List.append_nil, hp, delaysOf_append]
      exact List.prefix_append _ _

/-- Settles O47: the delays are those of the operation's list, or a front part of them (`exec_delays`), and the list asks
for those of R220 (`delaysOf_planOf`). -/
theorem delaysRequestedByEachOperation : Obligations.DelaysRequestedByEachOperation := by
  intro s t i d hd hx pulse expected
  have hexpected : expected = requestedDelays s.cfg d i := by cases i <;> rfl
  rw [hexpected, ← delaysOf_planOf]
  exact exec_delays hd hx

end Sys2Proof.Machine

/-! PROOFS. The statements of 70_reset_and_hazards.md: what is known at block reset, after NEW and after a reset pulse. -/

namespace Sys2Proof.Machine

/-- Settles O9: the fields that `State.reset` lists. -/
theorem resetIsAbsentIdleAndUnknown : Obligations.ResetIsAbsentIdleAndUnknown :=
  ⟨rfl, rfl, rfl, rfl, rfl, rfl, rfl, rfl⟩

/-- The whole controller after a pulse (R68): only whether an INIT had brought it up is kept (R236, R243). -/
theorem pulse_panel (p : Panel) :
    ((p.pinMoved .high).pinMoved .low).pinMoved .high
      = { Panel.unknown with bringup := if p.bringup = .uninit then .uninit else .ready } := by
  by_cases h : p.bringup = .uninit
  · simp [Panel.pinMoved, h]
  · rw [if_neg h, ← pulse_ready h]
    rfl

/-- Settles O16: NEW's next state is the constructed one (`execNew_idle`), and HARD_RESET's controller is the one that the
pulse has moved (`hardReset_pulse`, `pulse_panel`). -/
theorem newAndTheResetPulseForgetTheController : Obligations.NewAndTheResetPulseForgetTheController := by
  intro s
  refine ⟨fun bus pin w h hs hl => ⟨_, execNew_idle hs hl, rfl, rfl⟩, fun d p delay hd hr hok => ?_⟩
  obtain ⟨t, hx, -, -, -, hpanel⟩ := hardReset_pulse hd hr hok
  exact ⟨t, hx, hpanel.trans (pulse_panel s.panel)⟩

end Sys2Proof.Machine
